-- ==== Sys2Proof/Config.lean ====
section
/-! DEFINITION. The implementation parameters of HUFFCODEC (spec rule R7) as ONE ARGUMENT of the model, `Params`, each with
the spec's default and its constraint, and the FREE VALUES: what the two stores hold after a hard reset until they are
written (rules R57, R74, R262). Every other file writes widths and depths with the parameters' names, never as numerals. -/

namespace Sys2Proof

/-! ### The default column of R7 -/

/-- R7 `SYM_W`, default. -/
abbrev SYM_W : Nat := 8

/-- R7 `NSYM = 2^SYM_W`, default. -/
abbrev NSYM : Nat := 2 ^ SYM_W

/-- R7 `LEN_W = SYM_W`, default. -/
abbrev LEN_W : Nat := SYM_W

/-- R7 `MAXLEN = 2^LEN_W - 1`, default. -/
abbrev MAXLEN : Nat := 2 ^ LEN_W - 1

/-- R7 `NODE_W = SYM_W + 1`, default. -/
abbrev NODE_W : Nat := SYM_W + 1

/-- R7 `NNODE = 2^NODE_W`, default. -/
abbrev NNODE : Nat := 2 ^ NODE_W

/-- R7 `WORD_W`, default. -/
abbrev WORD_W : Nat := 8

/-- R7 `VB_W = ceil(log2(WORD_W + 1))`, default. -/
abbrev VB_W : Nat := 4

/-- R7 `EQ_DEPTH`, default. -/
abbrev EQ_DEPTH : Nat := 64

/-- R7 `DQ_DEPTH`, default. -/
abbrev DQ_DEPTH : Nat := 16

/-- R7 `CNT_W`, default. -/
abbrev CNT_W : Nat := 64

/-! ### The parameters (R7; notes/assumptions/1.md) -/

/-- The eleven parameters of R7, each an argument with the stated default, and below them the constraint column: a value of
this type is a choice of parameters that R7 allows. Parameters that R7 ties to another follow it where they are not given:
`{ SYM_W := 4, EQ_DEPTH := 8 }` is a block for 16 symbols. -/
structure Params where
  /-- Width of a symbol in bits. -/
  SYM_W : Nat := Sys2Proof.SYM_W
  /-- Number of code-table entries. -/
  NSYM : Nat := 2 ^ SYM_W
  /-- Width of a code-length field. -/
  LEN_W : Nat := SYM_W
  /-- The longest code, in bits. -/
  MAXLEN : Nat := 2 ^ LEN_W - 1
  /-- Width of a node handle. -/
  NODE_W : Nat := SYM_W + 1
  /-- Number of node slots. -/
  NNODE : Nat := 2 ^ NODE_W
  /-- Width of a packed output word. -/
  WORD_W : Nat := Sys2Proof.WORD_W
  /-- Width of the valid-bit count of a word. -/
  VB_W : Nat := Sys2Proof.VB_W
  /-- Capacity of the encoder FIFO, in entries. -/
  EQ_DEPTH : Nat := Sys2Proof.EQ_DEPTH
  /-- Capacity of the decoder output queue, in entries. -/
  DQ_DEPTH : Nat := Sys2Proof.DQ_DEPTH
  /-- Width of each of the four counters. -/
  CNT_W : Nat := Sys2Proof.CNT_W
  symW_pos : 1 ≤ SYM_W := by decide
  nsym_eq : NSYM = 2 ^ SYM_W := by rfl
  lenW_eq : LEN_W = SYM_W := by rfl
  maxlen_eq : MAXLEN = 2 ^ LEN_W - 1 := by rfl
  nodeW_eq : NODE_W = SYM_W + 1 := by rfl
  nnode_eq : NNODE = 2 ^ NODE_W := by rfl
  wordW_pos : 1 ≤ WORD_W := by decide
  /-- `VB_W = ceil(log2(WORD_W + 1))`: the least width that holds the counts 0 to `WORD_W`. -/
  vbW_eq : 2 ^ (VB_W - 1) < WORD_W + 1 ∧ WORD_W + 1 ≤ 2 ^ VB_W := by decide
  eqDepth_fits : (WORD_W - 1 + MAXLEN) / WORD_W ≤ EQ_DEPTH := by decide
  eqDepth_pos : 1 ≤ EQ_DEPTH := by decide
  dqDepth_pos : 1 ≤ DQ_DEPTH := by decide
  cntW_pos : 1 ≤ CNT_W := by decide
  cntW_mul : CNT_W % 32 = 0 := by decide
  cntW_le : CNT_W ≤ 64 := by decide

/-- The parameters at their defaults. Every type of the model that depends on the parameters takes these where none are
named, so `State` and `Instr` are those of the block at the defaults. -/
abbrev Params.default : Params := {}

/-- R90 `CFG_W`: payload width of the configuration port. -/
abbrev Params.CFG_W (P : Params) : Nat := max (2 + P.SYM_W + P.LEN_W + P.MAXLEN) (4 + 3 * P.NODE_W + P.SYM_W)

/-- R94: width of the widest transaction word (port 1): 3 bits of port number and the `CFG_W`-bit payload. -/
abbrev Params.T_W (P : Params) : Nat := P.CFG_W + 3

/-- `CFG_W` at the defaults. -/
abbrev CFG_W : Nat := Params.default.CFG_W

/-- The width of the widest transaction word at the defaults. -/
abbrev T_W : Nat := Params.default.T_W

/-! ### Free values (R57, R74, R262; DESIGN CHOICE notes/assumptions/2.md)

After a hard reset every entry of `CT` and `TN` holds an unspecified value of its type, fixed until written. The first
number counts the hard resets, the second is the index of the entry. Nothing can be proved about the values. -/

/-- `len` of the unspecified contents of `CT[index]` after hard reset number `draw`. -/
opaque Config.freeCodeLen (P : Params) (draw index : Nat) : BitVec P.LEN_W

/-- `code` of the unspecified contents of `CT[index]` after hard reset number `draw`. -/
opaque Config.freeCodeBits (P : Params) (draw index : Nat) : BitVec P.MAXLEN

/-- `kind` of the unspecified contents of `TN[index]` after hard reset number `draw`. -/
opaque Config.freeNodeKind (P : Params) (draw index : Nat) : BitVec 2

/-- `left` of the unspecified contents of `TN[index]` after hard reset number `draw`. -/
opaque Config.freeNodeLeft (P : Params) (draw index : Nat) : BitVec P.NODE_W

/-- `right` of the unspecified contents of `TN[index]` after hard reset number `draw`. -/
opaque Config.freeNodeRight (P : Params) (draw index : Nat) : BitVec P.NODE_W

/-- `sym` of the unspecified contents of `TN[index]` after hard reset number `draw`. -/
opaque Config.freeNodeSym (P : Params) (draw index : Nat) : BitVec P.SYM_W

end Sys2Proof
end

