-- ==== Sys2Proof/Word.lean ====
section
/-! DEFINITION. The word types of HUFFCODEC: symbols, handles, counters, packed words, transaction words, and the bit
sequences of rule R12. -/

namespace Sys2Proof

/-- A symbol (R17): opaque, an index into `CT` or a value copied out of `TN`. -/
abbrev Symbol (P : Params := Params.default) := BitVec P.SYM_W

/-- A node handle (R18): the index of a node in `TN`. -/
abbrev Handle (P : Params := Params.default) := BitVec P.NODE_W

/-- The length field of a code-table entry (R23). -/
abbrev CodeLen (P : Params := Params.default) := BitVec P.LEN_W

/-- The code field of a code-table entry, read as an integer (R14, R23). -/
abbrev CodeInt (P : Params := Params.default) := BitVec P.MAXLEN

/-- A packed output word (R15). -/
abbrev PackedWord (P : Params := Params.default) := BitVec P.WORD_W

/-- One of the four event counters (R36, R41): wraps modulo `2^CNT_W`. -/
abbrev Count (P : Params := Params.default) := BitVec P.CNT_W

/-- A transaction word (R94), held at the width of the widest port; a narrower port's word has zeros above it. -/
abbrev TWord (P : Params := Params.default) := BitVec P.T_W

/-- A bit sequence (R12), first bit first. -/
abbrev Bits := List Bool

/-- `zeros(n)` of R12. -/
abbrev zeros (n : Nat) : Bits := List.replicate n false

end Sys2Proof
end

