-- ==== Sys2Proof/Syntax.lean ====
section
/-! DEFINITION. The 15 operations of HUFFCODEC (rules R2, R106), one constructor per row of spec/opcode_table.json,
the node kinds that are an operand of CFG_NODE (R26), and the verdict on a word that spells no operation (R95). -/

namespace Sys2Proof

variable {P : Params}

/-- The four node kinds (R26). -/
inductive NodeKind where
  /-- 0: the slot holds no node. -/
  | empty
  /-- 1: `left` and `right` are the handles of the two children. -/
  | internal
  /-- 2: `sym` is the leaf's symbol. -/
  | leaf
  /-- 3: stands in place of the second leaf of a one-symbol tree (R31). -/
  | placeholder
  deriving DecidableEq, Repr

/-- One operation a host issues on a port. Operand names are those of R106. -/
inductive Instr (P : Params := Params.default) where
  /-- CTRL_NOP (R181). -/
  | ctrlNop
  /-- ENC_CLR (R182). -/
  | encClr
  /-- DEC_CLR (R183). -/
  | decClr
  /-- ALL_CLR (R184). -/
  | allClr
  /-- CFG_CLEAR (R122). -/
  | cfgClear
  /-- CFG_CODE (R123). -/
  | cfgCode (sym : Symbol P) (len : CodeLen P) (code : CodeInt P)
  /-- CFG_NODE (R124). -/
  | cfgNode (h : Handle P) (kind : NodeKind) (left right : Handle P) (sym : Symbol P)
  /-- CFG_ROOT (R125). -/
  | cfgRoot (h : Handle P)
  /-- ENC_PUT (R141). -/
  | encPut (sym : Symbol P)
  /-- ENC_END (R142). -/
  | encEnd
  /-- ENC_POP (R143). -/
  | encPop
  /-- DEC_BIT (R161); `bit` is the bitstream bit, `true` for 1. -/
  | decBit (bit : Bool)
  /-- DEC_END (R162). -/
  | decEnd
  /-- DEC_POP (R163). -/
  | decPop
  /-- STAT_RD (R185). -/
  | statRd (idx : BitVec 4)
  deriving DecidableEq, Repr

/-- The mnemonic of an operation, as R106 and spec/opcode_table.json spell it. -/
def Instr.mnemonic : Instr P → String
  | .ctrlNop => "CTRL_NOP"
  | .encClr => "ENC_CLR"
  | .decClr => "DEC_CLR"
  | .allClr => "ALL_CLR"
  | .cfgClear => "CFG_CLEAR"
  | .cfgCode _ _ _ => "CFG_CODE"
  | .cfgNode _ _ _ _ _ => "CFG_NODE"
  | .cfgRoot _ => "CFG_ROOT"
  | .encPut _ => "ENC_PUT"
  | .encEnd => "ENC_END"
  | .encPop => "ENC_POP"
  | .decBit _ => "DEC_BIT"
  | .decEnd => "DEC_END"
  | .decPop => "DEC_POP"
  | .statRd _ => "STAT_RD"

/-- The port that carries an operation (R90), numbered 0 to 6. -/
def Instr.chan : Instr P → BitVec 3
  | .ctrlNop => 0
  | .encClr => 0
  | .decClr => 0
  | .allClr => 0
  | .cfgClear => 1
  | .cfgCode _ _ _ => 1
  | .cfgNode _ _ _ _ _ => 1
  | .cfgRoot _ => 1
  | .encPut _ => 2
  | .encEnd => 2
  | .encPop => 3
  | .decBit _ => 4
  | .decEnd => 4
  | .decPop => 5
  | .statRd _ => 6

/-- Why a transaction word spells no operation. -/
inductive DecodeReject where
  /-- `chan = 7`: there is no port 7 (R95, R108 (a)): the verdict *invalid*. -/
  | invalidChan
  deriving DecidableEq, Repr

end Sys2Proof
end

