-- ==== Sys2Proof/WellFormed.lean ====
section
/-! DEFINITION. Well-formed operations. Every operand is a field of its exact width and every value of it is legal
(R95, R108 (c), (d), (e)), so the one thing left to check is the host's side of R108 (b): the operand bits the block ignores
should be written as 0. The block executes an operation that fails the check all the same, and nothing in the
machine reads this predicate. -/

namespace Sys2Proof

variable {P : Params}

/-- `code` has no bit at or above position `len` (R105, R108 (b); the same condition on a stored entry is R24). -/
def codeFits (len : CodeLen P) (code : CodeInt P) : Bool :=
  decide (code.toNat < 2 ^ len.toNat)

/-- The check, constructor by constructor: only CFG_CODE carries operand bits that the block ignores. -/
def Instr.wellFormed : Instr P → Bool
  | .ctrlNop => true
  | .encClr => true
  | .decClr => true
  | .allClr => true
  | .cfgClear => true
  | .cfgCode _ len code => codeFits len code
  | .cfgNode _ _ _ _ _ => true
  | .cfgRoot _ => true
  | .encPut _ => true
  | .encEnd => true
  | .encPop => true
  | .decBit _ => true
  | .decEnd => true
  | .decPop => true
  | .statRd _ => true

/-- An operation whose ignored operand bits are 0. -/
abbrev WellFormed (i : Instr P) : Prop := i.wellFormed = true

end Sys2Proof
end

