-- ==== Sys2Proof/Decode.lean ====
section
/-! DEFINITION. The transaction word (R94 to R106): the decoder, total on every word and rejecting port 7 by name,
the encoder written from the same formats, the operation table of R106, and the host's table-word entry point. -/

namespace Sys2Proof

variable {P : Params}

/-! ### Field values -/

/-- The numeric value of a node kind (R26, R99). -/
def kindToBits : NodeKind → BitVec 2
  | .empty => 0
  | .internal => 1
  | .leaf => 2
  | .placeholder => 3

/-- The node kind a 2-bit field names (R26): all four values name one. -/
def kindOfBits (b : BitVec 2) : NodeKind :=
  if b = 0 then .empty else if b = 1 then .internal else if b = 2 then .leaf else .placeholder

/-! ### Decoding (R95 to R104) -/

/-- Format CTRL (R96): `T[4] = cd`, `T[3] = ce`. -/
def decodeCtrl (t : TWord P) : Instr P :=
  match t.getLsbD 4, t.getLsbD 3 with
  | false, false => .ctrlNop
  | false, true => .encClr
  | true, false => .decClr
  | true, true => .allClr

/-- Format CFG (R97): `T[4:3] = op`; the sub-formats are R98, R99 and R100. -/
def decodeCfg (t : TWord P) : Instr P :=
  match t.getLsbD 4, t.getLsbD 3 with
  | false, false => .cfgClear
  | false, true =>
    .cfgCode (t.extractLsb' 5 P.SYM_W) (t.extractLsb' (5 + P.SYM_W) P.LEN_W) (t.extractLsb' (5 + P.SYM_W + P.LEN_W) P.MAXLEN)
  | true, false =>
    .cfgNode (t.extractLsb' 5 P.NODE_W) (kindOfBits (t.extractLsb' (5 + P.NODE_W) 2))
      (t.extractLsb' (7 + P.NODE_W) P.NODE_W) (t.extractLsb' (7 + 2 * P.NODE_W) P.NODE_W)
      (t.extractLsb' (7 + 3 * P.NODE_W) P.SYM_W)
  | true, true => .cfgRoot (t.extractLsb' 5 P.NODE_W)

/-- Format SYM_IN (R101): `T[3] = end`, the symbol above it. -/
def decodeSymIn (t : TWord P) : Instr P :=
  if t.getLsbD 3 then .encEnd else .encPut (t.extractLsb' 4 P.SYM_W)

/-- Format BIT_IN (R103): `T[3] = end`, `T[4] = bit`. -/
def decodeBitIn (t : TWord P) : Instr P :=
  if t.getLsbD 3 then .decEnd else .decBit (t.getLsbD 4)

/-- Decoding a transaction word (R95): the port number selects the format, `chan = 7` is *invalid*. Bits above a
port's payload are no wires of that port and are not looked at (DESIGN CHOICE notes/assumptions/4.md). -/
def decode (t : TWord P) : Except DecodeReject (Instr P) :=
  match (t.extractLsb' 0 3).toNat with
  | 0 => .ok (decodeCtrl t)
  | 1 => .ok (decodeCfg t)
  | 2 => .ok (decodeSymIn t)
  | 3 => .ok .encPop
  | 4 => .ok (decodeBitIn t)
  | 5 => .ok .decPop
  | 6 => .ok (.statRd (t.extractLsb' 3 4))
  | _ => .error .invalidChan

/-! ### Encoding (R94, R96 to R104) -/

/-- `T = {payload, chan}` (R94), at the width of the widest word. -/
def wordOf {w : Nat} (payload : BitVec w) (chan : BitVec 3) : TWord P :=
  (payload ++ chan).setWidth P.T_W

/-- The transaction word of an operation, ignored payload bits 0 (R96 to R104). -/
def encode : Instr P → TWord P
  | .ctrlNop => wordOf (0#1 ++ 0#1) 0
  | .encClr => wordOf (0#1 ++ 1#1) 0
  | .decClr => wordOf (1#1 ++ 0#1) 0
  | .allClr => wordOf (1#1 ++ 1#1) 0
  | .cfgClear => wordOf 0#2 1
  | .cfgCode sym len code => wordOf (code ++ len ++ sym ++ 1#2) 1
  | .cfgNode h kind left right sym => wordOf (sym ++ right ++ left ++ kindToBits kind ++ h ++ 2#2) 1
  | .cfgRoot h => wordOf (h ++ 3#2) 1
  | .encPut sym => wordOf (sym ++ 0#1) 2
  | .encEnd => wordOf (0#P.SYM_W ++ 1#1) 2
  | .encPop => wordOf 0#0 3
  | .decBit bit => wordOf (BitVec.ofBool bit ++ 0#1) 4
  | .decEnd => wordOf (0#1 ++ 1#1) 4
  | .decPop => wordOf 0#0 5
  | .statRd idx => wordOf idx 6

/-- The width of a port's transaction word (R90, R94): 5, 276, 12, 3, 5, 3 and 7 bits for ports 0 to 6. -/
def portWidth (P : Params) (chan : BitVec 3) : Nat :=
  match chan.toNat with
  | 0 => 3 + 2
  | 1 => 3 + P.CFG_W
  | 2 => 3 + (1 + P.SYM_W)
  | 3 => 3
  | 4 => 3 + 2
  | 5 => 3
  | 6 => 3 + 4
  | _ => 3

/-- The low `n` bits set. -/
def lowMask (n : Nat) : TWord P := BitVec.ofNat P.T_W (2 ^ n - 1)

/-- The bits of a transaction word that its format names (R96 to R104); the block ignores the others (R97, R108 (b)). -/
def namedBits : Instr P → TWord P
  | .ctrlNop => lowMask 5
  | .encClr => lowMask 5
  | .decClr => lowMask 5
  | .allClr => lowMask 5
  | .cfgClear => lowMask 5
  | .cfgCode _ _ _ => lowMask (5 + P.SYM_W + P.LEN_W + P.MAXLEN)
  | .cfgNode _ _ _ _ _ => lowMask (7 + 3 * P.NODE_W + P.SYM_W)
  | .cfgRoot _ => lowMask (5 + P.NODE_W)
  | .encPut _ => lowMask (4 + P.SYM_W)
  | .encEnd => lowMask 4
  | .encPop => lowMask 3
  | .decBit _ => lowMask 5
  | .decEnd => lowMask 4
  | .decPop => lowMask 3
  | .statRd _ => lowMask 7

/-! ### The operation table (R106) -/

/-- One row of R106: the operation is selected when `T & mask = pattern`. -/
structure OpRow (P : Params := Params.default) where
  mnemonic : String
  pattern : TWord P
  mask : TWord P
  deriving DecidableEq, Repr

/-- The 15 rows of R106, with its `match` and `mask` columns. -/
def opTable : List (OpRow P) :=
  [⟨"CTRL_NOP", 0x00, 0x1F⟩, ⟨"ENC_CLR", 0x08, 0x1F⟩, ⟨"DEC_CLR", 0x10, 0x1F⟩, ⟨"ALL_CLR", 0x18, 0x1F⟩,
   ⟨"CFG_CLEAR", 0x01, 0x1F⟩, ⟨"CFG_CODE", 0x09, 0x1F⟩, ⟨"CFG_NODE", 0x11, 0x1F⟩, ⟨"CFG_ROOT", 0x19, 0x1F⟩,
   ⟨"ENC_PUT", 0x2, 0xF⟩, ⟨"ENC_END", 0xA, 0xF⟩, ⟨"ENC_POP", 0x3, 0x7⟩,
   ⟨"DEC_BIT", 0x4, 0xF⟩, ⟨"DEC_END", 0xC, 0xF⟩, ⟨"DEC_POP", 0x5, 0x7⟩, ⟨"STAT_RD", 0x6, 0x7⟩]

/-- A word selects a row (R106). -/
def OpRow.selects (r : OpRow P) (t : TWord P) : Bool :=
  t &&& r.mask == r.pattern

/-! ### The host's entry point -/

/-- The operation the decoder reads from the low bits `w` of a transaction word; an opcode-table word is a transaction
word (R94), so it is the word itself, zeros above it. -/
def decodeTableWord (_nbits w : Nat) : Option Instr :=
  match decode (BitVec.ofNat T_W w : TWord) with
  | .ok i => some i
  | .error _ => none

end Sys2Proof
end

