-- ==== Sys2Proof/Machine/State.lean ====
section
/-! DEFINITION. The state of HUFFCODEC as plain data (rules R20 to R42), the reasons a step can stop, the response of
the last step, what the host offers, and the state right after a hard reset (R57). -/

namespace Sys2Proof.Machine

open Sys2Proof

variable {P : Params}

/-! ### The configuration store (R22 to R27) -/

/-- One entry of the code table `CT` (R23): `len = 0` means the symbol has no entry. -/
structure CodeEntry (P : Params := Params.default) where
  len : CodeLen P
  code : CodeInt P
  deriving DecidableEq, Repr

/-- One entry of the node store `TN` (R25). -/
structure TreeNode (P : Params := Params.default) where
  kind : NodeKind
  left : Handle P
  right : Handle P
  sym : Symbol P
  deriving DecidableEq, Repr

/-- What an entry of a store holds while it is not listed: the unspecified contents left by hard reset number `draw`
(R57, R262), or the defined empty contents that CFG_CLEAR gives every entry (R122). -/
inductive StoreBase where
  | unspecified (draw : Nat)
  | cleared
  deriving DecidableEq, Repr

/-- An indexed store in its sparse form: the listed entries by index, indices strictly rising, and what the unlisted
ones hold. -/
structure Store (α : Type) where
  base : StoreBase
  cells : List (Nat × α)
  deriving DecidableEq, Repr

/-- The configuration store (R22): the block's memory. -/
structure Memory (P : Params := Params.default) where
  /-- The code table `CT` (R23), `NSYM` entries. -/
  ct : Store (CodeEntry P)
  /-- The node store `TN` (R25), `NNODE` entries. -/
  tn : Store (TreeNode P)
  /-- The root register `ROOT` (R27). -/
  root : Handle P
  deriving DecidableEq, Repr

/-! ### The encoder unit (R33 to R36) -/

/-- `enc_fault` (R34). Values 2 and 3 are never produced (R108 (f)), so the type does not contain them. -/
inductive EncFault where
  | none
  | unknown
  deriving DecidableEq, Repr

/-- One entry of the encoder FIFO (R35). -/
structure EncEntry (P : Params := Params.default) where
  data : PackedWord P
  vbits : BitVec P.VB_W
  last : Bool
  deriving DecidableEq, Repr

/-- The encoder unit's registers and queue. -/
structure EncUnit (P : Params := Params.default) where
  /-- `enc_acc` (R33): the bits that do not yet fill a word, oldest first. -/
  acc : Bits
  /-- `enc_q` (R35), head first. -/
  q : List (EncEntry P)
  /-- `enc_open` (R34). -/
  isOpen : Bool
  /-- `enc_fault` (R34). -/
  fault : EncFault
  /-- `enc_errsym` (R34). -/
  errsym : Symbol P
  /-- `enc_bits` (R36). -/
  bits : Count P
  /-- `enc_syms` (R36). -/
  syms : Count P
  deriving DecidableEq, Repr

/-! ### The decoder unit (R38 to R41) -/

/-- `dec_fault` (R39). Value 3 is never produced (R108 (f)), so the type does not contain it. -/
inductive DecFault where
  | none
  | truncated
  | badTree
  deriving DecidableEq, Repr

/-- One entry of the decoder output queue (R40). -/
structure DecEntry (P : Params := Params.default) where
  sym : Symbol P
  last : Bool
  trunc : Bool
  deriving DecidableEq, Repr

/-- The decoder unit's registers and queue. -/
structure DecUnit (P : Params := Params.default) where
  /-- `dec_cur` (R38). -/
  cur : Handle P
  /-- `dec_mid` (R38). -/
  mid : Bool
  /-- `dec_q` (R40), head first. -/
  q : List (DecEntry P)
  /-- `dec_open` (R39). -/
  isOpen : Bool
  /-- `dec_fault` (R39). -/
  fault : DecFault
  /-- `dec_bits` (R41). -/
  bits : Count P
  /-- `dec_syms` (R41). -/
  syms : Count P
  deriving DecidableEq, Repr

/-! ### What the block answers and what the host offers -/

/-- The response codes (R107). Values 6 and 7 are never returned. -/
inductive RespCode where
  | ok
  | errUnknownSymbol
  | errTruncatedStream
  | errBadTree
  | errFaulted
  | errBusy
  deriving DecidableEq, Repr

/-- The signals the block drives at one rising clock edge with `rst = 0` (R91, R93): per input port `none` while `ready = 0`,
else what it answers; per output port `none` while `valid = 0`, else the entry offered. -/
structure PortOutputs (P : Params := Params.default) where
  /-- `ctrl_ready`, `ctrl_resp`. -/
  ctrl : Option (BitVec 3)
  /-- `cfg_ready`, `cfg_resp`. -/
  cfg : Option (BitVec 3)
  /-- `symin_ready`, `symin_resp`. -/
  symIn : Option (BitVec 3)
  /-- `wordout_valid`, `wordout_data`. -/
  wordOut : Option (BitVec (1 + P.VB_W + P.WORD_W))
  /-- `bitin_ready`, `bitin_resp`. -/
  bitIn : Option (BitVec 3)
  /-- `symout_valid`, `symout_data`. -/
  symOut : Option (BitVec (1 + 1 + P.SYM_W))
  /-- `stat_ready`, `stat_rdata`. -/
  stat : Option (BitVec 32)
  deriving DecidableEq, Repr

/-- What the last step gave the host (R11): the block's output, not a register of it (DESIGN CHOICE notes/assumptions/5.md). -/
inductive Response (P : Params := Params.default) where
  /-- No transfer happened: nothing was offered, or the step was a hard reset (R260). -/
  | idle
  /-- `NotReady`: the handshake did not complete (R11). -/
  | notReady
  /-- Accepted with a response code (R107). -/
  | code (c : RespCode)
  /-- ENC_POP: the popped entry (R102). -/
  | word (e : EncEntry P)
  /-- DEC_POP: the popped entry (R104). -/
  | symbol (e : DecEntry P)
  /-- STAT_RD: the register value (R104). -/
  | value (v : BitVec 32)
  /-- A rising clock edge: bit `p` of the mask is 1 when port `p`'s transfer is accepted at it, and what the block drove on
  its ports (R70, R91). -/
  | edge (accepted : BitVec 7) (out : PortOutputs P)
  deriving DecidableEq, Repr

/-- The signals the host drives at one rising clock edge with `rst = 0` (R91, R93): per input port `none` while
`valid = 0`, else the request payload; per output port the host's `ready`. -/
structure PortSignals (P : Params := Params.default) where
  /-- `ctrl_valid`, `ctrl_data`. -/
  ctrl : Option (BitVec 2)
  /-- `cfg_valid`, `cfg_data`. -/
  cfg : Option (BitVec P.CFG_W)
  /-- `symin_valid`, `symin_data`. -/
  symIn : Option (BitVec (1 + P.SYM_W))
  /-- `wordout_ready`. -/
  wordOut : Bool
  /-- `bitin_valid`, `bitin_data`. -/
  bitIn : Option (BitVec 2)
  /-- `symout_ready`. -/
  symOut : Bool
  /-- `stat_valid`, `stat_idx`. -/
  stat : Option (BitVec 4)
  deriving DecidableEq, Repr

/-- What the host does next (R10, R19). -/
inductive HostEvent (P : Params := Params.default) where
  /-- Offer one operation, spelled as a transaction word (R94). -/
  | offer (t : TWord P)
  /-- A rising clock edge with `rst = 1` (R92, R260). -/
  | hardReset
  /-- A rising clock edge at which any of the ports are driven (R70); bit `p` of `hold` is 1 when the block keeps port
  `p` waiting for reasons of its own (R91, R291). -/
  | edge (sig : PortSignals P) (hold : BitVec 7)
  deriving DecidableEq, Repr

/-! ### The state -/

/-- The state: `mem`, `enc` and `dec` are all the state the spec gives the block (R20); `resets`, `events` and `resp` are
the model's own (the draw number of the free values, the host's coming events, the last output). -/
structure State (P : Params := Params.default) where
  /-- The configuration store: `CT`, `TN`, `ROOT` (R22). -/
  mem : Memory P
  /-- The encoder unit (R33 to R36). -/
  enc : EncUnit P
  /-- The decoder unit (R38 to R41). -/
  dec : DecUnit P
  /-- MODEL'S OWN: how many hard resets have followed the first one; numbers the free draws (R74). -/
  resets : Nat
  /-- MODEL'S OWN: what the host does from here on, first event first (R19). -/
  events : List (HostEvent P)
  /-- MODEL'S OWN: what the last step gave the host (R11). -/
  resp : Response P
  deriving DecidableEq, Repr

/-- The reasons the machine stops with a fault: NONE. Every failure the spec names is a recorded fault of a unit, after
which the machine goes on (R220, R224), or a refusal or `NotReady`, which change nothing (R11, R220). -/
inductive Fault where
  deriving DecidableEq, Repr

/-- The reasons a step is refused. -/
inductive Refusal where
  /-- Raised by no arm of exec: every operation of the table has its meaning. Safe. -/
  | notModelled (mnemonic : String)
  /-- Raised by the step, not by an operation, when the offered word has `chan = 7`: no port, invalid, cannot reach the
  block (R95, R108 (a)). Safe. -/
  | invalidChan
  deriving DecidableEq, Repr

/-- The encoder unit after a hard reset or a clear (R57, R182). -/
def EncUnit.reset : EncUnit P :=
  { acc := [], q := [], isOpen := false, fault := .none, errsym := 0, bits := 0, syms := 0 }

/-- The decoder unit after a hard reset or a clear (R57, R183). -/
def DecUnit.reset : DecUnit P :=
  { cur := 0, mid := false, q := [], isOpen := false, fault := .none, bits := 0, syms := 0 }

/-- The configuration store after hard reset number `draw` (R57, R262): both stores unspecified, `ROOT = 0`. -/
def Memory.reset (draw : Nat) : Memory P :=
  { ct := ⟨.unspecified draw, []⟩, tn := ⟨.unspecified draw, []⟩, root := 0 }

/-- The machine right after the first hard reset (R57, R261), with no host event coming and no output yet. -/
def State.resetOf (P : Params) : State P :=
  { mem := Memory.reset 0, enc := EncUnit.reset, dec := DecUnit.reset, resets := 0, events := [], resp := .idle }

/-- The machine right after reset, at the default parameters. -/
def State.reset : State := State.resetOf Params.default

end Sys2Proof.Machine
end

