-- ==== Sys2Proof/Machine/Flags.lean ====
section
/-! DEFINITION. The flags of R55 as the STATUS registers and the ports show them: the numeric value of each fault
register (R34, R39) and the empty and full flags of the two queues (R47, R50). -/

namespace Sys2Proof.Machine

open Sys2Proof

variable {P : Params}

/-- The number `enc_fault` reads as (R34). -/
def EncFault.toBits : EncFault → BitVec 2
  | .none => 0
  | .unknown => 1

/-- The number `dec_fault` reads as (R39). -/
def DecFault.toBits : DecFault → BitVec 2
  | .none => 0
  | .truncated => 1
  | .badTree => 2

/-- 1 iff `|enc_q| = 0` (R47). -/
def EncUnit.qEmpty (u : EncUnit P) : Bool := u.q.length == 0

/-- 1 iff `|enc_q| = EQ_DEPTH` (R47). -/
def EncUnit.qFull (u : EncUnit P) : Bool := u.q.length == P.EQ_DEPTH

/-- 1 iff `|dec_q| = 0` (R50). -/
def DecUnit.qEmpty (u : DecUnit P) : Bool := u.q.length == 0

/-- 1 iff `|dec_q| = DQ_DEPTH` (R50). -/
def DecUnit.qFull (u : DecUnit P) : Bool := u.q.length == P.DQ_DEPTH

end Sys2Proof.Machine
end

