-- ==== Sys2Proof/Machine/Operands.lean ====
section
/-! DEFINITION. How operands and entries are read as bit sequences and as integers: `codebits` (R14), `pack` and
`unpackbits` (R15), `Unpack` (R16), the stored form of a code (R24, R105), the words one ENC_PUT completes (R141), the
child a bit selects (R28, R161), and the integer forms of the response entries (R102, R104, R107). -/

namespace Sys2Proof.Machine

open Sys2Proof

variable {P : Params}

/-! ### Codes (R14, R24, R105) -/

/-- `codebits(e)` (R14): the low `len` bits of `code`, the most significant of them first. -/
def codebits (e : CodeEntry P) : Bits :=
  (List.range e.len.toNat).map fun i => e.code.getLsbD (e.len.toNat - 1 - i)

/-- The entry of a symbol that has no code (R23, R24, R122). -/
def CodeEntry.absent : CodeEntry P := { len := 0, code := 0 }

/-- The entry CFG_CODE stores (R123): bits of `code` at and above position `len` are discarded, and `len = 0` deletes. -/
def storedCode (len : CodeLen P) (code : CodeInt P) : CodeEntry P :=
  if len = 0#P.LEN_W then CodeEntry.absent
  else { len := len, code := (code.setWidth len.toNat).setWidth P.MAXLEN }

/-- Canonical form of a `CT` entry (R24): `code` has no bit at or above position `len`. -/
def CodeEntry.canonical (e : CodeEntry P) : Bool := codeFits e.len e.code

/-! ### Packing (R15, R16, R62) -/

/-- The integer a bit sequence spells, first bit most significant. -/
def bitsToNat (s : Bits) : Nat := s.foldl (fun n b => 2 * n + b.toNat) 0

/-- `pack(s)` (R15), for `|s| = WORD_W`: the first bit of the sequence is the most significant bit of the word. -/
def pack (s : Bits) : PackedWord P := BitVec.ofNat P.WORD_W (bitsToNat s)

/-- `unpackbits(d, n)` (R15): the `n` most significant bits of `d`, most significant first. -/
def unpackbits (d : PackedWord P) (n : Nat) : Bits :=
  (List.range n).map fun i => d.getLsbD (P.WORD_W - 1 - i)

/-- `Unpack(E)` (R16): the bit sequence a list of encoder FIFO entries carries. -/
def unpack (es : List (EncEntry P)) : Bits := es.flatMap fun e => unpackbits e.data e.vbits.toNat

/-- The full word that carries the bits at positions `j·WORD_W` to `(j+1)·WORD_W - 1` of `s` (R141 line 11). -/
def fullWord (s : Bits) (j : Nat) : EncEntry P :=
  { data := pack ((s.drop (j * P.WORD_W)).take P.WORD_W), vbits := BitVec.ofNat P.VB_W P.WORD_W, last := false }

/-- The `k` full words at the front of `s`, in order (R141 line 11). -/
def fullWords (s : Bits) (k : Nat) : List (EncEntry P) := (List.range k).map (fullWord s)

/-- The end entry that carries the waiting bits `acc`, padded with zeros (R35, R142 line 4). -/
def endWord (acc : Bits) : EncEntry P :=
  { data := pack (acc ++ zeros (P.WORD_W - acc.length)), vbits := BitVec.ofNat P.VB_W acc.length, last := true }

/-! ### The tree (R25, R28, R161) -/

/-- The contents of an empty node slot (R122). -/
def TreeNode.emptySlot : TreeNode P := { kind := .empty, left := 0, right := 0, sym := 0 }

/-- The child a bit selects: 0 is left, 1 is right (R28, R161 line 9). -/
def TreeNode.child (n : TreeNode P) (bit : Bool) : Handle P := if bit then n.right else n.left

/-- The decoder queue entry of an emitted symbol (R40, R161 line 12). -/
def symEntry (sym : Symbol P) : DecEntry P := { sym := sym, last := false, trunc := false }

/-- The decoder queue's end entry (R40, R162 lines 5 and 8). -/
def endEntry (trunc : Bool) : DecEntry P := { sym := 0, last := true, trunc := trunc }

/-! ### Integer forms of what the block returns -/

/-- The popped encoder entry as the 13-bit response of port 3 (R102). -/
def EncEntry.toBits (e : EncEntry P) : BitVec (1 + P.VB_W + P.WORD_W) :=
  BitVec.ofBool e.last ++ e.vbits ++ e.data

/-- The popped decoder entry as the 10-bit response of port 5 (R104). -/
def DecEntry.toBits (e : DecEntry P) : BitVec (1 + 1 + P.SYM_W) :=
  BitVec.ofBool e.trunc ++ BitVec.ofBool e.last ++ e.sym

/-- The number of a response code (R107). -/
def RespCode.toBits : RespCode → BitVec 3
  | .ok => 0
  | .errUnknownSymbol => 1
  | .errTruncatedStream => 2
  | .errBadTree => 3
  | .errFaulted => 4
  | .errBusy => 5

end Sys2Proof.Machine
end

