-- ==== Sys2Proof/Machine/Ops.lean ====
section
/-! DEFINITION. The shared operations over the stores, the queues and the units that the meanings are built from:
one read and one write per store (R13), how an operation finishes (R11, R13), taking a fault as one operation (R224)
and the clears that leave the faulted state (R230), the start of a stream, the decoder's position (R38), hard reset (R260). -/

namespace Sys2Proof.Machine

open Sys2Proof

variable {P : Params}

/-! ### Entries by index

The two stores are indexed, one whole entry at a time (R60, R65). A store lists its entries with indices strictly
rising. After CFG_CLEAR an entry equal to the cleared value is not listed; before it, the written entries are exactly
the listed ones (DESIGN CHOICE notes/assumptions/3.md). -/

/-- The listed entry at an index. -/
def cellGet {α : Type} : List (Nat × α) → Nat → Option α
  | [], _ => none
  | (k, v) :: rest, i => if k = i then some v else cellGet rest i

/-- List the entry `v` at index `i`, in its place in the order. -/
def cellPut {α : Type} : List (Nat × α) → Nat → α → List (Nat × α)
  | [], i, v => [(i, v)]
  | (k, w) :: rest, i, v =>
    if i < k then (i, v) :: (k, w) :: rest
    else if i = k then (i, v) :: rest
    else (k, w) :: cellPut rest i v

/-- List no entry at index `i`. -/
def cellDrop {α : Type} : List (Nat × α) → Nat → List (Nat × α)
  | [], _ => []
  | (k, v) :: rest, i => if k = i then cellDrop rest i else (k, v) :: cellDrop rest i

/-- `ST[i] <- v` (R13): the whole entry is replaced. `empty` is the value CFG_CLEAR gives an entry of this store. -/
def storeWrite {α : Type} [DecidableEq α] (empty : α) (st : Store α) (i : Nat) (v : α) : Store α :=
  match st.base with
  | .cleared => { st with cells := if v = empty then cellDrop st.cells i else cellPut st.cells i v }
  | .unspecified _ => { st with cells := cellPut st.cells i v }

/-- What an unlisted entry of `CT` reads as: empty after CFG_CLEAR (R122), a free value before (R74). -/
def ctUnlisted (b : StoreBase) (i : Nat) : CodeEntry P :=
  match b with
  | .cleared => CodeEntry.absent
  | .unspecified draw => { len := Config.freeCodeLen P draw i, code := Config.freeCodeBits P draw i }

/-- What an unlisted entry of `TN` reads as: empty after CFG_CLEAR (R122), a free value before (R74). -/
def tnUnlisted (b : StoreBase) (i : Nat) : TreeNode P :=
  match b with
  | .cleared => TreeNode.emptySlot
  | .unspecified draw =>
    { kind := kindOfBits (Config.freeNodeKind P draw i), left := Config.freeNodeLeft P draw i,
      right := Config.freeNodeRight P draw i, sym := Config.freeNodeSym P draw i }

/-- `MemRead(CT, sym)` (R13). -/
def ctRead (m : Memory P) (sym : Symbol P) : CodeEntry P :=
  (cellGet m.ct.cells sym.toNat).getD (ctUnlisted m.ct.base sym.toNat)

/-- `MemRead(TN, h)` (R13). -/
def tnRead (m : Memory P) (h : Handle P) : TreeNode P :=
  (cellGet m.tn.cells h.toNat).getD (tnUnlisted m.tn.base h.toNat)

/-- `MemWrite(CT, sym, e)` (R13). -/
def ctWrite (m : Memory P) (sym : Symbol P) (e : CodeEntry P) : Memory P :=
  { m with ct := storeWrite CodeEntry.absent m.ct sym.toNat e }

/-- `MemWrite(TN, h, n)` (R13). -/
def tnWrite (m : Memory P) (h : Handle P) (n : TreeNode P) : Memory P :=
  { m with tn := storeWrite TreeNode.emptySlot m.tn h.toNat n }

/-- Every entry of both stores empty and `ROOT = 0` (R122). -/
def Memory.cleared : Memory P := { ct := ⟨.cleared, []⟩, tn := ⟨.cleared, []⟩, root := 0 }

/-- The canonical form of a store: indices strictly rising and below `bound`, and after CFG_CLEAR no listed entry
equal to what an unlisted one reads as. -/
def Store.wf {α : Type} [DecidableEq α] (empty : α) (bound : Nat) (st : Store α) : Bool :=
  decide ((st.cells.map Prod.fst).Pairwise (· < ·)) && st.cells.all (fun c => decide (c.1 < bound)) &&
    (match st.base with
     | .cleared => st.cells.all (fun c => decide (c.2 ≠ empty))
     | .unspecified _ => true)

/-- The canonical form of the configuration store. -/
def Memory.wf (m : Memory P) : Bool :=
  Store.wf CodeEntry.absent P.NSYM m.ct && Store.wf TreeNode.emptySlot P.NNODE m.tn

/-! ### Finishing an operation (R11, R13) -/

/-- Finish with the output `r`; nothing else changes. -/
def respond (r : Response P) (s : State P) : State P := { s with resp := r }

/-- `resp <- c` (R13): accepted, with a response code. -/
def respCode (c : RespCode) (s : State P) : State P := respond (.code c) s

/-- `NotReady` (R11, R13): no transfer, nothing written. -/
def notReady (s : State P) : State P := respond .notReady s

/-! ### Taking a fault and leaving it (R224, R230) -/

/-- The three faults of R221, each with the value it records. -/
inductive FaultCause (P : Params := Params.default) where
  /-- UnknownSymbol: the symbol put has no entry (R225). -/
  | unknownSymbol (sym : Symbol P)
  /-- TruncatedStream: the stream ends mid-path; the position registers already say where (R226). -/
  | truncatedStream
  /-- BadTree: the node at this handle cannot be used (R227). -/
  | badTree (h : Handle P)
  deriving DecidableEq, Repr

/-- `raise` (R13, R224): the unit's fault register takes the fault's value, the recorded value is written, the unit's
open flag is set, and the operation finishes with the fault's code. Nothing else changes, and the other unit not at all. -/
def raise (f : FaultCause P) (s : State P) : State P :=
  match f with
  | .unknownSymbol sym =>
    respCode .errUnknownSymbol { s with enc := { s.enc with fault := .unknown, errsym := sym, isOpen := true } }
  | .truncatedStream =>
    respCode .errTruncatedStream { s with dec := { s.dec with fault := .truncated, isOpen := true } }
  | .badTree h =>
    respCode .errBadTree { s with dec := { s.dec with fault := .badTree, cur := h, isOpen := true } }

/-- The writes of ENC_CLR (R182): with ALL_CLR and hard reset the only way to leave the encoder's faulted state (R230). -/
def clearEnc (s : State P) : State P :=
  { s with enc := { acc := [], q := [], isOpen := false, fault := .none, errsym := 0, bits := 0, syms := 0 } }

/-- The writes of DEC_CLR (R183): with ALL_CLR and hard reset the only way to leave the decoder's faulted state (R230). -/
def clearDec (s : State P) : State P :=
  { s with dec := { cur := 0, mid := false, q := [], isOpen := false, fault := .none, bits := 0, syms := 0 } }

/-! ### Streams and queues -/

/-- `if enc_open = 0: enc_bits <- 0; enc_syms <- 0` (R141 lines 4 and 9, R142 line 3). -/
def zeroEncCountersIfClosed (s : State P) : State P :=
  if s.enc.isOpen then s else { s with enc := { s.enc with bits := 0, syms := 0 } }

/-- `if dec_open = 0: dec_bits <- 0; dec_syms <- 0` (R161 line 3, R162 line 3). -/
def zeroDecCountersIfClosed (s : State P) : State P :=
  if s.dec.isOpen then s else { s with dec := { s.dec with bits := 0, syms := 0 } }

/-- `Push(enc_q, e)` for each entry in order (R13). -/
def pushEnc (es : List (EncEntry P)) (s : State P) : State P := { s with enc := { s.enc with q := s.enc.q ++ es } }

/-- `Push(dec_q, e)` (R13). -/
def pushDec (e : DecEntry P) (s : State P) : State P := { s with dec := { s.dec with q := s.dec.q ++ [e] } }

/-- The full words an ENC_PUT of an entry of length `len` completes (R141 line 7). -/
def wordsCompleted (s : State P) (len : Nat) : Nat := (s.enc.acc.length + len) / P.WORD_W

/-- The decoder's position (R38): `dec_cur` mid-path, else `ROOT`. -/
def decPosition (s : State P) : Handle P := if s.dec.mid then s.dec.cur else s.mem.root

/-! ### Steps that are no operation -/

/-- Hard reset (R260, R57): every register and queue takes its reset value, the stores' contents are a new free draw
(R262), no transfer is accepted. The host's coming events are the host's, and stay. -/
def hardReset (s : State P) : State P :=
  { s with
    mem := { ct := ⟨.unspecified (s.resets + 1), []⟩, tn := ⟨.unspecified (s.resets + 1), []⟩, root := 0 }
    enc := { acc := [], q := [], isOpen := false, fault := .none, errsym := 0, bits := 0, syms := 0 }
    dec := { cur := 0, mid := false, q := [], isOpen := false, fault := .none, bits := 0, syms := 0 }
    resets := s.resets + 1
    resp := .idle }

/-- A step with nothing offered: no port is valid, so no transfer happens (R19, R91). -/
def idleStep (s : State P) : State P := respond .idle s

end Sys2Proof.Machine
end

