-- ==== Sys2Proof/Machine/ConfigOps.lean ====
section
/-! DEFINITION. The meanings of the configuration operations of port 1 (R120 to R125): CFG_CLEAR, CFG_CODE, CFG_NODE,
CFG_ROOT. Each is refused with ERR_BUSY, changing nothing, while a unit that reads what it writes is open (R121). -/

namespace Sys2Proof.Machine

open Sys2Proof

variable {P : Params}

/-- CFG_CLEAR (R122): empty the whole configuration. -/
def execCfgClear (s : State P) : Host.Outcome (State P) Fault Refusal :=
  .next
    (if s.enc.isOpen || s.dec.isOpen then respCode .errBusy s
     else respCode .ok { s with mem := Memory.cleared })

/-- CFG_CODE (R123): write or, with `len = 0`, delete the code of one symbol. -/
def execCfgCode (sym : Symbol P) (len : CodeLen P) (code : CodeInt P) (s : State P) : Host.Outcome (State P) Fault Refusal :=
  .next
    (if s.enc.isOpen then respCode .errBusy s
     else respCode .ok { s with mem := ctWrite s.mem sym (storedCode len code) })

/-- CFG_NODE (R124): write one node slot, all four fields as given. -/
def execCfgNode (h : Handle P) (kind : NodeKind) (left right : Handle P) (sym : Symbol P) (s : State P) :
    Host.Outcome (State P) Fault Refusal :=
  .next
    (if s.dec.isOpen then respCode .errBusy s
     else respCode .ok { s with mem := tnWrite s.mem h { kind := kind, left := left, right := right, sym := sym } })

/-- CFG_ROOT (R125): set the root handle. -/
def execCfgRoot (h : Handle P) (s : State P) : Host.Outcome (State P) Fault Refusal :=
  .next
    (if s.dec.isOpen then respCode .errBusy s
     else respCode .ok { s with mem := { s.mem with root := h } })

end Sys2Proof.Machine
end

