-- ==== Sys2Proof/Machine/Decoder.lean ====
section
/-! DEFINITION. The meanings of the decoder operations of ports 4 and 5 (R160 to R163): DEC_BIT, DEC_END, DEC_POP. -/

namespace Sys2Proof.Machine

open Sys2Proof

variable {P : Params}

/-- DEC_BIT reaching a leaf (R161 lines 12 to 16): emit its symbol and return to the root. -/
def emitSymbol (sym : Symbol P) (s : State P) : State P :=
  let s1 := pushDec (symEntry sym) s
  respCode .ok
    { s1 with dec := { s1.dec with mid := false, bits := s1.dec.bits + 1, syms := s1.dec.syms + 1 } }

/-- DEC_BIT entering the internal node `c` (R161 lines 18 to 20). -/
def descend (c : Handle P) (s : State P) : State P :=
  respCode .ok { s with dec := { s.dec with cur := c, mid := true, bits := s.dec.bits + 1 } }

/-- The step down to child `c` of the position (R161 lines 10 to 23). -/
def enterChild (c : Handle P) (s : State P) : State P :=
  match (tnRead s.mem c).kind with
  | .leaf => emitSymbol (tnRead s.mem c).sym s
  | .internal => descend c s
  | .empty => raise (.badTree c) s
  | .placeholder => raise (.badTree c) s

/-- Line 3 of R161: the first operation of a stream zeroes the counters and opens the unit. -/
def openDec (s : State P) : State P :=
  let s1 := zeroDecCountersIfClosed s
  { s1 with dec := { s1.dec with isOpen := true } }

/-- DEC_BIT (R161): consume one bit and take one step down the tree. The tests come in the order of R160 and R228. -/
def execDecBit (bit : Bool) (s : State P) : Host.Outcome (State P) Fault Refusal :=
  .next
    (if s.dec.fault ≠ .none then respCode .errFaulted s
     else if s.dec.q.length = P.DQ_DEPTH then notReady s
     else if (tnRead s.mem (decPosition s)).kind ≠ .internal then raise (.badTree (decPosition s)) (openDec s)
     else enterChild ((tnRead s.mem (decPosition s)).child bit) (openDec s))

/-- DEC_END mid-path (R162 lines 3 to 7): the end entry carries `trunc = 1` and the fault is taken. -/
def truncateDecStream (s : State P) : State P :=
  raise .truncatedStream (pushDec (endEntry true) (zeroDecCountersIfClosed s))

/-- DEC_END at the root (R162 lines 3 and 8 to 10): the end entry is pushed and the unit closes. -/
def endDecStream (s : State P) : State P :=
  let s1 := pushDec (endEntry false) (zeroDecCountersIfClosed s)
  respCode .ok { s1 with dec := { s1.dec with isOpen := false } }

/-- DEC_END (R162): declare the bitstream exhausted. -/
def execDecEnd (s : State P) : Host.Outcome (State P) Fault Refusal :=
  .next
    (if s.dec.fault ≠ .none then respCode .errFaulted s
     else if s.dec.q.length = P.DQ_DEPTH then notReady s
     else if s.dec.mid then truncateDecStream s
     else endDecStream s)

/-- DEC_POP (R163): take the next decoded symbol or end entry; on an empty queue `NotReady`, never a value. -/
def execDecPop (s : State P) : Host.Outcome (State P) Fault Refusal :=
  .next
    (match s.dec.q with
     | [] => notReady s
     | e :: rest => respond (.symbol e) { s with dec := { s.dec with q := rest } })

end Sys2Proof.Machine
end

