-- ==== Sys2Proof/Machine/Encoder.lean ====
section
/-! DEFINITION. The meanings of the encoder operations of ports 2 and 3 (R140 to R143): ENC_PUT, ENC_END, ENC_POP. -/

namespace Sys2Proof.Machine

open Sys2Proof

variable {P : Params}

/-- The accepted ENC_PUT of a symbol whose entry is `e` (R141 lines 9 to 15): the code's bits join the accumulator, the
words they complete are pushed, the rest waits, and the counters count. -/
def appendCode (e : CodeEntry P) (s : State P) : State P :=
  let s1 := zeroEncCountersIfClosed s
  let bits := s.enc.acc ++ codebits e
  let k := wordsCompleted s e.len.toNat
  let s2 := pushEnc (fullWords bits k) s1
  respCode .ok
    { s2 with
      enc := { s2.enc with
        isOpen := true
        acc := bits.drop (k * P.WORD_W)
        bits := s1.enc.bits + BitVec.ofNat P.CNT_W e.len.toNat
        syms := s1.enc.syms + 1 } }

/-- ENC_PUT (R141): append the code of one symbol to the bitstream. The tests come in the order of R140 and R228. -/
def execEncPut (sym : Symbol P) (s : State P) : Host.Outcome (State P) Fault Refusal :=
  .next
    (if s.enc.fault ≠ .none then respCode .errFaulted s
     else if (ctRead s.mem sym).len = 0#P.LEN_W then raise (.unknownSymbol sym) (zeroEncCountersIfClosed s)
     else if P.EQ_DEPTH - s.enc.q.length < wordsCompleted s (ctRead s.mem sym).len.toNat then notReady s
     else appendCode (ctRead s.mem sym) s)

/-- The accepted ENC_END (R142 lines 3 to 7): the end entry is pushed, the accumulator is emptied, the unit closes. -/
def endEncStream (s : State P) : State P :=
  let s1 := pushEnc [endWord s.enc.acc] (zeroEncCountersIfClosed s)
  respCode .ok { s1 with enc := { s1.enc with acc := [], isOpen := false } }

/-- ENC_END (R142): end the stream, pushing the end entry with the partial word. -/
def execEncEnd (s : State P) : Host.Outcome (State P) Fault Refusal :=
  .next
    (if s.enc.fault ≠ .none then respCode .errFaulted s
     else if s.enc.q.length = P.EQ_DEPTH then notReady s
     else endEncStream s)

/-- ENC_POP (R143): take the next packed word; on an empty queue `NotReady`, never a value. -/
def execEncPop (s : State P) : Host.Outcome (State P) Fault Refusal :=
  .next
    (match s.enc.q with
     | [] => notReady s
     | e :: rest => respond (.word e) { s with enc := { s.enc with q := rest } })

end Sys2Proof.Machine
end

