-- ==== Sys2Proof/Machine/Status.lean ====
section
/-! DEFINITION. The sixteen read-only STATUS registers (R45 to R54): views computed from the state, no state of their
own (R20). -/

namespace Sys2Proof.Machine

open Sys2Proof

variable {P : Params}

/-- ID (R45): 'H', 'C', 'D' and the operation-set version 1. -/
def statusId : BitVec 32 := 0x48434401

/-- PARAMS (R46). -/
def statusParams (P : Params) : BitVec 32 :=
  BitVec.ofNat 8 P.LEN_W ++ BitVec.ofNat 8 P.NODE_W ++ BitVec.ofNat 8 P.WORD_W ++ BitVec.ofNat 8 P.SYM_W

/-- ENC_STATUS (R47). -/
def encStatus (u : EncUnit P) : BitVec 32 :=
  0#8 ++ u.errsym.setWidth 8 ++ BitVec.ofNat 8 u.acc.length ++ 0#3 ++ BitVec.ofBool u.qFull ++
    BitVec.ofBool u.qEmpty ++ u.fault.toBits ++ BitVec.ofBool u.isOpen

/-- DEC_STATUS (R50). -/
def decStatus (u : DecUnit P) : BitVec 32 :=
  (u.cur ++ 0#2 ++ BitVec.ofBool u.mid ++ BitVec.ofBool u.qFull ++ BitVec.ofBool u.qEmpty ++ u.fault.toBits ++
    BitVec.ofBool u.isOpen).setWidth 32

/-- The LO register of a counter: bits 31:0 (R49, R52, R64). -/
def countLo (c : Count P) : BitVec 32 := (c.setWidth 64).extractLsb' 0 32

/-- The HI register of a counter: bits 63:32, 0 for a 32-bit counter (R49, R52, R64). -/
def countHi (c : Count P) : BitVec 32 := (c.setWidth 64).extractLsb' 32 32

/-- `MemRead(STATUS, idx)` (R45 to R54, R185). Index 15, the one left, is reserved and reads 0 (R54). -/
def statusRead (idx : BitVec 4) (s : State P) : BitVec 32 :=
  match idx.toNat with
  | 0 => statusId
  | 1 => statusParams P
  | 2 => encStatus s.enc
  | 3 => BitVec.ofNat 32 s.enc.q.length
  | 4 => countLo s.enc.bits
  | 5 => countHi s.enc.bits
  | 6 => countLo s.enc.syms
  | 7 => countHi s.enc.syms
  | 8 => decStatus s.dec
  | 9 => BitVec.ofNat 32 s.dec.q.length
  | 10 => countLo s.dec.bits
  | 11 => countHi s.dec.bits
  | 12 => countLo s.dec.syms
  | 13 => countHi s.dec.syms
  | 14 => s.mem.root.setWidth 32
  | _ => 0

end Sys2Proof.Machine
end

