-- ==== Sys2Proof/Machine/System.lean ====
section
/-! DEFINITION. The meanings of the system operations of ports 0 and 6 (R180 to R185): CTRL_NOP, ENC_CLR, DEC_CLR,
ALL_CLR, STAT_RD. -/

namespace Sys2Proof.Machine

open Sys2Proof

variable {P : Params}

/-- CTRL_NOP (R181): do nothing. -/
def execCtrlNop (s : State P) : Host.Outcome (State P) Fault Refusal :=
  .next (respCode .ok s)

/-- ENC_CLR (R182): abandon the encoder's stream and clear the encoder unit. -/
def execEncClr (s : State P) : Host.Outcome (State P) Fault Refusal :=
  .next (respCode .ok (clearEnc s))

/-- DEC_CLR (R183): abandon the decoder's stream and clear the decoder unit. -/
def execDecClr (s : State P) : Host.Outcome (State P) Fault Refusal :=
  .next (respCode .ok (clearDec s))

/-- ALL_CLR (R184): the writes of ENC_CLR, then those of DEC_CLR. -/
def execAllClr (s : State P) : Host.Outcome (State P) Fault Refusal :=
  .next (respCode .ok (clearDec (clearEnc s)))

/-- STAT_RD (R185): read one status register; no state changes. -/
def execStatRd (idx : BitVec 4) (s : State P) : Host.Outcome (State P) Fault Refusal :=
  .next (respond (.value (statusRead idx s)) s)

end Sys2Proof.Machine
end

