-- ==== Sys2Proof/Machine/Dispatch.lean ====
section
/-! DEFINITION. One arm per operation: which meaning it has. -/

namespace Sys2Proof.Machine

open Sys2Proof

def exec (i : Instr) (s : State) : Host.Outcome State Fault Refusal :=
  match i with
  | .ctrlNop => Sys2Proof.Machine.execCtrlNop s
  | .encClr => Sys2Proof.Machine.execEncClr s
  | .decClr => Sys2Proof.Machine.execDecClr s
  | .allClr => Sys2Proof.Machine.execAllClr s
  | .cfgClear => Sys2Proof.Machine.execCfgClear s
  | .cfgCode sym len code => Sys2Proof.Machine.execCfgCode sym len code s
  | .cfgNode h kind left right sym => Sys2Proof.Machine.execCfgNode h kind left right sym s
  | .cfgRoot h => Sys2Proof.Machine.execCfgRoot h s
  | .encPut sym => Sys2Proof.Machine.execEncPut sym s
  | .encEnd => Sys2Proof.Machine.execEncEnd s
  | .encPop => Sys2Proof.Machine.execEncPop s
  | .decBit bit => Sys2Proof.Machine.execDecBit bit s
  | .decEnd => Sys2Proof.Machine.execDecEnd s
  | .decPop => Sys2Proof.Machine.execDecPop s
  | .statRd idx => Sys2Proof.Machine.execStatRd idx s

end Sys2Proof.Machine
end

