-- ==== Sys2Proof/Machine/Block.lean ====
section
/-! DEFINITION. One operation of the block at any parameters (R7): which meaning it has, and the state it leaves. `exec` of
Machine/Dispatch.lean is this at the defaults. -/

namespace Sys2Proof.Machine

open Sys2Proof

variable {P : Params}

/-- Perform one operation (R10): one arm per operation. -/
def perform (i : Instr P) (s : State P) : Host.Outcome (State P) Fault Refusal :=
  match i with
  | .ctrlNop => execCtrlNop s
  | .encClr => execEncClr s
  | .decClr => execDecClr s
  | .allClr => execAllClr s
  | .cfgClear => execCfgClear s
  | .cfgCode sym len code => execCfgCode sym len code s
  | .cfgNode h kind left right sym => execCfgNode h kind left right sym s
  | .cfgRoot h => execCfgRoot h s
  | .encPut sym => execEncPut sym s
  | .encEnd => execEncEnd s
  | .encPop => execEncPop s
  | .decBit bit => execDecBit bit s
  | .decEnd => execDecEnd s
  | .decPop => execDecPop s
  | .statRd idx => execStatRd idx s

/-- The state an operation leaves: every operation answers a next state. -/
def applyOp (i : Instr P) (s : State P) : State P :=
  match perform i s with
  | .next t => t
  | .fault _ => s
  | .refused _ => s

end Sys2Proof.Machine
end

