-- ==== Sys2Proof/Machine/Ports.lean ====
section
/-! DEFINITION. The port level (R70, R90 to R93): when an operation is ready, what the block drives on its ports at one
rising clock edge, and which of the transfers the host drives are accepted at it. An edge changes no state of the block by
itself: it puts the transfers it accepts, as single offers in the order of R70, before everything else the host does, and
each of them is then a step of its own (R10). -/

namespace Sys2Proof.Machine

open Sys2Proof

variable {P : Params}

/-! ### Readiness (R11, R91)

`NotReady` arises only from a full or an empty queue. -/

/-- The operation would be accepted in this state: it is not `NotReady` (R141 to R143, R161 to R163, R120, R180). -/
def ready (i : Instr P) (s : State P) : Bool :=
  match i with
  | .ctrlNop => true
  | .encClr => true
  | .decClr => true
  | .allClr => true
  | .cfgClear => true
  | .cfgCode _ _ _ => true
  | .cfgNode _ _ _ _ _ => true
  | .cfgRoot _ => true
  | .encPut sym =>
    s.enc.fault != .none || (ctRead s.mem sym).len == 0#P.LEN_W ||
      decide (wordsCompleted s (ctRead s.mem sym).len.toNat ≤ P.EQ_DEPTH - s.enc.q.length)
  | .encEnd => s.enc.fault != .none || !s.enc.qFull
  | .encPop => !s.enc.qEmpty
  | .decBit _ => s.dec.fault != .none || !s.dec.qFull
  | .decEnd => s.dec.fault != .none || !s.dec.qFull
  | .decPop => !s.dec.qEmpty
  | .statRd _ => true

/-! ### The transfers the host drives -/

/-- The port of a transaction word (R94). -/
def chanOf (t : TWord P) : BitVec 3 := t.extractLsb' 0 3

/-- The transfers the host drives at an edge, as transaction words: CTRL and CFG, then the five ports that may share an edge
in the order of R70: STATUS, WORD_OUT, SYM_OUT, SYM_IN, BIT_IN. -/
def drivenTransfers (sig : PortSignals P) : List (TWord P) :=
  (sig.ctrl.map fun d => wordOf d 0).toList ++ (sig.cfg.map fun d => wordOf d 1).toList ++
    (sig.stat.map fun d => wordOf d 6).toList ++ (if sig.wordOut then [wordOf 0#0 3] else []) ++
    (if sig.symOut then [wordOf 0#0 5] else []) ++ (sig.symIn.map fun d => wordOf d 2).toList ++
    (sig.bitIn.map fun d => wordOf d 4).toList

/-! ### What the block drives at one clock edge (R70, R91, R93) -/

/-- The port whose transfer is accepted alone at this edge, if there is one: a CTRL or a CFG transfer (R70), which is ready
in every state (R120, R180). Where both are driven and not held the model takes CTRL, and `hold` gives every other choice
(DESIGN CHOICE notes/assumptions/7.md). -/
def solePort (sig : PortSignals P) (hold : BitVec 7) : Option (BitVec 3) :=
  if sig.ctrl.isSome && !hold.getLsbD 0 then some 0
  else if sig.cfg.isSome && !hold.getLsbD 1 then some 1
  else none

/-- The block may raise its side of the handshake on this port: it does not hold the port (R91, R291), and no other port's
CTRL or CFG transfer is accepted (R70). -/
def portOpen (sig : PortSignals P) (hold : BitVec 7) (chan : BitVec 3) : Bool :=
  !hold.getLsbD chan.toNat &&
    (match solePort sig hold with
     | some sole => sole == chan
     | none => true)

/-- What the block answers to the transfer `t`, readiness and answer taken from the state at the start of the edge (R70,
R91); `none` while the block keeps its side of the handshake at 0. -/
def answerAtEdge (sig : PortSignals P) (hold : BitVec 7) (s : State P) (t : TWord P) : Option (Response P) :=
  match decode t with
  | .ok i => if portOpen sig hold (chanOf t) && ready i s then some (applyOp i s).resp else none
  | .error _ => none

/-- The three bits of `resp` (R91, R107): an answer with a response code. -/
def Response.respBits : Response P → Option (BitVec 3)
  | .idle => none
  | .notReady => none
  | .code c => some c.toBits
  | .word _ => none
  | .symbol _ => none
  | .value _ => none
  | .edge _ _ => none

/-- `stat_rdata` (R91): an answer with a register value. -/
def Response.rdata : Response P → Option (BitVec 32)
  | .idle => none
  | .notReady => none
  | .code _ => none
  | .word _ => none
  | .symbol _ => none
  | .value v => some v
  | .edge _ _ => none

/-- What port 3 has to offer (R91, R102): the entry at the head of `enc_q`, `none` on an empty queue. Whether the port
offers it at an edge, `portOutputs` says. -/
def wordOutData (s : State P) : Option (BitVec (1 + P.VB_W + P.WORD_W)) := s.enc.q.head?.map EncEntry.toBits

/-- What port 5 has to offer (R91, R104): the entry at the head of `dec_q`, `none` on an empty queue. -/
def symOutData (s : State P) : Option (BitVec (1 + 1 + P.SYM_W)) := s.dec.q.head?.map DecEntry.toBits

/-- What the block drives on its seven ports (R91, R93). On a port where the host drives no request the block's `ready` is
shown as 0 (DESIGN CHOICE notes/assumptions/7.md). -/
def portOutputs (sig : PortSignals P) (hold : BitVec 7) (s : State P) : PortOutputs P :=
  { ctrl := (sig.ctrl.bind fun d => answerAtEdge sig hold s (wordOf d 0)).bind Response.respBits
    cfg := (sig.cfg.bind fun d => answerAtEdge sig hold s (wordOf d 1)).bind Response.respBits
    symIn := (sig.symIn.bind fun d => answerAtEdge sig hold s (wordOf d 2)).bind Response.respBits
    wordOut := if portOpen sig hold 3 then wordOutData s else none
    bitIn := (sig.bitIn.bind fun d => answerAtEdge sig hold s (wordOf d 4)).bind Response.respBits
    symOut := if portOpen sig hold 5 then symOutData s else none
    stat := (sig.stat.bind fun d => answerAtEdge sig hold s (wordOf d 6)).bind Response.rdata }

/-! ### What is accepted at one clock edge (R70, R91) -/

/-- The transfers accepted at an edge: those the host drives and the block answers. -/
def acceptedAtEdge (sig : PortSignals P) (hold : BitVec 7) (s : State P) : List (TWord P) :=
  (drivenTransfers sig).filter fun t => (answerAtEdge sig hold s t).isSome

/-- The ports of a list of transfers, as a mask: bit `p` is 1 when port `p` is among them. -/
def portMask (ts : List (TWord P)) : BitVec 7 :=
  ts.foldl (fun m t => m ||| BitVec.ofNat 7 (2 ^ (chanOf t).toNat)) 0

/-- A rising clock edge with `rst = 0` (R70, R91): the accepted transfers come next, in order. -/
def clockEdge (sig : PortSignals P) (hold : BitVec 7) (s : State P) : State P :=
  { s with
    events := (acceptedAtEdge sig hold s).map HostEvent.offer ++ s.events
    resp := .edge (portMask (acceptedAtEdge sig hold s)) (portOutputs sig hold s) }

end Sys2Proof.Machine
end

