-- ==== Sys2Proof/Machine/Events.lean ====
section
/-! DEFINITION. What the machine does with the next thing the host does (R10, R19), at any parameters. -/

namespace Sys2Proof.Machine

open Sys2Proof

variable {P : Params}

/-- One step, operations performed by `run`. An offered transaction word is decoded and its operation performed in the state
that has the offer behind it; a word with `chan = 7` is refused (R95). A hard reset and a clock edge with several ports
driven are steps of their own. With nothing offered nothing happens. -/
def stepWith (run : Instr P → State P → Host.Outcome (State P) Fault Refusal) (s : State P) :
    Host.Outcome (State P) Fault Refusal :=
  match s.events with
  | [] => .next (idleStep s)
  | .offer t :: rest =>
    match decode t with
    | .ok i => run i { s with events := rest }
    | .error .invalidChan => .refused .invalidChan
  | .hardReset :: rest => .next (hardReset { s with events := rest })
  | .edge sig hold :: rest => .next (clockEdge sig hold { s with events := rest })

/-- One step of the block at the parameters `P`. -/
def stepOf (s : State P) : Host.Outcome (State P) Fault Refusal := stepWith perform s

end Sys2Proof.Machine
end

