-- ==== Sys2Proof/Machine/Step.lean ====
section
/-! DEFINITION. One step of the machine at the default parameters: the next thing the host does (R10, R19). -/

namespace Sys2Proof.Machine

open Sys2Proof

/-- One step: what the next host event asks for, operations executed by `exec`. -/
def step (s : State) : Host.Outcome State Fault Refusal := stepWith exec s

/-- The state in which the host offers, next, the operation whose transaction word is `w` (R94). The block fetches
nothing: this stands for the host's offer (DESIGN CHOICE notes/assumptions/6.md). -/
def State.withFetchWord (s : State) (_nbits w : Nat) : State :=
  { s with events := .offer (BitVec.ofNat T_W w) :: s.events }

end Sys2Proof.Machine
end

