-- ==== Sys2Proof/Machine/Clock.lean ====
section
/-! DEFINITION. Runs over clock cycles and the block's one promise about time (R291; 93_implementation_defined.md V2): the block
may keep a port waiting at any edge (the mask `hold`), so a port's delay is nondeterministic stuttering, and FAIRNESS says which
infinite runs are those of the block. No state depends on the delay and no step reads these definitions. -/

namespace Sys2Proof.Machine

open Sys2Proof

variable {P : Params}

/-- The block at the parameters `P` as one machine (R7). -/
def blockOf (P : Params) : Host.Core :=
  { State := State P, Fault := Fault, Refusal := Refusal, step := stepOf, reset := State.resetOf P }

/-- One clock cycle with `rst = 0`: the edge, and then each operation accepted at it, all of them steps of the machine. -/
def ClockCycle (sig : PortSignals P) (hold : BitVec 7) (s t : State P) : Prop :=
  Host.Core.run (blockOf P) ((acceptedAtEdge sig hold s).length + 1) { s with events := [.edge sig hold] } = .next t

/-- An infinite run of the block with no hard reset: what the host drives at each edge, which ports the block keeps waiting at
it, and the states, each of them one clock cycle after the one before. -/
structure ClockRun (P : Params := Params.default) where
  /-- What the host drives at edge `n`. -/
  sig : Nat → PortSignals P
  /-- The ports the block keeps waiting at edge `n` for reasons of its own (R91). -/
  hold : Nat → BitVec 7
  /-- The state before edge `n`. -/
  state : Nat → State P
  cycle : ∀ n, ClockCycle (sig n) (hold n) (state n) (state (n + 1))

/-- The host drives the transfer `w` at edge `n`. -/
def ClockRun.Drives (r : ClockRun P) (w : TWord P) (n : Nat) : Prop := w ∈ drivenTransfers (r.sig n)

/-- The transfer `w` is accepted at edge `n`: both sides of its handshake are 1 (R91). -/
def ClockRun.Accepts (r : ClockRun P) (w : TWord P) (n : Nat) : Prop :=
  w ∈ acceptedAtEdge (r.sig n) (r.hold n) (r.state n)

/-- The operation of `w` is not `NotReady` by its own rule before edge `n` (R11). -/
def ClockRun.IsReady (r : ClockRun P) (w : TWord P) (n : Nat) : Prop :=
  ∃ i, decode w = .ok i ∧ ready i (r.state n) = true

/-- From edge `n` on the host holds its request `w` until it is accepted. -/
def ClockRun.HoldsRequest (r : ClockRun P) (w : TWord P) (n : Nat) : Prop :=
  ∀ m, n ≤ m → (∀ k, n ≤ k → k < m → ¬ r.Accepts w k) → r.Drives w m

/-- What the block drives at edge `n`. -/
def ClockRun.outputs (r : ClockRun P) (n : Nat) : PortOutputs P := portOutputs (r.sig n) (r.hold n) (r.state n)

/-- FAIRNESS, the block's promise (R291): a port whose operation is not `NotReady`, and on which the host holds its request, is
eventually ready, so that the transfer is accepted; and while a queue is not empty its head is eventually offered. Read as weak
fairness (DESIGN CHOICE notes/assumptions/13.md). -/
def ClockRun.Fair (r : ClockRun P) : Prop :=
  (∀ w n, (∀ m, n ≤ m → r.Drives w m ∧ r.IsReady w m) → ∃ m, n ≤ m ∧ r.Accepts w m) ∧
  (∀ n, (∀ m, n ≤ m → (r.state m).enc.q ≠ []) → ∃ m, n ≤ m ∧ (r.outputs m).wordOut ≠ none) ∧
  (∀ n, (∀ m, n ≤ m → (r.state m).dec.q ≠ []) → ∃ m, n ≤ m ∧ (r.outputs m).symOut ≠ none)

/-- Weak fairness of the host's pops (R291): a queue that stays non-empty is eventually popped. -/
def ClockRun.PopsFair (r : ClockRun P) : Prop :=
  (∀ n, (∀ m, n ≤ m → (r.state m).enc.q ≠ []) → ∃ m, n ≤ m ∧ r.Accepts (wordOf 0#0 3) m) ∧
  (∀ n, (∀ m, n ≤ m → (r.state m).dec.q ≠ []) → ∃ m, n ≤ m ∧ r.Accepts (wordOf 0#0 5) m)

end Sys2Proof.Machine
end

