-- ==== Sys2Proof/Machine/Pseudo.lean ====
section
/-! DEFINITION. The pseudo-operations of R111 as the operation sequences they stand for, and the trace syntax of R110. -/

namespace Sys2Proof.Machine

open Sys2Proof

variable {P : Params}

/-! ### Pseudo-operations (R111) -/

/-- `CFG_CODE sym=s code=c` with the code written as its bit sequence (R110): `len` is its length, `code` the integer
its bits spell, first bit most significant. -/
def cfgCodeOf (sym : Symbol P) (c : Bits) : Instr P :=
  .cfgCode sym (BitVec.ofNat P.LEN_W c.length) (BitVec.ofNat P.MAXLEN (bitsToNat c))

/-- `CFG_NODE` of one node. -/
def cfgNodeOf (h : Handle P) (n : TreeNode P) : Instr P := .cfgNode h n.kind n.left n.right n.sym

/-- `LOAD codes, nodes, root`: CFG_CLEAR, the codes in ascending order of symbol, the nodes in ascending order of handle,
the root. -/
def loadOps (codes : List ((Symbol P) × Bits)) (nodes : List ((Handle P) × (TreeNode P))) (root : Handle P) : List (Instr P) :=
  [.cfgClear] ++
    ((List.range P.NSYM).filterMap fun v => (codes.lookup (BitVec.ofNat P.SYM_W v)).map (cfgCodeOf (BitVec.ofNat P.SYM_W v))) ++
    ((List.range P.NNODE).filterMap fun v =>
      (nodes.lookup (BitVec.ofNat P.NODE_W v)).map (cfgNodeOf (BitVec.ofNat P.NODE_W v))) ++
    [.cfgRoot root]

/-- `ENCODE "text"`. -/
def encodeOps (text : List (Symbol P)) : List (Instr P) := text.map .encPut ++ [.encEnd]

/-- `DECODE bits`. -/
def decodeOps (bits : Bits) : List (Instr P) := bits.map .decBit ++ [.decEnd]

/-- `DRAIN_ENC` over a queue that holds `q`: pops up to and with the first entry that has `last = 1`. -/
def drainEncOps : List (EncEntry P) → List (Instr P)
  | [] => []
  | e :: rest => .encPop :: (if e.last then [] else drainEncOps rest)

/-- `DRAIN_DEC` over a queue that holds `q`: pops up to and with the first entry that has `last = 1`. -/
def drainDecOps : List (DecEntry P) → List (Instr P)
  | [] => []
  | e :: rest => .decPop :: (if e.last then [] else drainDecOps rest)

/-- The host offers a list of operations, one after another, before anything else it does. -/
def State.offering (s : State P) (ops : List (Instr P)) : State P :=
  { s with events := ops.map (fun i => .offer (encode i)) ++ s.events }

/-! ### Trace syntax (R110) -/

/-- A bit sequence as it is written in a trace, first bit first. -/
def showBits (s : Bits) : String := String.ofList (s.map fun b => if b then '1' else '0')

/-- A node kind as it is written in a trace. -/
def showKind : NodeKind → String
  | .empty => "EMPTY"
  | .internal => "INTERNAL"
  | .leaf => "LEAF"
  | .placeholder => "PLACEHOLDER"

/-- A field `name=value` with the value in decimal. -/
def showField (name : String) (v : Nat) : String := " " ++ name ++ "=" ++ toString v

/-- `MNEMONIC field=value ...` (R110), field names of R106. A code is its bit sequence; one with bits at or above `len` is
its integer in binary. -/
def showInstr (i : Instr P) : String :=
  i.mnemonic ++
    (match i with
     | .ctrlNop => ""
     | .encClr => ""
     | .decClr => ""
     | .allClr => ""
     | .cfgClear => ""
     | .cfgCode sym len code =>
       showField "sym" sym.toNat ++ showField "len" len.toNat ++
         (if codeFits len code ∧ len ≠ 0#P.LEN_W then " code=" ++ showBits (codebits ⟨len, code⟩)
          else " code=0b" ++ String.ofList (Nat.toDigits 2 code.toNat))
     | .cfgNode h kind left right sym =>
       showField "h" h.toNat ++ " kind=" ++ showKind kind ++ showField "left" left.toNat ++
         showField "right" right.toNat ++ showField "sym" sym.toNat
     | .cfgRoot h => showField "h" h.toNat
     | .encPut sym => showField "sym" sym.toNat
     | .encEnd => ""
     | .encPop => ""
     | .decBit bit => showField "bit" bit.toNat
     | .decEnd => ""
     | .decPop => ""
     | .statRd idx => showField "idx" idx.toNat)

/-- A response-code name (R107). -/
def showRespCode : RespCode → String
  | .ok => "OK"
  | .errUnknownSymbol => "ERR_UNKNOWN_SYMBOL"
  | .errTruncatedStream => "ERR_TRUNCATED_STREAM"
  | .errBadTree => "ERR_BAD_TREE"
  | .errFaulted => "ERR_FAULTED"
  | .errBusy => "ERR_BUSY"

/-- A response as it is written in a trace (R110). The two outputs that no operation gives are written empty. -/
def showResponse : Response P → String
  | .idle => ""
  | .notReady => "NotReady"
  | .code c => showRespCode c
  | .word e =>
    "data=" ++ toString e.data.toNat ++ showField "vbits" e.vbits.toNat ++ showField "last" e.last.toNat
  | .symbol e =>
    "sym=" ++ toString e.sym.toNat ++ showField "last" e.last.toNat ++ showField "trunc" e.trunc.toNat
  | .value v => toString v.toNat
  | .edge _ _ => ""

/-- One line of a trace: the operation and what it was answered (R110). -/
def traceLine (i : Instr P) (r : Response P) : String := showInstr i ++ " -> " ++ showResponse r

end Sys2Proof.Machine
end

