-- ==== Sys2Proof/Machine/HostProcedure.lean ====
section
/-! DEFINITION. The host's boot procedure (R264, R268 to R275): how a host builds the code tree and the code table of a
text and the operations it loads them with. Host software, not behaviour of the block (R5 (f)): nothing in the machine calls
it. -/

namespace Sys2Proof.Machine

open Sys2Proof

variable {P : Params}

/-- The two failures of the host procedure (R222, R268). The block has no code for either. -/
inductive HostError where
  | emptyInput
  | emptyAlphabet
  deriving DecidableEq, Repr

/-- The tree under construction; `seq` is the sequence number of R269. -/
inductive CodeTree (P : Params := Params.default) where
  | leaf (sym : Symbol P) (seq : Nat)
  | placeholder (seq : Nat)
  | node (seq : Nat) (left right : CodeTree P)
  deriving DecidableEq, Repr

/-- A node of the minimum-priority collection (R269), with its weight. -/
structure HeapNode (P : Params := Params.default) where
  weight : Nat
  seq : Nat
  tree : CodeTree P
  deriving DecidableEq, Repr

/-- R268: each distinct symbol with its count, in ascending order of symbol; an empty text is `EmptyInputError`. -/
def buildFrequencies (text : List (Symbol P)) : Except HostError (List ((Symbol P) × Nat)) :=
  if text = [] then .error .emptyInput
  else
    .ok ((List.range P.NSYM).filterMap fun v =>
      if text.count (BitVec.ofNat P.SYM_W v) = 0 then none
      else some (BitVec.ofNat P.SYM_W v, text.count (BitVec.ofNat P.SYM_W v)))

/-- R269: the leaves, numbered from `seq` in the order given. -/
def leavesFrom (seq : Nat) : List ((Symbol P) × Nat) → List (HeapNode P)
  | [] => []
  | (sym, count) :: rest => ⟨count, seq, .leaf sym seq⟩ :: leavesFrom (seq + 1) rest

/-- R271: the key `(weight, seq)` of `a` is smaller than that of `b`. -/
def HeapNode.before (a b : HeapNode P) : Bool :=
  decide (a.weight < b.weight) || (a.weight == b.weight && decide (a.seq < b.seq))

/-- Extract the node of smallest key (R270, R271). -/
def extractMin : List (HeapNode P) → Option ((HeapNode P) × List (HeapNode P))
  | [] => none
  | x :: xs =>
    match extractMin xs with
    | none => some (x, [])
    | some (m, rest) => if x.before m then some (x, xs) else some (m, x :: rest)

/-- R270 and R272: merge the two smallest, first extracted left, until one node remains; `next` numbers the internal
nodes. `fuel` is at least the number of merges. -/
def mergeLoop : Nat → Nat → List (HeapNode P) → Option (CodeTree P)
  | 0, _, _ => none
  | fuel + 1, next, heap =>
    match extractMin heap with
    | none => none
    | some (a, rest) =>
      match extractMin rest with
      | none => some a.tree
      | some (b, rest') => mergeLoop fuel (next + 1) (⟨a.weight + b.weight, next, .node next a.tree b.tree⟩ :: rest')

/-- R268 to R273: the tree of a frequency table; one symbol gives the synthetic root with a placeholder. -/
def buildTree (freq : List ((Symbol P) × Nat)) : Except HostError (CodeTree P) :=
  match freq with
  | [] => .error .emptyAlphabet
  | [(sym, _)] => .ok (.node 2 (.leaf sym 0) (.placeholder 1))
  | _ =>
    match mergeLoop freq.length freq.length (leavesFrom 0 freq) with
    | some t => .ok t
    | none => .error .emptyAlphabet

/-- R274: each leaf's symbol with the bits of its path, 0 descending left and 1 descending right. -/
def codesOf : CodeTree P → Bits → List ((Symbol P) × Bits)
  | .leaf sym _, path => [(sym, path)]
  | .placeholder _, _ => []
  | .node _ l r, path => codesOf l (path ++ [false]) ++ codesOf r (path ++ [true])

/-- The handle of a tree's top node (R275: `handle = seq`). -/
def CodeTree.handle : CodeTree P → Handle P
  | .leaf _ seq => BitVec.ofNat P.NODE_W seq
  | .placeholder seq => BitVec.ofNat P.NODE_W seq
  | .node seq _ _ => BitVec.ofNat P.NODE_W seq

/-- The node slots of a tree (R273, R275). -/
def nodesOf : CodeTree P → List ((Handle P) × (TreeNode P))
  | .leaf sym seq => [(BitVec.ofNat P.NODE_W seq, ⟨.leaf, 0, 0, sym⟩)]
  | .placeholder seq => [(BitVec.ofNat P.NODE_W seq, ⟨.placeholder, 0, 0, 0⟩)]
  | .node seq l r =>
    (BitVec.ofNat P.NODE_W seq, ⟨.internal, l.handle, r.handle, 0⟩) :: (nodesOf l ++ nodesOf r)

/-- R264 with R268 to R275: the operations that load the configuration of a text. -/
def bootOps (text : List (Symbol P)) : Except HostError (List (Instr P)) :=
  match buildFrequencies text with
  | .error e => .error e
  | .ok freq =>
    match buildTree freq with
    | .error e => .error e
    | .ok tree => .ok (loadOps (codesOf tree []) (nodesOf tree) tree.handle)

end Sys2Proof.Machine
end

