-- ==== Sys2Proof/Safety.lean ====
section
/-! DEFINITION. The terms claims are stated in: the invariants of the two units and of the stores (R24, R35, R37, R40,
R42), paths and well-formed trees (R28 to R31), and runs of a whole stream (R144, R164, R200). -/

namespace Sys2Proof.Machine

open Sys2Proof

variable {P : Params}

/-! ### Invariants -/

/-- The form of an encoder FIFO entry (R35): a full word, or an end entry with fewer than `WORD_W` valid bits and zeros
below them. -/
def EncEntry.formed (e : EncEntry P) : Prop :=
  (e.last = false → e.vbits.toNat = P.WORD_W) ∧
  (e.last = true → e.vbits.toNat < P.WORD_W ∧ e.data.toNat % 2 ^ (P.WORD_W - e.vbits.toNat) = 0)

/-- The form of a decoder queue entry (R40): `trunc` only in an end entry, and an end entry's symbol is 0. -/
def DecEntry.formed (e : DecEntry P) : Prop :=
  (e.last = false → e.trunc = false) ∧ (e.last = true → e.sym = 0)

/-- The encoder invariants (R37 (a) to (f), R35). Where `WORD_W` divides `2^CNT_W`, as at the defaults, (f) needs no proviso
about a wrapped counter; at other parameters it is stated of none, since no register records that one has wrapped. -/
def EncUnit.Inv (u : EncUnit P) : Prop :=
  u.acc.length < P.WORD_W ∧
  u.q.length ≤ P.EQ_DEPTH ∧
  (u.isOpen = false → u.acc = [] ∧ u.fault = .none) ∧
  (u.fault = .unknown → u.isOpen = true) ∧
  (u.fault = .none → u.errsym = 0) ∧
  (u.isOpen = true → u.fault = .none → P.WORD_W ∣ 2 ^ P.CNT_W → u.bits.toNat % P.WORD_W = u.acc.length) ∧
  (∀ e ∈ u.q, e.formed)

/-- The decoder invariants that concern the unit alone (R42 (a) to (d), R40). -/
def DecUnit.Inv (u : DecUnit P) : Prop :=
  u.q.length ≤ P.DQ_DEPTH ∧
  (u.isOpen = false → u.mid = false ∧ u.fault = .none) ∧
  (u.fault ≠ .none → u.isOpen = true) ∧
  (u.fault = .truncated → u.mid = true) ∧
  (∀ e ∈ u.q, e.formed)

/-- R42 (e), as written. -/
def PositionInternal (s : State P) : Prop := s.dec.mid = true → (tnRead s.mem s.dec.cur).kind = .internal

/-- Where the walk stands (R38, R42 (e)). (e) holds while no BadTree is recorded. With BadTree recorded `dec_cur` names the
offending node, which is not INTERNAL (R161 lines 6 to 8 and 21 to 23, R227): the root, or the EMPTY or PLACEHOLDER child of the
internal node the walk had reached, and that is the root unless `dec_mid = 1`, which BadTree leaves as it was. So mid-path the
node the walk had reached is INTERNAL in every case; (e) as written, a rule derived from R161, names `dec_cur` where BadTree has
overwritten it (notes/assumptions/8.md). -/
def WalkInv (s : State P) : Prop :=
  (s.dec.fault ≠ .badTree → PositionInternal s) ∧
  (s.dec.fault = .badTree → (tnRead s.mem s.dec.cur).kind ≠ .internal ∧
    ((s.dec.mid = false ∧ s.dec.cur = s.mem.root) ∨
      ((tnRead s.mem s.dec.cur).kind ≠ .leaf ∧
        ∃ h b, (tnRead s.mem h).kind = .internal ∧ (tnRead s.mem h).child b = s.dec.cur ∧
          (s.dec.mid = false → h = s.mem.root))))

/-- Every listed entry of `CT` is canonical (R24): what CFG_CODE and CFG_CLEAR store is. -/
def Memory.ctCanonical (m : Memory P) : Prop := ∀ c ∈ m.ct.cells, c.2.canonical = true

/-- The invariant of the machine: the stores' canonical form, R24, R35, R37, R40 and R42. -/
def StateInv (s : State P) : Prop :=
  s.mem.wf = true ∧ s.mem.ctCanonical ∧ s.enc.Inv ∧ s.dec.Inv ∧ WalkInv s

/-! ### Paths and trees (R28 to R31) -/

/-- The node a bit sequence leads to from a handle (R28). -/
def nodeFrom (m : Memory P) : Handle P → Bits → Option (Handle P)
  | h, [] => some h
  | h, b :: p => if (tnRead m h).kind = .internal then nodeFrom m ((tnRead m h).child b) p else none

/-- `node(p)` (R28). -/
def node (m : Memory P) (p : Bits) : Option (Handle P) := nodeFrom m m.root p

/-- `p` is a root-to-leaf path and the leaf holds `sym` (R28, R30). -/
def LeafPath (m : Memory P) (p : Bits) (sym : Symbol P) : Prop :=
  ∃ h, node m p = some h ∧ (tnRead m h).kind = .leaf ∧ (tnRead m h).sym = sym

/-- The general form of R29 (c): every reachable node is INTERNAL or LEAF. -/
def GeneralForm (m : Memory P) : Prop :=
  ∀ p h, node m p = some h → (tnRead m h).kind = .internal ∨ (tnRead m h).kind = .leaf

/-- The tree of the one-symbol form (R31): an internal root with a leaf on the left and a placeholder on the right. -/
def OneSymbolForm (m : Memory P) : Prop :=
  (tnRead m m.root).kind = .internal ∧
  (tnRead m (tnRead m m.root).left).kind = .leaf ∧
  (tnRead m (tnRead m m.root).right).kind = .placeholder ∧
  (tnRead m m.root).left ≠ (tnRead m m.root).right ∧
  (tnRead m m.root).left ≠ m.root ∧ (tnRead m m.root).right ≠ m.root

/-- `WF_TREE` (R29). -/
def WfTree (m : Memory P) : Prop :=
  (tnRead m m.root).kind = .internal ∧
  (∀ p q h, node m p = some h → node m q = some h → p = q) ∧
  (GeneralForm m ∨ OneSymbolForm m) ∧
  (∀ p q sym, LeafPath m p sym → LeafPath m q sym → p = q)

/-- Mid-path `dec_cur` is a node that a walk from the root reaches (R28, R38). -/
def PositionReached (s : State P) : Prop := s.dec.mid = true → ∃ p, p ≠ [] ∧ node s.mem p = some s.dec.cur

/-- `CONSISTENT` (R30). -/
def Consistent (m : Memory P) : Prop :=
  WfTree m ∧
  (∀ p sym, LeafPath m p sym → (ctRead m sym).len.toNat = p.length ∧ codebits (ctRead m sym) = p) ∧
  (∀ sym, (∀ p, ¬ LeafPath m p sym) → (ctRead m sym).len = 0#P.LEN_W)

/-- `CONSISTENT_ON(A)` (R30). -/
def ConsistentOn (m : Memory P) (A : Symbol P → Prop) : Prop :=
  WfTree m ∧
  ∀ sym, A sym →
    (∃ p, LeafPath m p sym) ∧
    ∀ p, LeafPath m p sym → (ctRead m sym).len.toNat = p.length ∧ codebits (ctRead m sym) = p

/-! ### Runs (R200) -/

/-- One operation of a run, with the state before it and the state after it. -/
structure OpRecord (P : Params := Params.default) where
  op : Instr P
  before : State P
  after : State P

/-- A run: the operations issued, in order, with the states between them. -/
def trace : List (Instr P) → State P → List (OpRecord P)
  | [], _ => []
  | i :: rest, s => ⟨i, s, applyOp i s⟩ :: trace rest (applyOp i s)

/-- The state a run ends in. -/
def runOps (ops : List (Instr P)) (s : State P) : State P := ops.foldl (fun s i => applyOp i s) s

/-- The operation was accepted: it was not `NotReady` (R11). -/
def OpRecord.accepted (r : OpRecord P) : Bool := r.after.resp != .notReady

/-- A port-2 operation. -/
def isEncStream (i : Instr P) : Bool := i.chan == 2

/-- A port-4 operation. -/
def isDecStream (i : Instr P) : Bool := i.chan == 4

/-- The operation writes `CT` when it is answered `OK` (R66). -/
def writesCt : Instr P → Bool
  | .ctrlNop => false
  | .encClr => false
  | .decClr => false
  | .allClr => false
  | .cfgClear => true
  | .cfgCode _ _ _ => true
  | .cfgNode _ _ _ _ _ => false
  | .cfgRoot _ => false
  | .encPut _ => false
  | .encEnd => false
  | .encPop => false
  | .decBit _ => false
  | .decEnd => false
  | .decPop => false
  | .statRd _ => false

/-- The operation writes `TN` or `ROOT` when it is answered `OK` (R66). -/
def writesTree : Instr P → Bool
  | .ctrlNop => false
  | .encClr => false
  | .decClr => false
  | .allClr => false
  | .cfgClear => true
  | .cfgCode _ _ _ => false
  | .cfgNode _ _ _ _ _ => true
  | .cfgRoot _ => true
  | .encPut _ => false
  | .encEnd => false
  | .encPop => false
  | .decBit _ => false
  | .decEnd => false
  | .decPop => false
  | .statRd _ => false

/-- The accepted port-2 operations of a run. -/
def encAccepted (tr : List (OpRecord P)) : List (OpRecord P) := tr.filter fun r => isEncStream r.op && r.accepted

/-- The accepted port-4 operations of a run. -/
def decAccepted (tr : List (OpRecord P)) : List (OpRecord P) := tr.filter fun r => isDecStream r.op && r.accepted

/-- `EncOut` (R200): the entries the port-2 operations of a run pushed. -/
def encOut (tr : List (OpRecord P)) : List (EncEntry P) :=
  (tr.filter fun r => isEncStream r.op).flatMap fun r => r.after.enc.q.drop r.before.enc.q.length

/-- `DecOut` (R200): the entries the port-4 operations of a run pushed. -/
def decOut (tr : List (OpRecord P)) : List (DecEntry P) :=
  (tr.filter fun r => isDecStream r.op).flatMap fun r => r.after.dec.q.drop r.before.dec.q.length

/-- `EncRun(C, t)` (R200), `C` the configuration of `s`: the accepted port-2 operations are the puts of `t` and one end,
every other operation is free but for CFG writes to `CT` answered `OK` and clears of the encoder. -/
def EncRun (s : State P) (t : List (Symbol P)) (ops : List (Instr P)) : Prop :=
  s.enc.isOpen = false ∧
  (encAccepted (trace ops s)).map OpRecord.op = encodeOps t ∧
  ∀ r ∈ trace ops s, r.op ≠ .encClr ∧ r.op ≠ .allClr ∧ (writesCt r.op = true → r.after.resp ≠ .code .ok)

/-- `DecRun(C, b)` (R200), `C` the configuration of `s`. -/
def DecRun (s : State P) (b : Bits) (ops : List (Instr P)) : Prop :=
  s.dec.isOpen = false ∧
  (decAccepted (trace ops s)).map OpRecord.op = decodeOps b ∧
  ∀ r ∈ trace ops s, r.op ≠ .decClr ∧ r.op ≠ .allClr ∧ (writesTree r.op = true → r.after.resp ≠ .code .ok)

end Sys2Proof.Machine
end

