-- ==== Sys2Proof/Certificates/Slice0/Obligations.lean ====
section
/-! DEFINITION. What is claimed of the model, one definition per claim. OBLIGATIONS.json lists them with the rules of the
spec they formalise. -/

open Sys2Proof Sys2Proof.Machine

/-! ### Encoding (R94 to R108) -/

/-- Decoding the transaction word of an operation gives the operation back, every operand at every value (R94 to R105), at
every choice of parameters (R7). -/
def Obligations.DecodeOfEncode : Prop :=
  ∀ (P : Params) (i : Instr P), decode (encode i) = .ok i

/-- The word encoded from a decoded operation is the original word with exactly the bits its format does not name
cleared: no named bit is read wrongly and no ignored bit is kept (R96 to R104, R108 (b)). -/
def Obligations.EncodeOfDecodeKeepsNamedBits : Prop :=
  ∀ (t : TWord) (i : Instr), decode t = .ok i → encode i = t &&& namedBits i

/-- R108 (b): the ignored payload bits do not matter, "whatever their value, and the operation is the same". That the bits
above the port's payload width count among the ignored is the model's choice (DESIGN CHOICE notes/assumptions/4.md); for CTRL,
ENC_PUT, DEC_BIT, the pops and STAT_RD they are the only ones. -/
def Obligations.IgnoredBitsDoNotMatter : Prop :=
  ∀ (t u : TWord) (i : Instr), decode t = .ok i → u &&& namedBits i = t &&& namedBits i → decode u = .ok i

/-- R106: the row of the operation table that selects a word is the decoded operation's, and it is the only one; R95:
the words no row selects are those with `chan = 7`, and their verdict is *invalid*. -/
def Obligations.OperationTableSelectsDecodedOperation : Prop :=
  ∀ t : TWord,
    (∀ i, decode t = .ok i →
      ∃ r ∈ opTable, r.selects t = true ∧ r.mnemonic = i.mnemonic ∧ ∀ r' ∈ opTable, r'.selects t = true → r' = r) ∧
    (decode t = .error .invalidChan ↔ ∀ r ∈ opTable, r.selects t = false) ∧
    (decode t = .error .invalidChan ↔ chanOf t = 7)

/-- R96 to R101, R103: which bits select an operation, and the bit positions its operands are copied from; R102 and R104: a
pop's word is its port number alone, and STAT_RD copies its index. The bits a format does not name have no part in it, and
that the bits above the port's payload width are among them is the model's choice (DESIGN CHOICE notes/assumptions/4.md). -/
def Obligations.OperandsAreReadAtTheirPositions : Prop :=
  ∀ t : TWord,
    (t.extractLsb' 0 5 = 0b00000#5 → decode t = .ok .ctrlNop) ∧
    (t.extractLsb' 0 5 = 0b01000#5 → decode t = .ok .encClr) ∧
    (t.extractLsb' 0 5 = 0b10000#5 → decode t = .ok .decClr) ∧
    (t.extractLsb' 0 5 = 0b11000#5 → decode t = .ok .allClr) ∧
    (t.extractLsb' 0 5 = 0b00001#5 → decode t = .ok .cfgClear) ∧
    (t.extractLsb' 0 5 = 0b01001#5 →
      decode t = .ok (.cfgCode (t.extractLsb' 5 8) (t.extractLsb' 13 8) (t.extractLsb' 21 255))) ∧
    (∀ kind v, (kind, v) ∈ [(NodeKind.empty, 0#2), (.internal, 1#2), (.leaf, 2#2), (.placeholder, 3#2)] →
      t.extractLsb' 14 2 = v → t.extractLsb' 0 5 = 0b10001#5 →
      decode t = .ok (.cfgNode (t.extractLsb' 5 9) kind (t.extractLsb' 16 9) (t.extractLsb' 25 9) (t.extractLsb' 34 8))) ∧
    (t.extractLsb' 0 5 = 0b11001#5 → decode t = .ok (.cfgRoot (t.extractLsb' 5 9))) ∧
    (t.extractLsb' 0 4 = 0b0010#4 → decode t = .ok (.encPut (t.extractLsb' 4 8))) ∧
    (t.extractLsb' 0 4 = 0b1010#4 → decode t = .ok .encEnd) ∧
    (t.extractLsb' 0 3 = 0b011#3 → decode t = .ok .encPop) ∧
    (t.extractLsb' 0 4 = 0b0100#4 → decode t = .ok (.decBit (t.getLsbD 4))) ∧
    (t.extractLsb' 0 4 = 0b1100#4 → decode t = .ok .decEnd) ∧
    (t.extractLsb' 0 3 = 0b101#3 → decode t = .ok .decPop) ∧
    (t.extractLsb' 0 3 = 0b110#3 → decode t = .ok (.statRd (t.extractLsb' 3 4)))

/-- Words of vector VT, written out from R96 to R104, decode to the operations they stand for. -/
def Obligations.SpecWordsDecode : Prop :=
  decode (0x404C69 : TWord) = .ok (.cfgCode 0x63 2 2) ∧
  decode (0x18400008011 : TWord) = .ok (.cfgNode 0 .leaf 0 0 0x61) ∧
  decode (0x2024071 : TWord) = .ok (.cfgNode 3 .internal 2 1 0) ∧
  decode (0x99 : TWord) = .ok (.cfgRoot 4) ∧
  decode (0x612 : TWord) = .ok (.encPut 0x61) ∧
  decode (0x14 : TWord) = .ok (.decBit true) ∧
  decode (0x7E : TWord) = .ok (.statRd 15) ∧
  decode (0x18 : TWord) = .ok .allClr

/-! ### Steps -/

/-- A step whose next host event is the offer of a word that decodes to `i` executes `i` in the state that has the offer
behind it (R10, R69). -/
def Obligations.StepRunsDecodedOperation : Prop :=
  ∀ (s : State) (t : TWord) (rest : List HostEvent) (i : Instr),
    s.events = .offer t :: rest → decode t = .ok i → step s = exec i { s with events := rest }

/-- The step stops in one case only: the offered word has `chan = 7` (R95, R108 (a)); in every other state it answers a
next state. -/
def Obligations.StepStopsOnlyOnInvalidChan : Prop :=
  ∀ s : State,
    (∀ t rest, s.events = .offer t :: rest → chanOf t = 7 → step s = .refused .invalidChan) ∧
    ((∀ t rest, s.events = .offer t :: rest → chanOf t ≠ 7) → ∃ s', step s = .next s')

/-- R69: offered operations run in the order offered, each on exactly the state the one before it left, and afterwards
the host's other events stand as before. That offers come from a list of events (notes/assumptions/6.md), and that an offer
answered `NotReady` is used up as a step like an accepted one (notes/assumptions/5.md), so that there are as many steps as
offers, are DESIGN CHOICES: R10 counts accepted transfers and hard resets as steps. -/
def Obligations.OfferedOperationsRunInOrder : Prop :=
  ∀ (ops : List Instr) (s : State),
    Host.Core.run Sys2Proof.core ops.length (s.offering ops) = .next (runOps ops s)

/-- R70, R91: what a clock edge accepts is driven by the host; a CTRL or a CFG transfer that is not held is accepted, alone
(of the two CTRL first, DESIGN CHOICE notes/assumptions/7.md); with each of the two absent or held, every driven transfer that is ready in the
state at the start of the edge and not held is accepted, in the order STATUS, WORD_OUT, SYM_OUT, SYM_IN, BIT_IN; every accepted
operation is ready in that state; and their combined effect is that of performing them one after another in that order, each
of them accepted and giving the answer that the block drove at the edge. The units satisfy their invariants, which every step
keeps. -/
def Obligations.SameCycleTransfers : Prop :=
  ∀ (sig : PortSignals) (hold : BitVec 7) (s : State) (rest : List HostEvent), s.events = .edge sig hold :: rest →
    s.enc.Inv → s.dec.Inv →
    (∀ w ∈ acceptedAtEdge sig hold s, w ∈ drivenTransfers sig) ∧
    (∀ d, sig.ctrl = some d → hold.getLsbD 0 = false → acceptedAtEdge sig hold s = [wordOf d 0]) ∧
    (∀ d, sig.cfg = some d → hold.getLsbD 1 = false → sig.ctrl = none ∨ hold.getLsbD 0 = true →
      acceptedAtEdge sig hold s = [wordOf d 1]) ∧
    (sig.ctrl = none ∨ hold.getLsbD 0 = true → sig.cfg = none ∨ hold.getLsbD 1 = true →
      ∀ w ∈ drivenTransfers sig, ∀ i, decode w = .ok i → ready i s = true →
        hold.getLsbD (chanOf w).toNat = false → w ∈ acceptedAtEdge sig hold s) ∧
    ((acceptedAtEdge sig hold s).map chanOf = [0] ∨ (acceptedAtEdge sig hold s).map chanOf = [1] ∨
      ((acceptedAtEdge sig hold s).map chanOf).Sublist [6, 3, 5, 2, 4]) ∧
    ∃ (ops : List Instr) (u : State),
      (acceptedAtEdge sig hold s).map decode = ops.map Except.ok ∧ (∀ i ∈ ops, ready i s = true) ∧
      u = { s with events := rest, resp := .edge (portMask (acceptedAtEdge sig hold s)) (portOutputs sig hold s) } ∧
      Host.Core.run Sys2Proof.core (ops.length + 1) s = .next (runOps ops u) ∧
      (∀ r ∈ trace ops u, r.accepted = true) ∧
      (trace ops u).map (fun r => some r.after.resp) = (acceptedAtEdge sig hold s).map (answerAtEdge sig hold s)

/-! ### The outcomes of an operation -/

/-- R11, R91: an operation is `NotReady` exactly when the queues make it so, and then the state is unchanged. -/
def Obligations.NotReadyExactlyWhenQueuesBlock : Prop :=
  ∀ (i : Instr) (s : State),
    (ready i s = false → exec i s = .next { s with resp := .notReady }) ∧
    (ready i s = true → ∃ t, exec i s = .next t ∧ t.resp ≠ .notReady)

/-- R220: a refusal, an operation answered `ERR_FAULTED` or `ERR_BUSY`, records nothing and changes nothing. -/
def Obligations.RefusalsChangeNothing : Prop :=
  ∀ (i : Instr) (s t : State) (c : RespCode),
    exec i s = .next t → t.resp = .code c → c = .errFaulted ∨ c = .errBusy → t = { s with resp := .code c }

/-- R228: the order of the tests of each operation, as the response it gives. -/
def Obligations.ResponsePriority : Prop :=
  ∀ (s : State) (sym : Symbol) (bit : Bool),
    (∃ t, exec (.encPut sym) s = .next t ∧ t.resp =
      if s.enc.fault ≠ .none then .code .errFaulted
      else if (ctRead s.mem sym).len = 0#LEN_W then .code .errUnknownSymbol
      else if EQ_DEPTH - s.enc.q.length < wordsCompleted s (ctRead s.mem sym).len.toNat then .notReady
      else .code .ok) ∧
    (∃ t, exec .encEnd s = .next t ∧ t.resp =
      if s.enc.fault ≠ .none then .code .errFaulted
      else if s.enc.q.length = EQ_DEPTH then .notReady
      else .code .ok) ∧
    (∃ t, exec (.decBit bit) s = .next t ∧ t.resp =
      if s.dec.fault ≠ .none then .code .errFaulted
      else if s.dec.q.length = DQ_DEPTH then .notReady
      else if (tnRead s.mem (decPosition s)).kind ≠ .internal then .code .errBadTree
      else if (tnRead s.mem ((tnRead s.mem (decPosition s)).child bit)).kind = .empty ∨
          (tnRead s.mem ((tnRead s.mem (decPosition s)).child bit)).kind = .placeholder then .code .errBadTree
      else .code .ok) ∧
    (∃ t, exec .decEnd s = .next t ∧ t.resp =
      if s.dec.fault ≠ .none then .code .errFaulted
      else if s.dec.q.length = DQ_DEPTH then .notReady
      else if s.dec.mid = true then .code .errTruncatedStream
      else .code .ok) ∧
    ∀ i : Instr, i.chan = 1 → ∃ t, exec i s = .next t ∧ t.resp =
      if (writesCt i = true ∧ s.enc.isOpen = true) ∨ (writesTree i = true ∧ s.dec.isOpen = true) then .code .errBusy
      else .code .ok

/-! ### Configuration operations (R120 to R125) -/

/-- R122: CFG_CLEAR is refused while a unit is open; with both closed it empties every entry of both stores and `ROOT`, and
touches no unit. -/
def Obligations.CfgClearEmptiesConfiguration : Prop :=
  ∀ s : State,
    (s.enc.isOpen = true ∨ s.dec.isOpen = true → exec .cfgClear s = .next { s with resp := .code .errBusy }) ∧
    (s.enc.isOpen = false → s.dec.isOpen = false →
      ∃ t, exec .cfgClear s = .next t ∧ t.resp = .code .ok ∧
        (∀ sym, ctRead t.mem sym = { len := 0, code := 0 }) ∧
        (∀ h, tnRead t.mem h = { kind := .empty, left := 0, right := 0, sym := 0 }) ∧
        t.mem.root = 0 ∧ t.enc = s.enc ∧ t.dec = s.dec)

/-- R123: CFG_CODE is refused while the encoder is open; with it closed it stores `len` and the low `len` bits of `code`,
nothing above them (so `len = 0` stores the absent entry), and changes no other entry, no node, not `ROOT` and no unit. -/
def Obligations.CfgCodeStoresMaskedCode : Prop :=
  ∀ (sym : Symbol) (len : CodeLen) (code : CodeInt) (s : State),
    (s.enc.isOpen = true → exec (.cfgCode sym len code) s = .next { s with resp := .code .errBusy }) ∧
    (s.enc.isOpen = false →
      ∃ t, exec (.cfgCode sym len code) s = .next t ∧ t.resp = .code .ok ∧
        (ctRead t.mem sym).len = len ∧
        (∀ i, (ctRead t.mem sym).code.getLsbD i = (decide (i < len.toNat) && code.getLsbD i)) ∧
        (∀ sym', sym' ≠ sym → ctRead t.mem sym' = ctRead s.mem sym') ∧
        (∀ h, tnRead t.mem h = tnRead s.mem h) ∧ t.mem.root = s.mem.root ∧ t.enc = s.enc ∧ t.dec = s.dec)

/-- R124: CFG_NODE is refused while the decoder is open; with it closed it stores all four fields as given, and changes no
other node, no code, not `ROOT` and no unit. -/
def Obligations.CfgNodeStoresAllFields : Prop :=
  ∀ (h : Handle) (kind : NodeKind) (left right : Handle) (sym : Symbol) (s : State),
    (s.dec.isOpen = true → exec (.cfgNode h kind left right sym) s = .next { s with resp := .code .errBusy }) ∧
    (s.dec.isOpen = false →
      ∃ t, exec (.cfgNode h kind left right sym) s = .next t ∧ t.resp = .code .ok ∧
        tnRead t.mem h = { kind := kind, left := left, right := right, sym := sym } ∧
        (∀ h', h' ≠ h → tnRead t.mem h' = tnRead s.mem h') ∧
        (∀ sym', ctRead t.mem sym' = ctRead s.mem sym') ∧ t.mem.root = s.mem.root ∧ t.enc = s.enc ∧ t.dec = s.dec)

/-- R125: CFG_ROOT is refused while the decoder is open; with it closed it sets `ROOT`, which STATUS index 14 then reads, and
changes nothing else. -/
def Obligations.CfgRootSetsRoot : Prop :=
  ∀ (h : Handle) (s : State),
    (s.dec.isOpen = true → exec (.cfgRoot h) s = .next { s with resp := .code .errBusy }) ∧
    (s.dec.isOpen = false →
      ∃ t, exec (.cfgRoot h) s = .next t ∧ t.resp = .code .ok ∧ t.mem.root = h ∧
        statusRead 14 t = h.setWidth 32 ∧
        (∀ sym, ctRead t.mem sym = ctRead s.mem sym) ∧ (∀ h', tnRead t.mem h' = tnRead s.mem h') ∧
        t.enc = s.enc ∧ t.dec = s.dec)

/-- R120, R121: every CFG operation is accepted and answered `OK` or `ERR_BUSY`; `ERR_BUSY` exactly when a unit that reads
what it would write is open, a faulted unit among them, and then nothing changes; no CFG operation touches a unit. -/
def Obligations.CfgBusyRule : Prop :=
  ∀ (i : Instr) (s : State), i.chan = 1 → s.enc.Inv → s.dec.Inv →
    ∃ t, exec i s = .next t ∧ (t.resp = .code .ok ∨ t.resp = .code .errBusy) ∧
      (t.resp = .code .errBusy ↔
        (writesCt i = true ∧ s.enc.isOpen = true) ∨ (writesTree i = true ∧ s.dec.isOpen = true)) ∧
      (s.enc.fault ≠ .none → writesCt i = true → t.resp = .code .errBusy) ∧
      (s.dec.fault ≠ .none → writesTree i = true → t.resp = .code .errBusy) ∧
      (t.resp = .code .errBusy → t = { s with resp := .code .errBusy }) ∧ t.enc = s.enc ∧ t.dec = s.dec

/-- R74, R66: an entry of a store holds its value, drawn or written, until an operation writes it: CFG_CLEAR, CFG_CODE of its
symbol, CFG_NODE of its handle; `ROOT` until CFG_CLEAR or CFG_ROOT. -/
def Obligations.ConfigurationChangesOnlyWhereWritten : Prop :=
  ∀ (ops : List Instr) (s : State), .cfgClear ∉ ops →
    (∀ sym, (∀ len code, .cfgCode sym len code ∉ ops) → ctRead (runOps ops s).mem sym = ctRead s.mem sym) ∧
    (∀ h, (∀ kind left right sym, .cfgNode h kind left right sym ∉ ops) →
      tnRead (runOps ops s).mem h = tnRead s.mem h) ∧
    ((∀ h, .cfgRoot h ∉ ops) → (runOps ops s).mem.root = s.mem.root)

/-- R111 LOAD from a state with both units closed: every operation is answered `OK`, and the configuration is then exactly
what was loaded: every listed code and node, every other entry empty, and the root. -/
def Obligations.LoadInstallsConfiguration : Prop :=
  ∀ (codes : List (Symbol × Bits)) (nodes : List (Handle × TreeNode)) (root : Handle) (s : State),
    s.enc.isOpen = false → s.dec.isOpen = false →
    (∀ r ∈ trace (loadOps codes nodes root) s, r.after.resp = .code .ok) ∧
    (∀ sym, ctRead (runOps (loadOps codes nodes root) s).mem sym =
      match codes.lookup sym with
      | some c => storedCode (BitVec.ofNat LEN_W c.length) (BitVec.ofNat MAXLEN (bitsToNat c))
      | none => { len := 0, code := 0 }) ∧
    (∀ h, tnRead (runOps (loadOps codes nodes root) s).mem h =
      (nodes.lookup h).getD { kind := .empty, left := 0, right := 0, sym := 0 }) ∧
    (runOps (loadOps codes nodes root) s).mem.root = root

/-- R14, R105: a code of 1 to `MAXLEN` bits, written as its length and the integer its bits spell, stands for the same bit
sequence once CFG_CODE has stored it. -/
def Obligations.StoredCodeStandsForItsBits : Prop :=
  ∀ (sym : Symbol) (c : Bits) (s : State), s.enc.isOpen = false → 1 ≤ c.length → c.length ≤ MAXLEN →
    ∃ t, exec (cfgCodeOf sym c) s = .next t ∧ t.resp = .code .ok ∧ codebits (ctRead t.mem sym) = c

/-! ### Encoder operations (R140 to R143) -/

/-- R141: an accepted ENC_PUT appends exactly the code's bits: the full words it pushes, then what waits in the accumulator,
carry the old accumulator's bits followed by the code; the counters count, modulo `2^CNT_W`, from zero in a new stream; the
configuration and the decoder are untouched. -/
def Obligations.EncPutAppendsCode : Prop :=
  ∀ (sym : Symbol) (s : State),
    s.enc.acc.length < WORD_W → s.enc.fault = .none → (ctRead s.mem sym).len ≠ 0#LEN_W →
    (s.enc.acc.length + (ctRead s.mem sym).len.toNat) / WORD_W ≤ EQ_DEPTH - s.enc.q.length →
    ∃ t words, exec (.encPut sym) s = .next t ∧ t.resp = .code .ok ∧
      t.enc.q = s.enc.q ++ words ∧
      words.length = (s.enc.acc.length + (ctRead s.mem sym).len.toNat) / WORD_W ∧
      (∀ w ∈ words, w.vbits.toNat = WORD_W ∧ w.last = false) ∧
      unpack words ++ t.enc.acc = s.enc.acc ++ codebits (ctRead s.mem sym) ∧
      t.enc.acc.length = (s.enc.acc.length + (ctRead s.mem sym).len.toNat) % WORD_W ∧
      t.enc.isOpen = true ∧ t.enc.fault = .none ∧ t.enc.errsym = s.enc.errsym ∧
      t.enc.bits.toNat =
        ((if s.enc.isOpen then s.enc.bits.toNat else 0) + (ctRead s.mem sym).len.toNat) % 2 ^ CNT_W ∧
      t.enc.syms.toNat = ((if s.enc.isOpen then s.enc.syms.toNat else 0) + 1) % 2 ^ CNT_W ∧
      t.mem = s.mem ∧ t.dec = s.dec

/-- R225, R141: ENC_PUT of an absent symbol records the fault and the symbol, opens the unit, and appends nothing; the
counters are zeroed only if this is the stream's first operation. -/
def Obligations.EncPutUnknownSymbolIsPrecise : Prop :=
  ∀ (sym : Symbol) (s : State), s.enc.fault = .none → (ctRead s.mem sym).len = 0#LEN_W →
    exec (.encPut sym) s = .next
      { s with
        enc := { s.enc with
          isOpen := true
          fault := .unknown
          errsym := sym
          bits := if s.enc.isOpen then s.enc.bits else 0
          syms := if s.enc.isOpen then s.enc.syms else 0 }
        resp := .code .errUnknownSymbol }

/-- R142: ENC_END is refused by a faulted unit and is `NotReady` on a full queue; else it pushes one end entry that carries
exactly the waiting bits, first bit most significant and zeros below them, empties the accumulator and closes the unit; the
counters keep the stream's totals, or are 0 for an empty stream. -/
def Obligations.EncEndPushesEndEntry : Prop :=
  ∀ s : State, s.enc.acc.length < WORD_W →
    (s.enc.fault ≠ .none → exec .encEnd s = .next { s with resp := .code .errFaulted }) ∧
    (s.enc.fault = .none → s.enc.q.length = EQ_DEPTH → exec .encEnd s = .next { s with resp := .notReady }) ∧
    (s.enc.fault = .none → s.enc.q.length ≠ EQ_DEPTH →
      ∃ t e, exec .encEnd s = .next t ∧ t.resp = .code .ok ∧
        t.enc.q = s.enc.q ++ [e] ∧ e.last = true ∧ e.vbits.toNat = s.enc.acc.length ∧
        unpackbits e.data e.vbits.toNat = s.enc.acc ∧ e.data.toNat % 2 ^ (WORD_W - s.enc.acc.length) = 0 ∧
        t.enc.acc = [] ∧ t.enc.isOpen = false ∧ t.enc.fault = .none ∧ t.enc.errsym = s.enc.errsym ∧
        t.enc.bits = (if s.enc.isOpen then s.enc.bits else 0) ∧
        t.enc.syms = (if s.enc.isOpen then s.enc.syms else 0) ∧
        t.mem = s.mem ∧ t.dec = s.dec)

/-- R143: ENC_POP returns and removes the head entry and changes nothing else, in every state of the unit; the 13-bit value
the port has to offer is `E[7:0] = data`, `E[11:8] = vbits`, `E[12] = last` (R102); on an empty queue it is `NotReady` and the port
has nothing to offer. -/
def Obligations.EncPopTakesHead : Prop :=
  ∀ s : State,
    (∀ e rest, s.enc.q = e :: rest →
      exec .encPop s = .next { s with enc := { s.enc with q := rest }, resp := .word e } ∧
      ∃ E, wordOutData s = some E ∧ E.extractLsb' 0 8 = e.data ∧ E.extractLsb' 8 4 = e.vbits ∧ E.getLsbD 12 = e.last) ∧
    (s.enc.q = [] → exec .encPop s = .next { s with resp := .notReady } ∧ wordOutData s = none)

/-- R231: a faulted encoder refuses ENC_PUT and ENC_END and a faulted decoder DEC_BIT and DEC_END, changing nothing, so the
first fault's record is not overwritten. -/
def Obligations.FaultedUnitRefusesStreamOperations : Prop :=
  ∀ (s : State) (sym : Symbol) (bit : Bool),
    (s.enc.fault ≠ .none →
      exec (.encPut sym) s = .next { s with resp := .code .errFaulted } ∧
      exec .encEnd s = .next { s with resp := .code .errFaulted }) ∧
    (s.dec.fault ≠ .none →
      exec (.decBit bit) s = .next { s with resp := .code .errFaulted } ∧
      exec .decEnd s = .next { s with resp := .code .errFaulted })

/-- R9: one ENC_PUT completes at most `floor((WORD_W - 1 + MAXLEN) / WORD_W)` words, which fit an empty FIFO, so once the host
has drained the FIFO no ENC_PUT is `NotReady`. -/
def Obligations.EncPutFitsEmptyFifo : Prop :=
  ∀ (sym : Symbol) (s : State), s.enc.acc.length < WORD_W →
    wordsCompleted s (ctRead s.mem sym).len.toNat ≤ (WORD_W - 1 + MAXLEN) / WORD_W ∧
    (s.enc.q = [] → ∃ t, exec (.encPut sym) s = .next t ∧ t.resp ≠ .notReady)

/-- R285, R9: a queue without room blocks a stream operation only until the host pops: after `floor((WORD_W - 1 + MAXLEN) /
WORD_W)` ENC_POPs every ENC_PUT and ENC_END is ready, after one DEC_POP every DEC_BIT and DEC_END is. R291, over infinite runs
of clock cycles at every choice of parameters: where the block is fair (read as weak fairness, DESIGN CHOICE
notes/assumptions/13.md) and the host's pops are weakly fair, every operation but
a pop whose request the host holds is eventually accepted, whatever else the host does; and the block may delay everything for
any finite number `d` of cycles, changing no state of the block meanwhile, and still be fair, whatever the host drives. -/
def Obligations.PopsFreeBlockedOperations : Prop :=
  (∀ (s : State) (sym : Symbol) (bit : Bool), s.enc.Inv → s.dec.Inv →
    ready (.encPut sym) (runOps (List.replicate ((WORD_W - 1 + MAXLEN) / WORD_W) .encPop) s) = true ∧
    ready .encEnd (runOps (List.replicate ((WORD_W - 1 + MAXLEN) / WORD_W) .encPop) s) = true ∧
    ready (.decBit bit) (runOps [.decPop] s) = true ∧ ready .decEnd (runOps [.decPop] s) = true) ∧
  (∀ (P : Params) (r : ClockRun P) (w : TWord P) (i : Instr P) (n : Nat), (r.state n).enc.Inv → r.Fair → r.PopsFair →
    decode w = .ok i → i ≠ .encPop → i ≠ .decPop → r.HoldsRequest w n → ∃ m, n ≤ m ∧ r.Accepts w m) ∧
  (∀ (P : Params) (s : State P) (sig : Nat → PortSignals P) (d : Nat), ∃ r : ClockRun P,
    r.sig = sig ∧ r.state 0 = s ∧ r.Fair ∧ ∀ n, n < d →
      (∀ w, ¬ r.Accepts w n) ∧ (r.state (n + 1)).mem = s.mem ∧ (r.state (n + 1)).enc = s.enc ∧ (r.state (n + 1)).dec = s.dec)

/-! ### Decoder operations (R160 to R163) -/

/-- R161: a DEC_BIT that reaches a leaf emits its symbol, returns to the root and counts one bit and one symbol; nothing else
changes. -/
def Obligations.DecBitEmitsLeafSymbol : Prop :=
  ∀ (bit : Bool) (s : State), s.dec.fault = .none → s.dec.q.length ≠ DQ_DEPTH →
    (tnRead s.mem (if s.dec.mid then s.dec.cur else s.mem.root)).kind = .internal →
    ∀ c, c = (if bit then (tnRead s.mem (if s.dec.mid then s.dec.cur else s.mem.root)).right
              else (tnRead s.mem (if s.dec.mid then s.dec.cur else s.mem.root)).left) →
    (tnRead s.mem c).kind = .leaf →
    exec (.decBit bit) s = .next
      { s with
        dec := { s.dec with
          q := s.dec.q ++ [{ sym := (tnRead s.mem c).sym, last := false, trunc := false }]
          mid := false
          isOpen := true
          bits := (if s.dec.isOpen then s.dec.bits else 0) + 1
          syms := (if s.dec.isOpen then s.dec.syms else 0) + 1 }
        resp := .code .ok }

/-- R161: a DEC_BIT that reaches an internal node moves the position to it and counts one bit; nothing else changes. -/
def Obligations.DecBitDescends : Prop :=
  ∀ (bit : Bool) (s : State), s.dec.fault = .none → s.dec.q.length ≠ DQ_DEPTH →
    (tnRead s.mem (if s.dec.mid then s.dec.cur else s.mem.root)).kind = .internal →
    ∀ c, c = (if bit then (tnRead s.mem (if s.dec.mid then s.dec.cur else s.mem.root)).right
              else (tnRead s.mem (if s.dec.mid then s.dec.cur else s.mem.root)).left) →
    (tnRead s.mem c).kind = .internal →
    exec (.decBit bit) s = .next
      { s with
        dec := { s.dec with
          cur := c
          mid := true
          isOpen := true
          bits := (if s.dec.isOpen then s.dec.bits else 0) + 1
          syms := if s.dec.isOpen then s.dec.syms else 0 }
        resp := .code .ok }

/-- R227, R161: BadTree, at the position or at the chosen child: the fault and the offending handle are recorded, the unit
is open, no bit is consumed, nothing is pushed, `dec_mid` is left as it was; the counters are zeroed only by a stream's first
operation. -/
def Obligations.DecBitBadTreeIsPrecise : Prop :=
  ∀ (bit : Bool) (s : State) (h : Handle), s.dec.fault = .none → s.dec.q.length ≠ DQ_DEPTH →
    ((h = decPosition s ∧ (tnRead s.mem h).kind ≠ .internal) ∨
     ((tnRead s.mem (decPosition s)).kind = .internal ∧ h = (tnRead s.mem (decPosition s)).child bit ∧
      ((tnRead s.mem h).kind = .empty ∨ (tnRead s.mem h).kind = .placeholder))) →
    exec (.decBit bit) s = .next
      { s with
        dec := { s.dec with
          cur := h
          isOpen := true
          fault := .badTree
          bits := if s.dec.isOpen then s.dec.bits else 0
          syms := if s.dec.isOpen then s.dec.syms else 0 }
        resp := .code .errBadTree }

/-- R162, R226: DEC_END is refused by a faulted unit and is `NotReady` on a full queue; at the root it closes the stream with
an end entry; mid-path it pushes an end entry with `trunc = 1`, records the fault, keeps the position, and leaves the unit
open. -/
def Obligations.DecEndClosesOrTruncates : Prop :=
  ∀ s : State,
    (s.dec.fault ≠ .none → exec .decEnd s = .next { s with resp := .code .errFaulted }) ∧
    (s.dec.fault = .none → s.dec.q.length = DQ_DEPTH → exec .decEnd s = .next { s with resp := .notReady }) ∧
    (s.dec.fault = .none → s.dec.q.length ≠ DQ_DEPTH → s.dec.mid = false → exec .decEnd s = .next
      { s with
        dec := { s.dec with
          q := s.dec.q ++ [{ sym := 0, last := true, trunc := false }]
          isOpen := false
          bits := if s.dec.isOpen then s.dec.bits else 0
          syms := if s.dec.isOpen then s.dec.syms else 0 }
        resp := .code .ok }) ∧
    (s.dec.fault = .none → s.dec.q.length ≠ DQ_DEPTH → s.dec.mid = true → exec .decEnd s = .next
      { s with
        dec := { s.dec with
          q := s.dec.q ++ [{ sym := 0, last := true, trunc := true }]
          isOpen := true
          fault := .truncated
          bits := if s.dec.isOpen then s.dec.bits else 0
          syms := if s.dec.isOpen then s.dec.syms else 0 }
        resp := .code .errTruncatedStream })

/-- R163: DEC_POP returns and removes the head entry and changes nothing else, in every state of the unit; the 10-bit value
the port has to offer is `E[7:0] = sym`, `E[8] = last`, `E[9] = trunc` (R104); on an empty queue it is `NotReady` and the port has
nothing to offer. -/
def Obligations.DecPopTakesHead : Prop :=
  ∀ s : State,
    (∀ e rest, s.dec.q = e :: rest →
      exec .decPop s = .next { s with dec := { s.dec with q := rest }, resp := .symbol e } ∧
      ∃ E, symOutData s = some E ∧ E.extractLsb' 0 8 = e.sym ∧ E.getLsbD 8 = e.last ∧ E.getLsbD 9 = e.trunc) ∧
    (s.dec.q = [] → exec .decPop s = .next { s with resp := .notReady } ∧ symOutData s = none)

/-! ### System operations and reset (R180 to R185, R260 to R263) -/

/-- R181 to R184: CTRL_NOP changes nothing; ENC_CLR and DEC_CLR give their unit its reset values and leave everything
else; ALL_CLR does both. All are answered `OK` in every state. -/
def Obligations.ClearsGiveResetValues : Prop :=
  ∀ s : State,
    exec .ctrlNop s = .next { s with resp := .code .ok } ∧
    exec .encClr s = .next
      { s with
        enc := { acc := [], q := [], isOpen := false, fault := .none, errsym := 0, bits := 0, syms := 0 }
        resp := .code .ok } ∧
    exec .decClr s = .next
      { s with
        dec := { cur := 0, mid := false, q := [], isOpen := false, fault := .none, bits := 0, syms := 0 }
        resp := .code .ok } ∧
    exec .allClr s = .next
      { s with
        enc := { acc := [], q := [], isOpen := false, fault := .none, errsym := 0, bits := 0, syms := 0 }
        dec := { cur := 0, mid := false, q := [], isOpen := false, fault := .none, bits := 0, syms := 0 }
        resp := .code .ok }

/-- R185, R67: STAT_RD returns the register's value and changes no state, and a second read of the same index returns the
same value. -/
def Obligations.StatRdReadsWithoutEffect : Prop :=
  ∀ (idx : BitVec 4) (s : State),
    ∃ t, exec (.statRd idx) s = .next t ∧ t = { s with resp := .value (statusRead idx s) } ∧
      exec (.statRd idx) t = .next t

/-- R45 to R54: what each STATUS register shows, field by field. -/
def Obligations.StatusRegisterLayouts : Prop :=
  ∀ s : State,
    statusRead 0 s = 0x48434401 ∧ statusRead 1 s = 0x08090808 ∧
    (statusRead 2 s).getLsbD 0 = s.enc.isOpen ∧
    (statusRead 2 s).extractLsb' 1 2 = (match s.enc.fault with | .none => 0#2 | .unknown => 1#2) ∧
    (statusRead 2 s).getLsbD 3 = decide (s.enc.q.length = 0) ∧
    (statusRead 2 s).getLsbD 4 = decide (s.enc.q.length = EQ_DEPTH) ∧
    (statusRead 2 s).extractLsb' 5 3 = 0#3 ∧
    (statusRead 2 s).extractLsb' 8 8 = BitVec.ofNat 8 s.enc.acc.length ∧
    (statusRead 2 s).extractLsb' 16 8 = s.enc.errsym ∧ (statusRead 2 s).extractLsb' 24 8 = 0#8 ∧
    statusRead 3 s = BitVec.ofNat 32 s.enc.q.length ∧
    statusRead 5 s ++ statusRead 4 s = s.enc.bits ∧ statusRead 7 s ++ statusRead 6 s = s.enc.syms ∧
    (statusRead 8 s).getLsbD 0 = s.dec.isOpen ∧
    (statusRead 8 s).extractLsb' 1 2 =
      (match s.dec.fault with | .none => 0#2 | .truncated => 1#2 | .badTree => 2#2) ∧
    (statusRead 8 s).getLsbD 3 = decide (s.dec.q.length = 0) ∧
    (statusRead 8 s).getLsbD 4 = decide (s.dec.q.length = DQ_DEPTH) ∧
    (statusRead 8 s).getLsbD 5 = s.dec.mid ∧ (statusRead 8 s).extractLsb' 6 2 = 0#2 ∧
    (statusRead 8 s).extractLsb' 8 NODE_W = s.dec.cur ∧ (statusRead 8 s).extractLsb' 17 15 = 0#15 ∧
    statusRead 9 s = BitVec.ofNat 32 s.dec.q.length ∧
    statusRead 11 s ++ statusRead 10 s = s.dec.bits ∧ statusRead 13 s ++ statusRead 12 s = s.dec.syms ∧
    statusRead 14 s = s.mem.root.setWidth 32 ∧ statusRead 15 s = 0

/-- R57: what a hard reset leaves, in any state, and in State.reset: every register and queue at its reset value, which the
STATUS registers then show. What CT and TN hold is not said: it is unspecified. -/
def Obligations.HardResetValues : Prop :=
  ∀ (s : State) (rest : List HostEvent), s.events = .hardReset :: rest →
    ∃ t, step s = .next t ∧ t.events = rest ∧ t.mem.root = 0 ∧
      t.enc = { acc := [], q := [], isOpen := false, fault := .none, errsym := 0, bits := 0, syms := 0 } ∧
      t.dec = { cur := 0, mid := false, q := [], isOpen := false, fault := .none, bits := 0, syms := 0 } ∧
      State.reset.mem.root = 0 ∧ State.reset.enc = t.enc ∧ State.reset.dec = t.dec ∧
      ∀ idx, statusRead idx t =
        if idx = 0 then 0x48434401 else if idx = 1 then 0x08090808 else if idx = 2 then 0x00000008
        else if idx = 8 then 0x00000008 else 0

/-- R263: a hard reset is ALL_CLR plus `ROOT <- 0` plus the loss of the stores' contents: followed by CFG_CLEAR it leaves
exactly what ALL_CLR followed by CFG_CLEAR leaves. -/
def Obligations.HardResetIsAllClearAndStoreLoss : Prop :=
  ∀ s : State,
    (runOps [.cfgClear] (hardReset s)).mem = (runOps [.allClr, .cfgClear] s).mem ∧
    (runOps [.cfgClear] (hardReset s)).enc = (runOps [.allClr, .cfgClear] s).enc ∧
    (runOps [.cfgClear] (hardReset s)).dec = (runOps [.allClr, .cfgClear] s).dec

/-! ### Invariants -/

/-- R37, R42, (e) as written among them, R24, R35, R40 and the stores' canonical form hold after reset. -/
def Obligations.InvariantsHoldAfterReset : Prop :=
  StateInv State.reset ∧ PositionInternal State.reset ∧ PositionReached State.reset

/-- R37, R42 (with (e) as the DEDUCED notes/assumptions/8.md reads it), R24, R35, R40 and the canonical form of the stores are kept
by every step, whatever the host does next. R42 (e) as written is kept by every step but one answered `ERR_BAD_TREE`, where R161
writes the offending node to `dec_cur`; and over a well-formed tree (R29), which R282 asks of the host, by every step. -/
def Obligations.EveryStepKeepsInvariants : Prop :=
  (∀ s t : State, StateInv s → step s = .next t → StateInv t) ∧
  (∀ s t : State, StateInv s → PositionInternal s → step s = .next t → t.resp ≠ .code .errBadTree → PositionInternal t) ∧
  (∀ s t : State, StateInv s → PositionInternal s → PositionReached s → WfTree s.mem → step s = .next t →
    PositionInternal t ∧ PositionReached t)

/-! ### Whole-machine rules -/

/-- R140, R160, R180, R120: who may change what. Encoder-side operations leave the configuration and the decoder; decoder-side
operations leave the configuration and the encoder; CFG operations leave both units; STAT_RD and CTRL_NOP leave everything;
no operation changes the count of hard resets or the host's coming events. -/
def Obligations.OperationsKeepToTheirUnit : Prop :=
  ∀ (i : Instr) (s t : State), exec i s = .next t →
    (i.chan = 2 ∨ i.chan = 3 ∨ i = .encClr → t.mem = s.mem ∧ t.dec = s.dec) ∧
    (i.chan = 4 ∨ i.chan = 5 ∨ i = .decClr → t.mem = s.mem ∧ t.enc = s.enc) ∧
    (i.chan = 1 → t.enc = s.enc ∧ t.dec = s.dec) ∧
    (i.chan = 0 → t.mem = s.mem) ∧
    (i.chan = 6 ∨ i = .ctrlNop → t.mem = s.mem ∧ t.enc = s.enc ∧ t.dec = s.dec) ∧
    t.resets = s.resets ∧ t.events = s.events

/-- R206, R20: the outcome of an operation and the state it leaves are functions of the configuration, the two units and the
operands: nothing else of the model's state, not the last response, not the host's coming events, not the number of resets,
has a part in them. -/
def Obligations.OperationsDependOnBlockStateOnly : Prop :=
  ∀ (i : Instr) (s s' t t' : State), s.mem = s'.mem → s.enc = s'.enc → s.dec = s'.dec →
    exec i s = .next t → exec i s' = .next t' →
    t.mem = t'.mem ∧ t.enc = t'.enc ∧ t.dec = t'.dec ∧ t.resp = t'.resp

/-- R140, R247: what an encoder operation does and answers does not depend on the node store, `ROOT` or the decoder: two
states that agree on `CT` and the encoder agree on both after it. -/
def Obligations.EncoderDoesNotSeeDecoder : Prop :=
  ∀ (i : Instr) (s s' t t' : State), i.chan = 2 ∨ i.chan = 3 →
    (∀ sym, ctRead s.mem sym = ctRead s'.mem sym) → s.enc = s'.enc →
    exec i s = .next t → exec i s' = .next t' → t.enc = t'.enc ∧ t.resp = t'.resp

/-- R160, R247: what a decoder operation does and answers does not depend on `CT` or the encoder. -/
def Obligations.DecoderDoesNotSeeEncoder : Prop :=
  ∀ (i : Instr) (s s' t t' : State), i.chan = 4 ∨ i.chan = 5 →
    (∀ h, tnRead s.mem h = tnRead s'.mem h) → s.mem.root = s'.mem.root → s.dec = s'.dec →
    exec i s = .next t → exec i s' = .next t' → t.dec = t'.dec ∧ t.resp = t'.resp

/-- R230: a unit's recorded fault is left only by that unit's clear, by ALL_CLR or by hard reset; until then the record
stands. -/
def Obligations.FaultsLeaveOnlyByClearOrReset : Prop :=
  ∀ s t : State, step s = .next t →
    (∀ rest, s.events ≠ .hardReset :: rest) →
    (∀ w rest, s.events = .offer w :: rest → decode w ≠ .ok .allClr) →
    ((∀ w rest, s.events = .offer w :: rest → decode w ≠ .ok .encClr) → s.enc.fault ≠ .none →
      t.enc.fault = s.enc.fault ∧ t.enc.errsym = s.enc.errsym) ∧
    ((∀ w rest, s.events = .offer w :: rest → decode w ≠ .ok .decClr) → s.dec.fault ≠ .none →
      t.dec.fault = s.dec.fault ∧ t.dec.cur = s.dec.cur ∧ t.dec.mid = s.dec.mid)

/-- R72, R121: the configuration a stream sees cannot change while the stream is open, short of a hard reset. -/
def Obligations.ConfigurationFixedWhileOpen : Prop :=
  ∀ s t : State, step s = .next t → (∀ rest, s.events ≠ .hardReset :: rest) →
    (s.enc.isOpen = true → ∀ sym, ctRead t.mem sym = ctRead s.mem sym) ∧
    (s.dec.isOpen = true → t.mem.root = s.mem.root ∧ ∀ h, tnRead t.mem h = tnRead s.mem h)

/-- R68, R73: the two queues are first-in first-out: short of a clear and a hard reset, a step leaves a queue as it is but for
entries added at the tail, or it is a pop that takes the head away and answers it; nothing else removes, changes or reorders
an entry. -/
def Obligations.QueuesAreFirstInFirstOut : Prop :=
  ∀ s t : State, step s = .next t → (∀ rest, s.events ≠ .hardReset :: rest) →
    (∀ w rest i, s.events = .offer w :: rest → decode w = .ok i → i ≠ .encClr ∧ i ≠ .decClr ∧ i ≠ .allClr) →
    ((∃ new, t.enc.q = s.enc.q ++ new) ∨ ∃ e w rest, s.enc.q = e :: t.enc.q ∧
      s.events = .offer w :: rest ∧ decode w = .ok .encPop ∧ t.resp = .word e) ∧
    ((∃ new, t.dec.q = s.dec.q ++ new) ∨ ∃ e w rest, s.dec.q = e :: t.dec.q ∧
      s.events = .offer w :: rest ∧ decode w = .ok .decPop ∧ t.resp = .symbol e)

/-! ### Laws of whole streams (R15, R62, R144, R164, R200 to R207) -/

/-- R62, R15: bit number `n` of a bitstream in full words is bit `WORD_W - 1 - (n mod WORD_W)` of word number
`n div WORD_W`. -/
def Obligations.BitstreamBitPositions : Prop :=
  ∀ (es : List EncEntry), (∀ e ∈ es, e.vbits.toNat = WORD_W) →
    (unpack es).length = WORD_W * es.length ∧
    ∀ n, (unpack es)[n]? = es[n / WORD_W]?.map fun e => e.data.getLsbD (WORD_W - 1 - n % WORD_W)

/-- R144: a stream of puts and one end, all answered `OK`, pushes full words and one end entry that together carry exactly
the symbols' codes in order, for every `CT` and every interleaving, and the counters then hold the totals. -/
def Obligations.EncodedStreamIsCodesInOrder : Prop :=
  ∀ (s : State) (t : List Symbol) (ops : List Instr), s.enc.Inv → EncRun s t ops →
    (∀ r ∈ encAccepted (trace ops s), r.after.resp = .code .ok) →
    unpack (encOut (trace ops s)) = t.flatMap (fun sym => codebits (ctRead s.mem sym)) ∧
    (∃ full e, encOut (trace ops s) = full ++ [e] ∧
      (∀ w ∈ full, w.last = false ∧ w.vbits.toNat = WORD_W) ∧ e.last = true ∧
      e.vbits.toNat = (t.map fun sym => (ctRead s.mem sym).len.toNat).sum % WORD_W) ∧
    (runOps ops s).enc.syms.toNat = t.length % 2 ^ CNT_W ∧
    (runOps ops s).enc.bits.toNat = (t.map fun sym => (ctRead s.mem sym).len.toNat).sum % 2 ^ CNT_W

/-- R203: when every operation of the run is answered `OK`, the bitstream is as long as the sum of the code lengths over the
text, which is the sum over all symbols of count times code length, and the counters hold that number and the number of
symbols. -/
def Obligations.LengthLaw : Prop :=
  ∀ (s : State) (t : List Symbol) (ops : List Instr), s.enc.Inv → EncRun s t ops →
    (∀ r ∈ encAccepted (trace ops s), r.after.resp = .code .ok) →
    (unpack (encOut (trace ops s))).length = (t.map fun sym => (ctRead s.mem sym).len.toNat).sum ∧
    (unpack (encOut (trace ops s))).length =
      ((List.range NSYM).map fun v =>
        t.count (BitVec.ofNat SYM_W v) * (ctRead s.mem (BitVec.ofNat SYM_W v)).len.toNat).sum ∧
    (runOps ops s).enc.bits.toNat = (unpack (encOut (trace ops s))).length % 2 ^ CNT_W ∧
    (runOps ops s).enc.syms.toNat = t.length % 2 ^ CNT_W

/-- R164: a decoder stream over a bit sequence made of root-to-leaf paths and a remainder that stops at an internal node
(nothing, or a proper part of a path): every DEC_BIT is answered `OK`, the symbols of the paths come out in order, and DEC_END
is answered `OK` exactly when there is no remainder, else it reports truncation. -/
def Obligations.DecodedStreamFollowsPaths : Prop :=
  ∀ (s : State) (paths : List (Bits × Symbol)) (rest : Bits) (ops : List Instr), s.dec.Inv →
    (∀ p ∈ paths, LeafPath s.mem p.1 p.2) →
    (∃ h, node s.mem rest = some h ∧ (tnRead s.mem h).kind = .internal) →
    DecRun s (paths.flatMap Prod.fst ++ rest) ops →
    (decAccepted (trace ops s)).map (fun r => r.after.resp) =
      List.replicate ((paths.flatMap Prod.fst ++ rest).length) (.code .ok) ++
        [if rest = [] then .code .ok else .code .errTruncatedStream] ∧
    decOut (trace ops s) =
      paths.map (fun p => { sym := p.2, last := false, trunc := false }) ++
        [{ sym := 0, last := true, trunc := decide (rest ≠ []) }] ∧
    (runOps ops s).dec.syms.toNat = paths.length % 2 ^ CNT_W ∧
    (runOps ops s).dec.bits.toNat = (paths.flatMap Prod.fst ++ rest).length % 2 ^ CNT_W

/-- R29, R164: over a well-formed tree in the general form every bit sequence splits, in one way, into root-to-leaf paths and
a remainder that stops at an internal node. -/
def Obligations.BitsSplitIntoPaths : Prop :=
  ∀ (m : Memory), WfTree m → GeneralForm m → ∀ b : Bits,
    ∃! split : List (Bits × Symbol) × Bits,
      (∀ p ∈ split.1, LeafPath m p.1 p.2) ∧
      (∃ h, node m split.2 = some h ∧ (tnRead m h).kind = .internal) ∧
      b = split.1.flatMap Prod.fst ++ split.2

/-- R202: in a consistent configuration no symbol's code is a prefix of another's. -/
def Obligations.ConsistentCodesArePrefixFree : Prop :=
  ∀ (m : Memory), Consistent m → ∀ a b : Symbol, a ≠ b →
    (ctRead m a).len ≠ 0#LEN_W → (ctRead m b).len ≠ 0#LEN_W →
    ¬ (codebits (ctRead m a) <+: codebits (ctRead m b))

/-- R201, R204: the round trip. With a configuration consistent on `A` and a text over `A`, every operation of the encoder's
run is answered `OK`, exactly the last entry it pushes has `last = 1`, and the decoder's run over what was pushed, from any state
whose tree has the same contents (every node and `ROOT`), answers `OK` throughout and emits the text and one sound end entry. -/
def Obligations.RoundTripLaw : Prop :=
  ∀ (A : Symbol → Prop) (s s' : State) (t : List Symbol) (ops ops' : List Instr),
    ConsistentOn s.mem A → (∀ x ∈ t, A x) → s.enc.Inv → EncRun s t ops →
    s'.mem.root = s.mem.root → (∀ h, tnRead s'.mem h = tnRead s.mem h) → s'.dec.Inv →
    DecRun s' (unpack (encOut (trace ops s))) ops' →
    (∀ r ∈ encAccepted (trace ops s), r.after.resp = .code .ok) ∧
    (∃ full e, encOut (trace ops s) = full ++ [e] ∧ e.last = true ∧ ∀ w ∈ full, w.last = false) ∧
    (∀ r ∈ decAccepted (trace ops' s'), r.after.resp = .code .ok) ∧
    decOut (trace ops' s') =
      t.map (fun x => { sym := x, last := false, trunc := false }) ++ [{ sym := 0, last := true, trunc := false }]

/-- R205: over a well-formed tree in the general form, a decoder stream whose bits leave a non-empty remainder after the
root-to-leaf paths ends with DEC_END answering truncation, one that leaves none with `OK`; in particular an encoded text that
loses a non-empty suffix shorter than its last code word is reported truncated, whatever state decodes it whose tree has the
same contents. -/
def Obligations.TruncationLaw : Prop :=
  (∀ (s : State) (paths : List (Bits × Symbol)) (rest : Bits) (ops : List Instr),
    WfTree s.mem → GeneralForm s.mem → s.dec.Inv → (∀ p ∈ paths, LeafPath s.mem p.1 p.2) →
    (∀ q sym, q <+: rest → ¬ LeafPath s.mem q sym) →
    DecRun s (paths.flatMap Prod.fst ++ rest) ops →
    ∃ r, (decAccepted (trace ops s)).getLast? = some r ∧ r.op = .decEnd ∧
      r.after.resp = if rest = [] then .code .ok else .code .errTruncatedStream) ∧
  (∀ (A : Symbol → Prop) (s s' : State) (t : List Symbol) (x : Symbol) (cut : Nat) (ops ops' : List Instr),
    ConsistentOn s.mem A → GeneralForm s.mem → (∀ y ∈ t ++ [x], A y) → s.enc.Inv → EncRun s (t ++ [x]) ops →
    s'.mem.root = s.mem.root → (∀ h, tnRead s'.mem h = tnRead s.mem h) → s'.dec.Inv →
    0 < cut → cut < (ctRead s.mem x).len.toNat →
    DecRun s' ((unpack (encOut (trace ops s))).take ((unpack (encOut (trace ops s))).length - cut)) ops' →
    ∃ r, (decAccepted (trace ops' s')).getLast? = some r ∧ r.op = .decEnd ∧
      r.after.resp = .code .errTruncatedStream)

/-- R207: what the encoder pushes and answers for a text, and what its registers end in, do not depend on what else the run
does, on the queue it starts with, nor on how often an operation was `NotReady` before it was accepted; the same for the
decoder, from two states that agree on the stale handle in `dec_cur`. -/
def Obligations.InterleavingDoesNotMatter : Prop :=
  (∀ (s s' : State) (t : List Symbol) (ops ops' : List Instr),
    (∀ sym, ctRead s.mem sym = ctRead s'.mem sym) → s.enc.Inv → s'.enc.Inv →
    EncRun s t ops → EncRun s' t ops' →
    encOut (trace ops s) = encOut (trace ops' s') ∧
    (encAccepted (trace ops s)).map (fun r => r.after.resp) =
      (encAccepted (trace ops' s')).map (fun r => r.after.resp) ∧
    { (runOps ops s).enc with q := [] } = { (runOps ops' s').enc with q := [] }) ∧
  (∀ (s s' : State) (b : Bits) (ops ops' : List Instr),
    s.mem.root = s'.mem.root → (∀ h, tnRead s.mem h = tnRead s'.mem h) → s.dec.Inv → s'.dec.Inv →
    s.dec.cur = s'.dec.cur → DecRun s b ops → DecRun s' b ops' →
    decOut (trace ops s) = decOut (trace ops' s') ∧
    (decAccepted (trace ops s)).map (fun r => r.after.resp) =
      (decAccepted (trace ops' s')).map (fun r => r.after.resp) ∧
    { (runOps ops s).dec with q := [] } = { (runOps ops' s').dec with q := [] })

/-! ### The host's procedure (R264 to R275) -/

/-- R274: no code a host reads off a tree is a prefix of another, for any tree; every code extends the path of the subtree
it is read from. -/
def Obligations.HostCodesArePrefixFree : Prop :=
  ∀ (tree : CodeTree) (path : Bits),
    (codesOf tree path).Pairwise (fun a b => ¬ a.2 <+: b.2 ∧ ¬ b.2 <+: a.2) ∧
    ∀ c ∈ codesOf tree path, path <+: c.2

/-- R268, R270: the host's procedure fails on the empty text only, and then with `EmptyInputError`. -/
def Obligations.HostBuildFailsOnlyOnEmptyText : Prop :=
  bootOps ([] : List Symbol) = .error .emptyInput ∧ ∀ text : List Symbol, text ≠ [] → ∃ ops, bootOps text = .ok ops

/-! ### The ports at a clock edge, and the parameters -/

/-- R91, R93: on every port a transfer is accepted at an edge exactly when both sides of its handshake are 1: on an input port
the host drives `valid` with a request and the block `ready`, on an output port the block `valid` and the host `ready`. While
its side is 1 the block drives the operation's response code, the register's value, or the head of the queue. Its side is 0 on
a port it holds, where the operation is `NotReady`, on an output port whose queue is empty, and on every other port while a
CTRL or a CFG transfer is accepted (R70). The mask in the model's output has the accepted ports. Which ports the block holds is
the host event's `hold` (notes/assumptions/7.md). -/
def Obligations.TransferIsValidAndReady : Prop :=
  ∀ (sig : PortSignals) (hold : BitVec 7) (s : State) (rest : List HostEvent), s.events = .edge sig hold :: rest →
    ∃ t out mask, step s = .next t ∧ t.resp = .edge mask out ∧
      (∀ p, mask.getLsbD p = true ↔ ∃ w ∈ acceptedAtEdge sig hold s, (chanOf w).toNat = p) ∧
      ((∀ d, wordOf d 0 ∈ acceptedAtEdge sig hold s ↔ sig.ctrl = some d ∧ out.ctrl ≠ none) ∧
        (∀ d, wordOf d 1 ∈ acceptedAtEdge sig hold s ↔ sig.cfg = some d ∧ out.cfg ≠ none) ∧
        (∀ d, wordOf d 2 ∈ acceptedAtEdge sig hold s ↔ sig.symIn = some d ∧ out.symIn ≠ none) ∧
        (wordOf 0#0 3 ∈ acceptedAtEdge sig hold s ↔ sig.wordOut = true ∧ out.wordOut ≠ none) ∧
        (∀ d, wordOf d 4 ∈ acceptedAtEdge sig hold s ↔ sig.bitIn = some d ∧ out.bitIn ≠ none) ∧
        (wordOf 0#0 5 ∈ acceptedAtEdge sig hold s ↔ sig.symOut = true ∧ out.symOut ≠ none) ∧
        (∀ d, wordOf d 6 ∈ acceptedAtEdge sig hold s ↔ sig.stat = some d ∧ out.stat ≠ none)) ∧
      ((∀ v, out.ctrl = some v → v = RespCode.ok.toBits) ∧
        (∀ d i u v, sig.cfg = some d → decode (wordOf d 1) = .ok i → exec i s = .next u → out.cfg = some v →
          ∃ c, u.resp = .code c ∧ v = c.toBits) ∧
        (∀ d i u v, sig.symIn = some d → decode (wordOf d 2) = .ok i → exec i s = .next u → out.symIn = some v →
          ∃ c, u.resp = .code c ∧ v = c.toBits) ∧
        (∀ v, out.wordOut = some v → ∃ e, s.enc.q.head? = some e ∧ v = e.toBits) ∧
        (∀ d i u v, sig.bitIn = some d → decode (wordOf d 4) = .ok i → exec i s = .next u → out.bitIn = some v →
          ∃ c, u.resp = .code c ∧ v = c.toBits) ∧
        (∀ v, out.symOut = some v → ∃ e, s.dec.q.head? = some e ∧ v = e.toBits) ∧
        (∀ d v, sig.stat = some d → out.stat = some v → v = statusRead d s)) ∧
      ((hold.getLsbD 0 = true → out.ctrl = none) ∧ (hold.getLsbD 1 = true → out.cfg = none) ∧
        (hold.getLsbD 2 = true → out.symIn = none) ∧ (hold.getLsbD 3 = true → out.wordOut = none) ∧
        (hold.getLsbD 4 = true → out.bitIn = none) ∧ (hold.getLsbD 5 = true → out.symOut = none) ∧
        (hold.getLsbD 6 = true → out.stat = none)) ∧
      (out.ctrl ≠ none → out =
        { ctrl := out.ctrl, cfg := none, symIn := none, wordOut := none, bitIn := none, symOut := none, stat := none }) ∧
      (out.cfg ≠ none → out =
        { ctrl := none, cfg := out.cfg, symIn := none, wordOut := none, bitIn := none, symOut := none, stat := none })

/-- R7: the parameters are an argument of the model. `exec`, `step` and `State.reset` are the block at the defaults; and at
every choice of parameters that R7 allows the invariants R24, R35, R37, R40, R42 (with (e) as notes/assumptions/8.md reads it)
and the canonical form of the stores hold after reset and are kept by every step. -/
def Obligations.InvariantsAtEveryParameterChoice : Prop :=
  (∀ (i : Instr) (s : State), exec i s = perform i s) ∧ (∀ s : State, step s = stepOf s) ∧
  State.reset = State.resetOf Params.default ∧
  ∀ P : Params, StateInv (State.resetOf P) ∧ ∀ s t : State P, StateInv s → stepOf s = .next t → StateInv t
end

