-- ==== Sys2Proof/Laws/Params.lean ====
section
/-! SUPPORT. What the constraints of R7 give of any choice of parameters: the bounds that later proofs need. -/

namespace Sys2Proof

/-- The parameters at their defaults, by the names of the default column. -/
theorem Params.default_values :
    Params.default.SYM_W = Sys2Proof.SYM_W ∧ Params.default.NSYM = Sys2Proof.NSYM ∧
    Params.default.LEN_W = Sys2Proof.LEN_W ∧ Params.default.MAXLEN = Sys2Proof.MAXLEN ∧
    Params.default.NODE_W = Sys2Proof.NODE_W ∧ Params.default.NNODE = Sys2Proof.NNODE ∧
    Params.default.WORD_W = Sys2Proof.WORD_W ∧ Params.default.VB_W = Sys2Proof.VB_W ∧
    Params.default.EQ_DEPTH = Sys2Proof.EQ_DEPTH ∧ Params.default.DQ_DEPTH = Sys2Proof.DQ_DEPTH ∧
    Params.default.CNT_W = Sys2Proof.CNT_W :=
  ⟨rfl, rfl, rfl, rfl, rfl, rfl, rfl, rfl, rfl, rfl, rfl⟩

/-- Every format fits in the widest transaction word (R90, R94). -/
theorem Params.formats_fit (P : Params) :
    5 + P.SYM_W + P.LEN_W + P.MAXLEN ≤ P.T_W ∧ 7 + 3 * P.NODE_W + P.SYM_W ≤ P.T_W ∧ 14 ≤ P.T_W := by
  have h1 := P.symW_pos
  have h2 := P.nodeW_eq
  have h3 := Nat.le_max_left (2 + P.SYM_W + P.LEN_W + P.MAXLEN) (4 + 3 * P.NODE_W + P.SYM_W)
  have h4 := Nat.le_max_right (2 + P.SYM_W + P.LEN_W + P.MAXLEN) (4 + 3 * P.NODE_W + P.SYM_W)
  simp only [Params.T_W, Params.CFG_W]
  omega

/-- A valid-bit count of at most `WORD_W` is a `VB_W`-bit number (R7). -/
theorem Params.toNat_vbits (P : Params) {n : Nat} (h : n ≤ P.WORD_W) : (BitVec.ofNat P.VB_W n).toNat = n := by
  rw [BitVec.toNat_ofNat]
  exact Nat.mod_eq_of_lt (by have := P.vbW_eq.2; omega)

end Sys2Proof
end

