-- ==== Sys2Proof/Laws/Encoding.lean ====
section
/-! SUPPORT. Where the fields of a transaction word lie: reading a bit or a field of `wordOf payload chan`, and of a
concatenation of fields, so that no later proof unfolds the word. -/

namespace Sys2Proof

variable {P : Params}

/-- A node kind survives its two bits, and every two bits name a kind (R26). -/
@[simp] theorem kindOfBits_kindToBits (k : NodeKind) : kindOfBits (kindToBits k) = k := by cases k <;> decide

@[simp] theorem kindToBits_kindOfBits (b : BitVec 2) : kindToBits (kindOfBits b) = b := by revert b; decide

section Fields

variable {w v : Nat}

/-- A payload bit of a word (R94): payload bit `i` is `T[i + 3]`. -/
theorem wordOf_getLsbD (p : BitVec w) (c : BitVec 3) (a : Nat) (h3 : 3 ≤ a) (h : a < P.T_W) :
    (wordOf p c : TWord P).getLsbD a = p.getLsbD (a - 3) := by
  simp only [wordOf, BitVec.getLsbD_setWidth, BitVec.getLsbD_append]
  simp [h, Nat.not_lt.2 h3]

/-- The port number of a word (R94). -/
theorem wordOf_chan (p : BitVec w) (c : BitVec 3) : (wordOf p c : TWord P).extractLsb' 0 3 = c := by
  apply BitVec.eq_of_getLsbD_eq
  intro i hi
  have hT : i < P.T_W := by have := P.formats_fit; omega
  simp only [BitVec.getLsbD_extractLsb', wordOf, BitVec.getLsbD_setWidth, BitVec.getLsbD_append]
  simp [hi, hT]

/-- A payload field of a word (R94). -/
theorem wordOf_extract (p : BitVec w) (c : BitVec 3) (a n : Nat) (h3 : 3 ≤ a) (h : a + n ≤ P.T_W) :
    (wordOf p c : TWord P).extractLsb' a n = p.extractLsb' (a - 3) n := by
  apply BitVec.eq_of_getLsbD_eq
  intro i hi
  simp only [BitVec.getLsbD_extractLsb', hi, decide_true, Bool.true_and]
  rw [wordOf_getLsbD _ _ _ (by omega) (by omega), show a + i - 3 = a - 3 + i by omega]

/-- A field that lies in the low part of a concatenation. -/
theorem append_extract_low (x : BitVec w) (y : BitVec v) (a n : Nat) (h : a + n ≤ v) :
    (x ++ y).extractLsb' a n = y.extractLsb' a n := by
  apply BitVec.eq_of_getLsbD_eq
  intro i hi
  simp only [BitVec.getLsbD_extractLsb', BitVec.getLsbD_append]
  rw [if_pos (by omega)]

/-- A field that lies in the high part of a concatenation. -/
theorem append_extract_high (x : BitVec w) (y : BitVec v) (a n : Nat) (h : v ≤ a) :
    (x ++ y).extractLsb' a n = x.extractLsb' (a - v) n := by
  apply BitVec.eq_of_getLsbD_eq
  intro i hi
  simp only [BitVec.getLsbD_extractLsb', BitVec.getLsbD_append]
  rw [if_neg (by omega), show a + i - v = a - v + i by omega]

/-- A bit of the low part of a concatenation. -/
theorem append_getLsbD_low (x : BitVec w) (y : BitVec v) (i : Nat) (h : i < v) : (x ++ y).getLsbD i = y.getLsbD i := by
  rw [BitVec.getLsbD_append, if_pos h]

/-- A bit of the high part of a concatenation. -/
theorem append_getLsbD_high (x : BitVec w) (y : BitVec v) (i : Nat) (h : v ≤ i) :
    (x ++ y).getLsbD i = x.getLsbD (i - v) := by
  rw [BitVec.getLsbD_append, if_neg (by omega)]

/-- The field that is the whole value. -/
theorem extract_whole (x : BitVec w) (a : Nat) (h : a = 0) : x.extractLsb' a w = x := by
  subst h
  simp

/-- Two fields that lie side by side are one field. -/
theorem extract_append_extract (t : BitVec w) (a k n : Nat) :
    t.extractLsb' (a + k) n ++ t.extractLsb' a k = t.extractLsb' a (n + k) := by
  apply BitVec.eq_of_getLsbD_eq
  intro i hi
  rw [BitVec.getLsbD_append]
  simp only [BitVec.getLsbD_extractLsb']
  by_cases h : i < k
  · simp [h, hi]
  · simp only [h, if_false]
    rw [show a + k + (i - k) = a + i by omega]
    congr 1
    exact decide_eq_decide.2 (by omega)

/-- A one-bit field is that bit. -/
theorem extract_one (t : BitVec w) (a : Nat) : t.extractLsb' a 1 = BitVec.ofBool (t.getLsbD a) := by
  apply BitVec.eq_of_getLsbD_eq
  intro i hi
  obtain rfl : i = 0 := by omega
  simp

/-- A bit of a word whose low field is known. -/
theorem getLsbD_of_extract_low {t : BitVec w} {n v : Nat} (h : t.extractLsb' 0 n = BitVec.ofNat n v) {k : Nat} (hk : k < n) :
    t.getLsbD k = v.testBit k := by
  have hb := congrArg (fun b => b.getLsbD k) h
  simp only [BitVec.getLsbD_extractLsb', BitVec.getLsbD_ofNat, hk, decide_true, Bool.true_and, Nat.zero_add] at hb
  exact hb

/-- A shorter low field of a word whose low field is known. -/
theorem extract_low_of_extract_low {t : BitVec w} {n v : Nat} (h : t.extractLsb' 0 n = BitVec.ofNat n v) {k : Nat}
    (hk : k ≤ n) : t.extractLsb' 0 k = BitVec.ofNat k v := by
  apply BitVec.eq_of_getLsbD_eq
  intro i hi
  rw [BitVec.getLsbD_extractLsb', BitVec.getLsbD_ofNat]
  simp only [hi, Nat.zero_add, getLsbD_of_extract_low h (show i < n by omega)]

end Fields

theorem lowMask_getLsbD (n i : Nat) : (lowMask n : TWord P).getLsbD i = (decide (i < n) && decide (i < P.T_W)) := by
  rw [lowMask, BitVec.getLsbD_ofNat, Nat.testBit_two_pow_sub_one, Bool.and_comm]

/-- Every way a word decodes, by port (R95). -/
theorem decode_ok_cases {t : TWord P} {i : Instr P} (h : decode t = .ok i) :
    (t.extractLsb' 0 3 = 0 ∧ i = decodeCtrl t) ∨ (t.extractLsb' 0 3 = 1 ∧ i = decodeCfg t) ∨
    (t.extractLsb' 0 3 = 2 ∧ i = decodeSymIn t) ∨ (t.extractLsb' 0 3 = 3 ∧ i = .encPop) ∨
    (t.extractLsb' 0 3 = 4 ∧ i = decodeBitIn t) ∨ (t.extractLsb' 0 3 = 5 ∧ i = .decPop) ∨
    (t.extractLsb' 0 3 = 6 ∧ i = .statRd (t.extractLsb' 3 4)) := by
  unfold decode at h
  generalize t.extractLsb' 0 3 = c at *
  split at h <;> rename_i hn <;> simp only [Except.ok.injEq, reduceCtorEq] at h <;> subst h <;>
    simp [← BitVec.toNat_inj, hn]

end Sys2Proof
end

