-- ==== Sys2Proof/Laws/State.lean ====
section
/-! SUPPORT. One lemma per field per update of State: what each shared operation leaves in each field, true by rfl (or by the one
case split of an operation that tests a flag). No later proof unfolds a record update. -/

namespace Sys2Proof.Machine

open Sys2Proof

variable {P : Params}

section Updates

variable (s : State P)

/-! ### Finishing an operation -/

@[simp] theorem respond_mem (r : Response P) : (respond r s).mem = s.mem := rfl
@[simp] theorem respond_enc (r : Response P) : (respond r s).enc = s.enc := rfl
@[simp] theorem respond_dec (r : Response P) : (respond r s).dec = s.dec := rfl
@[simp] theorem respond_resets (r : Response P) : (respond r s).resets = s.resets := rfl
@[simp] theorem respond_events (r : Response P) : (respond r s).events = s.events := rfl
@[simp] theorem respond_resp (r : Response P) : (respond r s).resp = r := rfl

@[simp] theorem respCode_mem (c : RespCode) : (respCode c s).mem = s.mem := rfl
@[simp] theorem respCode_enc (c : RespCode) : (respCode c s).enc = s.enc := rfl
@[simp] theorem respCode_dec (c : RespCode) : (respCode c s).dec = s.dec := rfl
@[simp] theorem respCode_resets (c : RespCode) : (respCode c s).resets = s.resets := rfl
@[simp] theorem respCode_events (c : RespCode) : (respCode c s).events = s.events := rfl
@[simp] theorem respCode_resp (c : RespCode) : (respCode c s).resp = .code c := rfl

@[simp] theorem notReady_mem : (notReady s).mem = s.mem := rfl
@[simp] theorem notReady_enc : (notReady s).enc = s.enc := rfl
@[simp] theorem notReady_dec : (notReady s).dec = s.dec := rfl
@[simp] theorem notReady_resets : (notReady s).resets = s.resets := rfl
@[simp] theorem notReady_events : (notReady s).events = s.events := rfl
@[simp] theorem notReady_resp : (notReady s).resp = .notReady := rfl

@[simp] theorem idleStep_mem : (idleStep s).mem = s.mem := rfl
@[simp] theorem idleStep_enc : (idleStep s).enc = s.enc := rfl
@[simp] theorem idleStep_dec : (idleStep s).dec = s.dec := rfl
@[simp] theorem idleStep_resets : (idleStep s).resets = s.resets := rfl
@[simp] theorem idleStep_events : (idleStep s).events = s.events := rfl
@[simp] theorem idleStep_resp : (idleStep s).resp = .idle := rfl

/-! ### Taking and leaving a fault -/

@[simp] theorem raise_unknownSymbol_mem (sym : Symbol P) : (raise (.unknownSymbol sym) s).mem = s.mem := rfl
@[simp] theorem raise_unknownSymbol_enc (sym : Symbol P) : (raise (.unknownSymbol sym) s).enc = { s.enc with fault := .unknown, errsym := sym, isOpen := true } := rfl
@[simp] theorem raise_unknownSymbol_dec (sym : Symbol P) : (raise (.unknownSymbol sym) s).dec = s.dec := rfl
@[simp] theorem raise_unknownSymbol_resets (sym : Symbol P) : (raise (.unknownSymbol sym) s).resets = s.resets := rfl
@[simp] theorem raise_unknownSymbol_events (sym : Symbol P) : (raise (.unknownSymbol sym) s).events = s.events := rfl
@[simp] theorem raise_unknownSymbol_resp (sym : Symbol P) : (raise (.unknownSymbol sym) s).resp = .code .errUnknownSymbol := rfl

@[simp] theorem raise_truncatedStream_mem : (raise .truncatedStream s).mem = s.mem := rfl
@[simp] theorem raise_truncatedStream_enc : (raise .truncatedStream s).enc = s.enc := rfl
@[simp] theorem raise_truncatedStream_dec : (raise .truncatedStream s).dec = { s.dec with fault := .truncated, isOpen := true } := rfl
@[simp] theorem raise_truncatedStream_resets : (raise .truncatedStream s).resets = s.resets := rfl
@[simp] theorem raise_truncatedStream_events : (raise .truncatedStream s).events = s.events := rfl
@[simp] theorem raise_truncatedStream_resp : (raise .truncatedStream s).resp = .code .errTruncatedStream := rfl

@[simp] theorem raise_badTree_mem (h : Handle P) : (raise (.badTree h) s).mem = s.mem := rfl
@[simp] theorem raise_badTree_enc (h : Handle P) : (raise (.badTree h) s).enc = s.enc := rfl
@[simp] theorem raise_badTree_dec (h : Handle P) : (raise (.badTree h) s).dec = { s.dec with fault := .badTree, cur := h, isOpen := true } := rfl
@[simp] theorem raise_badTree_resets (h : Handle P) : (raise (.badTree h) s).resets = s.resets := rfl
@[simp] theorem raise_badTree_events (h : Handle P) : (raise (.badTree h) s).events = s.events := rfl
@[simp] theorem raise_badTree_resp (h : Handle P) : (raise (.badTree h) s).resp = .code .errBadTree := rfl

@[simp] theorem clearEnc_mem : (clearEnc s).mem = s.mem := rfl
@[simp] theorem clearEnc_enc : (clearEnc s).enc = EncUnit.reset := rfl
@[simp] theorem clearEnc_dec : (clearEnc s).dec = s.dec := rfl
@[simp] theorem clearEnc_resets : (clearEnc s).resets = s.resets := rfl
@[simp] theorem clearEnc_events : (clearEnc s).events = s.events := rfl
@[simp] theorem clearEnc_resp : (clearEnc s).resp = s.resp := rfl

@[simp] theorem clearDec_mem : (clearDec s).mem = s.mem := rfl
@[simp] theorem clearDec_enc : (clearDec s).enc = s.enc := rfl
@[simp] theorem clearDec_dec : (clearDec s).dec = DecUnit.reset := rfl
@[simp] theorem clearDec_resets : (clearDec s).resets = s.resets := rfl
@[simp] theorem clearDec_events : (clearDec s).events = s.events := rfl
@[simp] theorem clearDec_resp : (clearDec s).resp = s.resp := rfl

/-! ### Streams and queues -/

@[simp] theorem pushEnc_mem (es : List (EncEntry P)) : (pushEnc es s).mem = s.mem := rfl
@[simp] theorem pushEnc_enc (es : List (EncEntry P)) : (pushEnc es s).enc = { s.enc with q := s.enc.q ++ es } := rfl
@[simp] theorem pushEnc_dec (es : List (EncEntry P)) : (pushEnc es s).dec = s.dec := rfl
@[simp] theorem pushEnc_resets (es : List (EncEntry P)) : (pushEnc es s).resets = s.resets := rfl
@[simp] theorem pushEnc_events (es : List (EncEntry P)) : (pushEnc es s).events = s.events := rfl
@[simp] theorem pushEnc_resp (es : List (EncEntry P)) : (pushEnc es s).resp = s.resp := rfl

@[simp] theorem pushDec_mem (e : DecEntry P) : (pushDec e s).mem = s.mem := rfl
@[simp] theorem pushDec_enc (e : DecEntry P) : (pushDec e s).enc = s.enc := rfl
@[simp] theorem pushDec_dec (e : DecEntry P) : (pushDec e s).dec = { s.dec with q := s.dec.q ++ [e] } := rfl
@[simp] theorem pushDec_resets (e : DecEntry P) : (pushDec e s).resets = s.resets := rfl
@[simp] theorem pushDec_events (e : DecEntry P) : (pushDec e s).events = s.events := rfl
@[simp] theorem pushDec_resp (e : DecEntry P) : (pushDec e s).resp = s.resp := rfl

@[simp] theorem zeroEncCountersIfClosed_mem : (zeroEncCountersIfClosed s).mem = s.mem := by
  unfold zeroEncCountersIfClosed; split <;> rfl
@[simp] theorem zeroEncCountersIfClosed_enc : (zeroEncCountersIfClosed s).enc = if s.enc.isOpen then s.enc else { s.enc with bits := 0, syms := 0 } := by
  unfold zeroEncCountersIfClosed; split <;> rfl
@[simp] theorem zeroEncCountersIfClosed_dec : (zeroEncCountersIfClosed s).dec = s.dec := by
  unfold zeroEncCountersIfClosed; split <;> rfl
@[simp] theorem zeroEncCountersIfClosed_resets : (zeroEncCountersIfClosed s).resets = s.resets := by
  unfold zeroEncCountersIfClosed; split <;> rfl
@[simp] theorem zeroEncCountersIfClosed_events : (zeroEncCountersIfClosed s).events = s.events := by
  unfold zeroEncCountersIfClosed; split <;> rfl
@[simp] theorem zeroEncCountersIfClosed_resp : (zeroEncCountersIfClosed s).resp = s.resp := by
  unfold zeroEncCountersIfClosed; split <;> rfl

@[simp] theorem zeroDecCountersIfClosed_mem : (zeroDecCountersIfClosed s).mem = s.mem := by
  unfold zeroDecCountersIfClosed; split <;> rfl
@[simp] theorem zeroDecCountersIfClosed_enc : (zeroDecCountersIfClosed s).enc = s.enc := by
  unfold zeroDecCountersIfClosed; split <;> rfl
@[simp] theorem zeroDecCountersIfClosed_dec : (zeroDecCountersIfClosed s).dec = if s.dec.isOpen then s.dec else { s.dec with bits := 0, syms := 0 } := by
  unfold zeroDecCountersIfClosed; split <;> rfl
@[simp] theorem zeroDecCountersIfClosed_resets : (zeroDecCountersIfClosed s).resets = s.resets := by
  unfold zeroDecCountersIfClosed; split <;> rfl
@[simp] theorem zeroDecCountersIfClosed_events : (zeroDecCountersIfClosed s).events = s.events := by
  unfold zeroDecCountersIfClosed; split <;> rfl
@[simp] theorem zeroDecCountersIfClosed_resp : (zeroDecCountersIfClosed s).resp = s.resp := by
  unfold zeroDecCountersIfClosed; split <;> rfl

@[simp] theorem openDec_mem : (openDec s).mem = s.mem := by
  unfold openDec zeroDecCountersIfClosed; split <;> simp [*]
@[simp] theorem openDec_enc : (openDec s).enc = s.enc := by
  unfold openDec zeroDecCountersIfClosed; split <;> simp [*]
@[simp] theorem openDec_dec : (openDec s).dec = { s.dec with
    isOpen := true, bits := if s.dec.isOpen then s.dec.bits else 0,
    syms := if s.dec.isOpen then s.dec.syms else 0 } := by
  unfold openDec zeroDecCountersIfClosed; split <;> simp [*]
@[simp] theorem openDec_resets : (openDec s).resets = s.resets := by
  unfold openDec zeroDecCountersIfClosed; split <;> simp [*]
@[simp] theorem openDec_events : (openDec s).events = s.events := by
  unfold openDec zeroDecCountersIfClosed; split <;> simp [*]
@[simp] theorem openDec_resp : (openDec s).resp = s.resp := by
  unfold openDec zeroDecCountersIfClosed; split <;> simp [*]

@[simp] theorem emitSymbol_mem (sym : Symbol P) : (emitSymbol sym s).mem = s.mem := rfl
@[simp] theorem emitSymbol_enc (sym : Symbol P) : (emitSymbol sym s).enc = s.enc := rfl
@[simp] theorem emitSymbol_dec (sym : Symbol P) : (emitSymbol sym s).dec = { s.dec with
    q := s.dec.q ++ [symEntry sym], mid := false,
    bits := s.dec.bits + 1, syms := s.dec.syms + 1 } := rfl
@[simp] theorem emitSymbol_resets (sym : Symbol P) : (emitSymbol sym s).resets = s.resets := rfl
@[simp] theorem emitSymbol_events (sym : Symbol P) : (emitSymbol sym s).events = s.events := rfl
@[simp] theorem emitSymbol_resp (sym : Symbol P) : (emitSymbol sym s).resp = .code .ok := rfl

@[simp] theorem descend_mem (c : Handle P) : (descend c s).mem = s.mem := rfl
@[simp] theorem descend_enc (c : Handle P) : (descend c s).enc = s.enc := rfl
@[simp] theorem descend_dec (c : Handle P) : (descend c s).dec = { s.dec with cur := c, mid := true, bits := s.dec.bits + 1 } := rfl
@[simp] theorem descend_resets (c : Handle P) : (descend c s).resets = s.resets := rfl
@[simp] theorem descend_events (c : Handle P) : (descend c s).events = s.events := rfl
@[simp] theorem descend_resp (c : Handle P) : (descend c s).resp = .code .ok := rfl

@[simp] theorem appendCode_mem (e : CodeEntry P) : (appendCode e s).mem = s.mem := by
  unfold appendCode zeroEncCountersIfClosed; split <;> simp [*]
@[simp] theorem appendCode_enc (e : CodeEntry P) : (appendCode e s).enc = { s.enc with
    q := s.enc.q ++ fullWords (s.enc.acc ++ codebits e) (wordsCompleted s e.len.toNat), isOpen := true,
    acc := (s.enc.acc ++ codebits e).drop (wordsCompleted s e.len.toNat * P.WORD_W),
    bits := (if s.enc.isOpen then s.enc.bits else 0) + BitVec.ofNat P.CNT_W e.len.toNat,
    syms := (if s.enc.isOpen then s.enc.syms else 0) + 1 } := by
  unfold appendCode zeroEncCountersIfClosed; split <;> simp [*]
@[simp] theorem appendCode_dec (e : CodeEntry P) : (appendCode e s).dec = s.dec := by
  unfold appendCode zeroEncCountersIfClosed; split <;> simp [*]
@[simp] theorem appendCode_resets (e : CodeEntry P) : (appendCode e s).resets = s.resets := by
  unfold appendCode zeroEncCountersIfClosed; split <;> simp [*]
@[simp] theorem appendCode_events (e : CodeEntry P) : (appendCode e s).events = s.events := by
  unfold appendCode zeroEncCountersIfClosed; split <;> simp [*]
@[simp] theorem appendCode_resp (e : CodeEntry P) : (appendCode e s).resp = .code .ok := by
  unfold appendCode zeroEncCountersIfClosed; split <;> simp [*]

@[simp] theorem endEncStream_mem : (endEncStream s).mem = s.mem := by
  unfold endEncStream zeroEncCountersIfClosed; split <;> simp [*]
@[simp] theorem endEncStream_enc : (endEncStream s).enc = { s.enc with
    q := s.enc.q ++ [endWord s.enc.acc], acc := [], isOpen := false,
    bits := if s.enc.isOpen then s.enc.bits else 0, syms := if s.enc.isOpen then s.enc.syms else 0 } := by
  unfold endEncStream zeroEncCountersIfClosed; split <;> simp [*]
@[simp] theorem endEncStream_dec : (endEncStream s).dec = s.dec := by
  unfold endEncStream zeroEncCountersIfClosed; split <;> simp [*]
@[simp] theorem endEncStream_resets : (endEncStream s).resets = s.resets := by
  unfold endEncStream zeroEncCountersIfClosed; split <;> simp [*]
@[simp] theorem endEncStream_events : (endEncStream s).events = s.events := by
  unfold endEncStream zeroEncCountersIfClosed; split <;> simp [*]
@[simp] theorem endEncStream_resp : (endEncStream s).resp = .code .ok := by
  unfold endEncStream zeroEncCountersIfClosed; split <;> simp [*]

@[simp] theorem truncateDecStream_mem : (truncateDecStream s).mem = s.mem := by
  unfold truncateDecStream zeroDecCountersIfClosed; split <;> simp [*]
@[simp] theorem truncateDecStream_enc : (truncateDecStream s).enc = s.enc := by
  unfold truncateDecStream zeroDecCountersIfClosed; split <;> simp [*]
@[simp] theorem truncateDecStream_dec : (truncateDecStream s).dec = { s.dec with
    q := s.dec.q ++ [endEntry true], fault := .truncated, isOpen := true,
    bits := if s.dec.isOpen then s.dec.bits else 0, syms := if s.dec.isOpen then s.dec.syms else 0 } := by
  unfold truncateDecStream zeroDecCountersIfClosed; split <;> simp [*]
@[simp] theorem truncateDecStream_resets : (truncateDecStream s).resets = s.resets := by
  unfold truncateDecStream zeroDecCountersIfClosed; split <;> simp [*]
@[simp] theorem truncateDecStream_events : (truncateDecStream s).events = s.events := by
  unfold truncateDecStream zeroDecCountersIfClosed; split <;> simp [*]
@[simp] theorem truncateDecStream_resp : (truncateDecStream s).resp = .code .errTruncatedStream := by
  unfold truncateDecStream zeroDecCountersIfClosed; split <;> simp [*]

@[simp] theorem endDecStream_mem : (endDecStream s).mem = s.mem := by
  unfold endDecStream zeroDecCountersIfClosed; split <;> simp [*]
@[simp] theorem endDecStream_enc : (endDecStream s).enc = s.enc := by
  unfold endDecStream zeroDecCountersIfClosed; split <;> simp [*]
@[simp] theorem endDecStream_dec : (endDecStream s).dec = { s.dec with
    q := s.dec.q ++ [endEntry false], isOpen := false,
    bits := if s.dec.isOpen then s.dec.bits else 0, syms := if s.dec.isOpen then s.dec.syms else 0 } := by
  unfold endDecStream zeroDecCountersIfClosed; split <;> simp [*]
@[simp] theorem endDecStream_resets : (endDecStream s).resets = s.resets := by
  unfold endDecStream zeroDecCountersIfClosed; split <;> simp [*]
@[simp] theorem endDecStream_events : (endDecStream s).events = s.events := by
  unfold endDecStream zeroDecCountersIfClosed; split <;> simp [*]
@[simp] theorem endDecStream_resp : (endDecStream s).resp = .code .ok := by
  unfold endDecStream zeroDecCountersIfClosed; split <;> simp [*]

/-! ### Steps that are no operation -/

@[simp] theorem hardReset_mem : (hardReset s).mem = Memory.reset (s.resets + 1) := rfl
@[simp] theorem hardReset_enc : (hardReset s).enc = EncUnit.reset := rfl
@[simp] theorem hardReset_dec : (hardReset s).dec = DecUnit.reset := rfl
@[simp] theorem hardReset_resets : (hardReset s).resets = s.resets + 1 := rfl
@[simp] theorem hardReset_events : (hardReset s).events = s.events := rfl
@[simp] theorem hardReset_resp : (hardReset s).resp = .idle := rfl

@[simp] theorem clockEdge_mem (sig : PortSignals P) (hold : BitVec 7) : (clockEdge sig hold s).mem = s.mem := rfl
@[simp] theorem clockEdge_enc (sig : PortSignals P) (hold : BitVec 7) : (clockEdge sig hold s).enc = s.enc := rfl
@[simp] theorem clockEdge_dec (sig : PortSignals P) (hold : BitVec 7) : (clockEdge sig hold s).dec = s.dec := rfl
@[simp] theorem clockEdge_resets (sig : PortSignals P) (hold : BitVec 7) : (clockEdge sig hold s).resets = s.resets := rfl
@[simp] theorem clockEdge_events (sig : PortSignals P) (hold : BitVec 7) : (clockEdge sig hold s).events =
    (acceptedAtEdge sig hold s).map HostEvent.offer ++ s.events := rfl
@[simp] theorem clockEdge_resp (sig : PortSignals P) (hold : BitVec 7) : (clockEdge sig hold s).resp =
    .edge (portMask (acceptedAtEdge sig hold s)) (portOutputs sig hold s) := rfl

end Updates

end Sys2Proof.Machine
end

