-- ==== Sys2Proof/Laws/Ops.lean ====
section
/-! SUPPORT. What the shared operations do, once: read after write of the two stores, that every write keeps the
canonical form, the length and form of codes, and that packing and unpacking undo each other. -/

namespace Sys2Proof.Machine

open Sys2Proof

variable {P : Params}

/-! ### Read after write -/

section Cells

variable {α : Type}

theorem cellGet_cellPut (cs : List (Nat × α)) (i j : Nat) (v : α) :
    cellGet (cellPut cs i v) j = if i = j then some v else cellGet cs j := by
  induction cs with
  | nil => simp [cellPut, cellGet]
  | cons c rest ih =>
    obtain ⟨k, w⟩ := c
    simp only [cellPut]
    split
    · simp [cellGet]
    · split
      · subst_vars
        simp only [cellGet]
        split <;> rfl
      · simp only [cellGet, ih]
        by_cases h : k = j
        · subst h
          simp [*]
        · simp [h]

theorem cellGet_cellDrop (cs : List (Nat × α)) (i j : Nat) :
    cellGet (cellDrop cs i) j = if i = j then none else cellGet cs j := by
  induction cs with
  | nil => simp [cellDrop, cellGet]
  | cons c rest ih =>
    obtain ⟨k, w⟩ := c
    simp only [cellDrop]
    split
    · subst_vars
      rw [ih]
      by_cases h : k = j <;> simp [cellGet, h]
    · simp only [cellGet, ih]
      by_cases h : k = j
      · subst h
        simp [Ne.symm ‹_›]
      · simp [h]

/-- The keys of a list after listing an entry: the old ones and the new one. -/
theorem mem_cellPut {cs : List (Nat × α)} {i : Nat} {v : α} {c : Nat × α} (h : c ∈ cellPut cs i v) :
    c = (i, v) ∨ c ∈ cs := by
  induction cs with
  | nil => simpa [cellPut] using h
  | cons d rest ih =>
    obtain ⟨k, w⟩ := d
    simp only [cellPut] at h
    split at h
    · simpa using h
    · split at h
      · simp only [List.mem_cons] at h ⊢
        exact h.imp id Or.inr
      · simp only [List.mem_cons] at h ⊢
        rcases h with h | h
        · exact Or.inr (Or.inl h)
        · exact (ih h).imp id Or.inr

theorem mem_cellDrop {cs : List (Nat × α)} {i : Nat} {c : Nat × α} (h : c ∈ cellDrop cs i) : c ∈ cs := by
  induction cs with
  | nil => simp [cellDrop] at h
  | cons d rest ih =>
    obtain ⟨k, w⟩ := d
    simp only [cellDrop] at h
    split at h
    · exact List.mem_cons_of_mem _ (ih h)
    · rcases List.mem_cons.1 h with h | h
      · simp [h]
      · exact List.mem_cons_of_mem _ (ih h)

/-- Listing an entry keeps the indices strictly rising. -/
theorem cellPut_rising {cs : List (Nat × α)} (i : Nat) (v : α) (h : (cs.map Prod.fst).Pairwise (· < ·)) :
    ((cellPut cs i v).map Prod.fst).Pairwise (· < ·) := by
  induction cs with
  | nil => simp [cellPut]
  | cons d rest ih =>
    obtain ⟨k, w⟩ := d
    simp only [List.map_cons, List.pairwise_cons, List.mem_map, forall_exists_index, and_imp] at h
    obtain ⟨hk, hr⟩ := h
    simp only [cellPut]
    split
    · rename_i hik
      simp only [List.map_cons, List.pairwise_cons, List.mem_cons, List.mem_map, forall_exists_index, and_imp]
      refine ⟨?_, hk, hr⟩
      rintro a (rfl | ⟨c, hc, rfl⟩)
      · exact hik
      · exact hik.trans (hk _ _ hc rfl)
    · split
      · subst_vars
        simpa using ⟨fun a b hb => hk a ⟨a, b⟩ hb rfl, hr⟩
      · simp only [List.map_cons, List.pairwise_cons, List.mem_map, forall_exists_index, and_imp]
        refine ⟨?_, ih hr⟩
        rintro a c hc rfl
        rcases mem_cellPut hc with rfl | hc
        · simp only
          omega
        · exact hk _ _ hc rfl

/-- Listing no entry keeps the indices strictly rising. -/
theorem cellDrop_rising {cs : List (Nat × α)} (i : Nat) (h : (cs.map Prod.fst).Pairwise (· < ·)) :
    ((cellDrop cs i).map Prod.fst).Pairwise (· < ·) := by
  induction cs with
  | nil => simp [cellDrop]
  | cons d rest ih =>
    obtain ⟨k, w⟩ := d
    simp only [List.map_cons, List.pairwise_cons, List.mem_map, forall_exists_index, and_imp] at h
    obtain ⟨hk, hr⟩ := h
    simp only [cellDrop]
    split
    · exact ih hr
    · simp only [List.map_cons, List.pairwise_cons, List.mem_map, forall_exists_index, and_imp]
      exact ⟨fun a c hc hca => hk a c (mem_cellDrop hc) hca, ih hr⟩

end Cells

/-- Read after write of the code table: the written entry reads as written, every other entry as before. -/
theorem ctRead_ctWrite (m : Memory P) (sym sym' : Symbol P) (e : CodeEntry P) :
    ctRead (ctWrite m sym e) sym' = if sym = sym' then e else ctRead m sym' := by
  have hk : sym.toNat = sym'.toNat ↔ sym = sym' := BitVec.toNat_inj
  unfold ctRead ctWrite storeWrite
  cases hb : m.ct.base <;> simp only
  · rw [cellGet_cellPut]
    by_cases h : sym = sym' <;> simp [h, hk]
  · by_cases he : e = CodeEntry.absent
    · simp only [he, if_true, cellGet_cellDrop]
      by_cases h : sym = sym' <;> simp [h, hk, ctUnlisted]
    · simp only [he, if_false, cellGet_cellPut]
      by_cases h : sym = sym' <;> simp [h, hk]

/-- Read after write of the node store. -/
theorem tnRead_tnWrite (m : Memory P) (h h' : Handle P) (n : TreeNode P) :
    tnRead (tnWrite m h n) h' = if h = h' then n else tnRead m h' := by
  have hk : h.toNat = h'.toNat ↔ h = h' := BitVec.toNat_inj
  unfold tnRead tnWrite storeWrite
  cases hb : m.tn.base <;> simp only
  · rw [cellGet_cellPut]
    by_cases hh : h = h' <;> simp [hh, hk]
  · by_cases he : n = TreeNode.emptySlot
    · simp only [he, if_true, cellGet_cellDrop]
      by_cases hh : h = h' <;> simp [hh, hk, tnUnlisted]
    · simp only [he, if_false, cellGet_cellPut]
      by_cases hh : h = h' <;> simp [hh, hk]

@[simp] theorem tnRead_ctWrite (m : Memory P) (sym : Symbol P) (e : CodeEntry P) (h : Handle P) :
    tnRead (ctWrite m sym e) h = tnRead m h := rfl

@[simp] theorem ctRead_tnWrite (m : Memory P) (h : Handle P) (n : TreeNode P) (sym : Symbol P) :
    ctRead (tnWrite m h n) sym = ctRead m sym := rfl

@[simp] theorem ctRead_withRoot (m : Memory P) (r : Handle P) (sym : Symbol P) :
    ctRead { m with root := r } sym = ctRead m sym := rfl

@[simp] theorem tnRead_withRoot (m : Memory P) (r : Handle P) (h : Handle P) :
    tnRead { m with root := r } h = tnRead m h := rfl

@[simp] theorem ctWrite_root (m : Memory P) (sym : Symbol P) (e : CodeEntry P) : (ctWrite m sym e).root = m.root := rfl

@[simp] theorem tnWrite_root (m : Memory P) (h : Handle P) (n : TreeNode P) : (tnWrite m h n).root = m.root := rfl

@[simp] theorem ctRead_cleared (sym : Symbol P) : ctRead Memory.cleared sym = CodeEntry.absent := rfl

@[simp] theorem tnRead_cleared (h : Handle P) : tnRead Memory.cleared h = TreeNode.emptySlot := rfl

/-! ### The canonical form is kept -/

theorem Store.wf_iff {α : Type} [DecidableEq α] (empty : α) (bound : Nat) (st : Store α) :
    Store.wf empty bound st = true ↔
      (st.cells.map Prod.fst).Pairwise (· < ·) ∧ (∀ c ∈ st.cells, c.1 < bound) ∧
      (st.base = .cleared → ∀ c ∈ st.cells, c.2 ≠ empty) := by
  unfold Store.wf
  cases hb : st.base <;> simp [and_assoc]

theorem storeWrite_keeps_wf {α : Type} [DecidableEq α] (empty : α) (bound : Nat) (st : Store α) (i : Nat) (v : α)
    (hi : i < bound) (h : Store.wf empty bound st = true) : Store.wf empty bound (storeWrite empty st i v) = true := by
  rw [Store.wf_iff] at h ⊢
  obtain ⟨hs, hb, he⟩ := h
  unfold storeWrite
  cases hbase : st.base <;> simp only
  · refine ⟨cellPut_rising i v hs, ?_, by simp⟩
    intro c hc
    rcases mem_cellPut hc with rfl | hc
    · exact hi
    · exact hb c hc
  · by_cases hv : v = empty
    · simp only [hv, if_true]
      exact ⟨cellDrop_rising i hs, fun c hc => hb c (mem_cellDrop hc), fun _ c hc => he hbase c (mem_cellDrop hc)⟩
    · simp only [hv, if_false]
      refine ⟨cellPut_rising i v hs, ?_, ?_⟩
      · intro c hc
        rcases mem_cellPut hc with rfl | hc
        · exact hi
        · exact hb c hc
      · intro _ c hc
        rcases mem_cellPut hc with rfl | hc
        · exact hv
        · exact he hbase c hc

theorem ctWrite_keeps_wf (m : Memory P) (sym : Symbol P) (e : CodeEntry P) (h : m.wf = true) : (ctWrite m sym e).wf = true := by
  simp only [Memory.wf, Bool.and_eq_true] at h ⊢
  exact ⟨storeWrite_keeps_wf _ _ _ _ _ (P.nsym_eq ▸ sym.isLt) h.1, h.2⟩

theorem tnWrite_keeps_wf (m : Memory P) (h : Handle P) (n : TreeNode P) (hm : m.wf = true) : (tnWrite m h n).wf = true := by
  simp only [Memory.wf, Bool.and_eq_true] at hm ⊢
  exact ⟨hm.1, storeWrite_keeps_wf _ _ _ _ _ (P.nnode_eq ▸ h.isLt) hm.2⟩

theorem withRoot_keeps_wf (m : Memory P) (r : Handle P) (h : m.wf = true) : ({ m with root := r } : Memory P).wf = true := h

theorem cleared_wf : (Memory.cleared : Memory P).wf = true := rfl

theorem reset_mem_wf (draw : Nat) : (Memory.reset draw : Memory P).wf = true := by
  simp [Memory.reset, Memory.wf, Store.wf]

/-! ### Codes -/

@[simp] theorem codebits_length (e : CodeEntry P) : (codebits e).length = e.len.toNat := by
  simp [codebits]

/-- `codebits` bit by bit (R14). -/
theorem codebits_getElem (e : CodeEntry P) (i : Nat) (h : i < (codebits e).length) :
    (codebits e)[i] = e.code.getLsbD (e.len.toNat - 1 - i) := by
  simp [codebits]

@[simp] theorem storedCode_len (len : CodeLen P) (code : CodeInt P) : (storedCode len code).len = len := by
  unfold storedCode
  split
  · simp [CodeEntry.absent, *]
  · rfl

/-- What CFG_CODE stores is canonical (R24, R123). -/
theorem storedCode_canonical (len : CodeLen P) (code : CodeInt P) : (storedCode len code).canonical = true := by
  unfold storedCode
  split
  · simp [CodeEntry.canonical, codeFits, CodeEntry.absent]
  · simp only [CodeEntry.canonical, codeFits, decide_eq_true_eq, BitVec.toNat_setWidth]
    exact lt_of_le_of_lt (Nat.mod_le _ _) (Nat.mod_lt _ (by positivity))

/-! ### Packing (R15) -/

theorem bitsToNat_append_singleton (s : Bits) (b : Bool) : bitsToNat (s ++ [b]) = 2 * bitsToNat s + b.toNat := by
  simp [bitsToNat]

/-- The integer of a bit sequence is below two to its length. -/
theorem bitsToNat_lt (s : Bits) : bitsToNat s < 2 ^ s.length := by
  induction s using List.reverseRecOn with
  | nil => simp [bitsToNat]
  | append_singleton s b ih =>
    rw [bitsToNat_append_singleton, List.length_append, List.length_singleton, pow_succ]
    cases b <;> simp <;> omega

/-- Bit `|s| - 1 - i` of the integer is bit `i` of the sequence: the first bit is the most significant. -/
theorem bitsToNat_testBit (s : Bits) (i : Nat) (h : i < s.length) :
    (bitsToNat s).testBit (s.length - 1 - i) = s[i] := by
  induction s using List.reverseRecOn with
  | nil => simp at h
  | append_singleton s b ih =>
    rw [bitsToNat_append_singleton]
    simp only [List.length_append, List.length_singleton] at h ⊢
    by_cases hi : i = s.length
    · subst hi
      have : s.length + 1 - 1 - s.length = 0 := by omega
      rw [this]
      cases b <;> simp [Nat.testBit_zero]
    · have hlt : i < s.length := by omega
      have : s.length + 1 - 1 - i = (s.length - 1 - i) + 1 := by omega
      rw [this, Nat.testBit_succ]
      have hd : (2 * bitsToNat s + b.toNat) / 2 = bitsToNat s := by
        have := Bool.toNat_lt b
        omega
      rw [hd, ih hlt]
      simp [hlt]

/-- `pack` bit by bit (R15). -/
theorem pack_getLsbD (s : Bits) (h : s.length = P.WORD_W) (i : Nat) (hi : i < P.WORD_W) :
    (pack s : PackedWord P).getLsbD (P.WORD_W - 1 - i) = s[i]'(by omega) := by
  have this := bitsToNat_testBit s i (by omega)
  have hpos : s.length - 1 - i = P.WORD_W - 1 - i := by omega
  rw [hpos] at this
  rw [pack, BitVec.getLsbD_ofNat, this, decide_eq_true (show P.WORD_W - 1 - i < P.WORD_W by omega), Bool.true_and]

/-- `unpackbits` of a packed sequence gives its first bits back (R15). -/
theorem unpackbits_pack (s : Bits) (h : s.length = P.WORD_W) (n : Nat) (hn : n ≤ P.WORD_W) :
    unpackbits (pack s : PackedWord P) n = s.take n := by
  apply List.ext_getElem
  · simp [unpackbits, h, hn]
  · intro i h1 h2
    have hi : i < P.WORD_W := by simp [unpackbits] at h1; omega
    simp only [unpackbits, List.getElem_map, List.getElem_range, List.getElem_take]
    exact pack_getLsbD s h i hi

@[simp] theorem unpack_nil : unpack ([] : List (EncEntry P)) = [] := rfl

@[simp] theorem unpack_append (es fs : List (EncEntry P)) : unpack (es ++ fs) = unpack es ++ unpack fs := by
  simp [unpack]

end Sys2Proof.Machine
end

