-- ==== Sys2Proof/Laws/Exec.lean ====
section
/-! SUPPORT. What each operation can do, once: exec always answers a next state, and one lemma per operation lists its
outcomes with the conditions that select them. Later proofs cite these instead of unfolding a meaning. -/

namespace Sys2Proof.Machine

open Sys2Proof

variable {P : Params}

/-- Every operation answers a next state: no operation of the block faults or is refused by the model (R11, R32). -/
theorem perform_eq_applyOp (i : Instr P) (s : State P) : perform i s = .next (applyOp i s) := by
  cases i <;> rfl

/-- At the defaults, `exec` is `perform`: the two lists of arms agree. -/
theorem exec_eq_perform (i : Instr) (s : State) : exec i s = perform i s := by
  cases i <;> rfl

theorem exec_eq_applyOp (i : Instr) (s : State) : exec i s = .next (applyOp i s) :=
  (exec_eq_perform i s).trans (perform_eq_applyOp i s)

theorem exec_eq_next_iff {i : Instr} {s t : State} : exec i s = .next t ↔ applyOp i s = t := by
  rw [exec_eq_applyOp]
  simp

/-! ### Configuration (R122 to R125) -/

theorem cfgClear_cases (s : State P) :
    ((s.enc.isOpen = true ∨ s.dec.isOpen = true) ∧ applyOp .cfgClear s = respCode .errBusy s) ∨
    (s.enc.isOpen = false ∧ s.dec.isOpen = false ∧
      applyOp .cfgClear s = respCode .ok { s with mem := Memory.cleared }) := by
  simp only [applyOp, perform, execCfgClear]
  cases he : s.enc.isOpen <;> cases hd : s.dec.isOpen <;> simp

theorem cfgCode_cases (sym : Symbol P) (len : CodeLen P) (code : CodeInt P) (s : State P) :
    (s.enc.isOpen = true ∧ applyOp (.cfgCode sym len code) s = respCode .errBusy s) ∨
    (s.enc.isOpen = false ∧ applyOp (.cfgCode sym len code) s =
      respCode .ok { s with mem := ctWrite s.mem sym (storedCode len code) }) := by
  simp only [applyOp, perform, execCfgCode]
  cases he : s.enc.isOpen <;> simp

theorem cfgNode_cases (h : Handle P) (kind : NodeKind) (left right : Handle P) (sym : Symbol P) (s : State P) :
    (s.dec.isOpen = true ∧ applyOp (.cfgNode h kind left right sym) s = respCode .errBusy s) ∨
    (s.dec.isOpen = false ∧ applyOp (.cfgNode h kind left right sym) s =
      respCode .ok { s with mem := tnWrite s.mem h ⟨kind, left, right, sym⟩ }) := by
  simp only [applyOp, perform, execCfgNode]
  cases he : s.dec.isOpen <;> simp

theorem cfgRoot_cases (h : Handle P) (s : State P) :
    (s.dec.isOpen = true ∧ applyOp (.cfgRoot h) s = respCode .errBusy s) ∨
    (s.dec.isOpen = false ∧ applyOp (.cfgRoot h) s = respCode .ok { s with mem := { s.mem with root := h } }) := by
  simp only [applyOp, perform, execCfgRoot]
  cases he : s.dec.isOpen <;> simp

/-! ### Encoder (R141 to R143) -/

theorem encPut_cases (sym : Symbol P) (s : State P) :
    (s.enc.fault ≠ .none ∧ applyOp (.encPut sym) s = respCode .errFaulted s) ∨
    (s.enc.fault = .none ∧ (ctRead s.mem sym).len = 0#P.LEN_W ∧
      applyOp (.encPut sym) s = raise (.unknownSymbol sym) (zeroEncCountersIfClosed s)) ∨
    (s.enc.fault = .none ∧ (ctRead s.mem sym).len ≠ 0#P.LEN_W ∧
      P.EQ_DEPTH - s.enc.q.length < wordsCompleted s (ctRead s.mem sym).len.toNat ∧
      applyOp (.encPut sym) s = notReady s) ∨
    (s.enc.fault = .none ∧ (ctRead s.mem sym).len ≠ 0#P.LEN_W ∧
      wordsCompleted s (ctRead s.mem sym).len.toNat ≤ P.EQ_DEPTH - s.enc.q.length ∧
      applyOp (.encPut sym) s = appendCode (ctRead s.mem sym) s) := by
  simp only [applyOp, perform, execEncPut]
  by_cases hf : s.enc.fault = .none
  · by_cases hl : (ctRead s.mem sym).len = 0#P.LEN_W
    · simp [hf, hl]
    · by_cases hk : P.EQ_DEPTH - s.enc.q.length < wordsCompleted s (ctRead s.mem sym).len.toNat
      · simp [hf, hl, hk]
      · simp [hf, hl, hk, Nat.le_of_not_lt hk]
  · simp [hf]

theorem encEnd_cases (s : State P) :
    (s.enc.fault ≠ .none ∧ applyOp .encEnd s = respCode .errFaulted s) ∨
    (s.enc.fault = .none ∧ s.enc.q.length = P.EQ_DEPTH ∧ applyOp .encEnd s = notReady s) ∨
    (s.enc.fault = .none ∧ s.enc.q.length ≠ P.EQ_DEPTH ∧ applyOp .encEnd s = endEncStream s) := by
  simp only [applyOp, perform, execEncEnd]
  by_cases hf : s.enc.fault = .none
  · by_cases hq : s.enc.q.length = P.EQ_DEPTH <;> simp [hf, hq]
  · simp [hf]

theorem encPop_cases (s : State P) :
    (s.enc.q = [] ∧ applyOp .encPop s = notReady s) ∨
    (∃ e rest, s.enc.q = e :: rest ∧
      applyOp .encPop s = respond (.word e) { s with enc := { s.enc with q := rest } }) := by
  simp only [applyOp, perform, execEncPop]
  cases hq : s.enc.q <;> simp

/-! ### Decoder (R161 to R163) -/

theorem enterChild_cases (c : Handle P) (s : State P) :
    ((tnRead s.mem c).kind = .leaf ∧ enterChild c s = emitSymbol (tnRead s.mem c).sym s) ∨
    ((tnRead s.mem c).kind = .internal ∧ enterChild c s = descend c s) ∨
    (((tnRead s.mem c).kind = .empty ∨ (tnRead s.mem c).kind = .placeholder) ∧
      enterChild c s = raise (.badTree c) s) := by
  unfold enterChild
  cases hk : (tnRead s.mem c).kind <;> simp

theorem decBit_cases (bit : Bool) (s : State P) :
    (s.dec.fault ≠ .none ∧ applyOp (.decBit bit) s = respCode .errFaulted s) ∨
    (s.dec.fault = .none ∧ s.dec.q.length = P.DQ_DEPTH ∧ applyOp (.decBit bit) s = notReady s) ∨
    (s.dec.fault = .none ∧ s.dec.q.length ≠ P.DQ_DEPTH ∧ (tnRead s.mem (decPosition s)).kind ≠ .internal ∧
      applyOp (.decBit bit) s = raise (.badTree (decPosition s)) (openDec s)) ∨
    (s.dec.fault = .none ∧ s.dec.q.length ≠ P.DQ_DEPTH ∧ (tnRead s.mem (decPosition s)).kind = .internal ∧
      applyOp (.decBit bit) s = enterChild ((tnRead s.mem (decPosition s)).child bit) (openDec s)) := by
  simp only [applyOp, perform, execDecBit]
  by_cases hf : s.dec.fault = .none
  · by_cases hq : s.dec.q.length = P.DQ_DEPTH
    · simp [hf, hq]
    · by_cases hk : (tnRead s.mem (decPosition s)).kind = .internal <;> simp [hf, hq, hk]
  · simp [hf]

theorem decEnd_cases (s : State P) :
    (s.dec.fault ≠ .none ∧ applyOp .decEnd s = respCode .errFaulted s) ∨
    (s.dec.fault = .none ∧ s.dec.q.length = P.DQ_DEPTH ∧ applyOp .decEnd s = notReady s) ∨
    (s.dec.fault = .none ∧ s.dec.q.length ≠ P.DQ_DEPTH ∧ s.dec.mid = true ∧
      applyOp .decEnd s = truncateDecStream s) ∨
    (s.dec.fault = .none ∧ s.dec.q.length ≠ P.DQ_DEPTH ∧ s.dec.mid = false ∧
      applyOp .decEnd s = endDecStream s) := by
  simp only [applyOp, perform, execDecEnd]
  by_cases hf : s.dec.fault = .none
  · by_cases hq : s.dec.q.length = P.DQ_DEPTH
    · simp [hf, hq]
    · cases hm : s.dec.mid <;> simp [hf, hq]
  · simp [hf]

theorem decPop_cases (s : State P) :
    (s.dec.q = [] ∧ applyOp .decPop s = notReady s) ∨
    (∃ e rest, s.dec.q = e :: rest ∧
      applyOp .decPop s = respond (.symbol e) { s with dec := { s.dec with q := rest } }) := by
  simp only [applyOp, perform, execDecPop]
  cases hq : s.dec.q <;> simp

/-- The step down to a child touches the decoder only. -/
theorem enterChild_frame (c : Handle P) (s : State P) :
    (enterChild c s).mem = s.mem ∧ (enterChild c s).enc = s.enc ∧ (enterChild c s).resets = s.resets ∧
    (enterChild c s).events = s.events := by
  rcases enterChild_cases c s with ⟨_, h⟩ | ⟨_, h⟩ | ⟨_, h⟩ <;> rw [h] <;> simp

/-! ### System (R181 to R185) -/

theorem applyOp_ctrlNop (s : State P) : applyOp .ctrlNop s = respCode .ok s := rfl

theorem applyOp_encClr (s : State P) : applyOp .encClr s = respCode .ok (clearEnc s) := rfl

theorem applyOp_decClr (s : State P) : applyOp .decClr s = respCode .ok (clearDec s) := rfl

theorem applyOp_allClr (s : State P) : applyOp .allClr s = respCode .ok (clearDec (clearEnc s)) := rfl

theorem applyOp_statRd (idx : BitVec 4) (s : State P) :
    applyOp (.statRd idx) s = respond (.value (statusRead idx s)) s := rfl

end Sys2Proof.Machine
end

