-- ==== Sys2Proof/Laws/Ports.lean ====
section
/-! SUPPORT. The port level (R70, R91): which words the host drives, when the block answers one, and that an operation which is
ready is answered with something else than `NotReady`. -/

namespace Sys2Proof.Machine

open Sys2Proof

variable {P : Params}

/-! ### Words -/

@[simp] theorem chanOf_wordOf {w : Nat} (p : BitVec w) (c : BitVec 3) : chanOf (wordOf p c : TWord P) = c := wordOf_chan p c

/-- The payload of a word that fits is read back (R94). -/
theorem wordOf_injective {w : Nat} {p q : BitVec w} {c : BitVec 3} (hw : w + 3 ≤ P.T_W)
    (h : (wordOf p c : TWord P) = wordOf q c) : p = q := by
  have hx := congrArg (fun t : TWord P => t.extractLsb' 3 w) h
  simp only [wordOf_extract (P := P) _ _ 3 w le_rfl (by omega)] at hx
  simpa using hx

/-- The words the host drives, port by port. -/
theorem mem_drivenTransfers {sig : PortSignals P} {t : TWord P} :
    t ∈ drivenTransfers sig ↔
      (∃ d, sig.ctrl = some d ∧ t = wordOf d 0) ∨ (∃ d, sig.cfg = some d ∧ t = wordOf d 1) ∨
      (∃ d, sig.stat = some d ∧ t = wordOf d 6) ∨ (sig.wordOut = true ∧ t = wordOf 0#0 3) ∨
      (sig.symOut = true ∧ t = wordOf 0#0 5) ∨ (∃ d, sig.symIn = some d ∧ t = wordOf d 2) ∨
      (∃ d, sig.bitIn = some d ∧ t = wordOf d 4) := by
  have opt : ∀ {n : Nat} (o : Option (BitVec n)) (c : BitVec 3),
      t ∈ (o.map fun d => (wordOf d c : TWord P)).toList ↔ ∃ d, o = some d ∧ t = wordOf d c := by
    intro n o c
    cases o <;> simp
  have ite : ∀ (b : Bool) (w : TWord P), t ∈ (if b then [w] else []) ↔ b = true ∧ t = w := by
    intro b w
    cases b <;> simp
  simp only [drivenTransfers, List.mem_append, opt, ite, or_assoc]

/-- The host drives at most one word on each port. -/
theorem drivenTransfers_unique {sig : PortSignals P} {v w : TWord P} (hv : v ∈ drivenTransfers sig)
    (hw : w ∈ drivenTransfers sig) (h : chanOf v = chanOf w) : v = w := by
  rw [mem_drivenTransfers] at hv hw
  rcases hv with ⟨d, h1, rfl⟩ | ⟨d, h1, rfl⟩ | ⟨d, h1, rfl⟩ | ⟨h1, rfl⟩ | ⟨h1, rfl⟩ | ⟨d, h1, rfl⟩ | ⟨d, h1, rfl⟩ <;>
  rcases hw with ⟨e, h2, rfl⟩ | ⟨e, h2, rfl⟩ | ⟨e, h2, rfl⟩ | ⟨h2, rfl⟩ | ⟨h2, rfl⟩ | ⟨e, h2, rfl⟩ | ⟨e, h2, rfl⟩ <;>
  simp only [chanOf_wordOf] at h <;>
  first | exact absurd h (by decide) | rfl | (rw [h1] at h2; cases h2; rfl)

/-- An operation belongs to the port of its word (R95). -/
theorem chan_of_decode {t : TWord P} {i : Instr P} (h : decode t = .ok i) : i.chan = chanOf t := by
  rcases decode_ok_cases h with ⟨h1, h2⟩ | ⟨h1, h2⟩ | ⟨h1, h2⟩ | ⟨h1, h2⟩ | ⟨h1, h2⟩ | ⟨h1, h2⟩ | ⟨h1, h2⟩ <;>
  rw [chanOf, h1, h2] <;> try rfl
  · unfold decodeCtrl; split <;> rfl
  · unfold decodeCfg; split <;> rfl
  · unfold decodeSymIn; split <;> rfl
  · unfold decodeBitIn; split <;> rfl

theorem mem_acceptedAtEdge {sig : PortSignals P} {hold : BitVec 7} {s : State P} {t : TWord P} :
    t ∈ acceptedAtEdge sig hold s ↔ t ∈ drivenTransfers sig ∧ (answerAtEdge sig hold s t).isSome = true := by
  simp [acceptedAtEdge]

/-! ### Answers -/

/-- When the block answers a transfer, and with what. -/
theorem answerAtEdge_eq_some {sig : PortSignals P} {hold : BitVec 7} {s : State P} {t : TWord P} {r : Response P} :
    answerAtEdge sig hold s t = some r ↔
      ∃ i, decode t = .ok i ∧ portOpen sig hold (chanOf t) = true ∧ ready i s = true ∧ r = (applyOp i s).resp := by
  unfold answerAtEdge
  cases decode t with
  | error e => simp
  | ok i =>
    by_cases h : (portOpen sig hold (chanOf t) && ready i s) = true
    · simp only [h, if_true, Option.some.injEq, Except.ok.injEq]
      rw [Bool.and_eq_true] at h
      constructor
      · rintro rfl
        exact ⟨i, rfl, h.1, h.2, rfl⟩
      · rintro ⟨j, rfl, -, -, rfl⟩
        rfl
    · simp only [h, if_false, Except.ok.injEq, reduceCtorEq, false_iff, Bool.false_eq_true]
      rintro ⟨j, rfl, h1, h2, -⟩
      exact h (by rw [h1, h2]; rfl)

/-! ### The host's coming events -/

/-- The state in which the host does `e` next. -/
def State.withEvents (s : State P) (e : List (HostEvent P)) : State P := { s with events := e }

theorem withEvents_ite (c : Prop) [Decidable c] (a b : State P) (e : List (HostEvent P)) :
    (if c then a else b).withEvents e = if c then a.withEvents e else b.withEvents e :=
  apply_ite (fun u : State P => u.withEvents e) c a b

theorem enterChild_withEvents (c : Handle P) (s : State P) (e : List (HostEvent P)) :
    enterChild c (s.withEvents e) = (enterChild c s).withEvents e := by
  unfold enterChild
  show (match (tnRead s.mem c).kind with | .leaf => _ | .internal => _ | .empty => _ | .placeholder => _) = _
  cases (tnRead s.mem c).kind <;> rfl

theorem zeroEncCountersIfClosed_withEvents (s : State P) (e : List (HostEvent P)) :
    zeroEncCountersIfClosed (s.withEvents e) = (zeroEncCountersIfClosed s).withEvents e := by
  unfold zeroEncCountersIfClosed
  rw [withEvents_ite]
  rfl

theorem zeroDecCountersIfClosed_withEvents (s : State P) (e : List (HostEvent P)) :
    zeroDecCountersIfClosed (s.withEvents e) = (zeroDecCountersIfClosed s).withEvents e := by
  unfold zeroDecCountersIfClosed
  rw [withEvents_ite]
  rfl

theorem openDec_withEvents (s : State P) (e : List (HostEvent P)) :
    openDec (s.withEvents e) = (openDec s).withEvents e := by
  unfold openDec
  rw [zeroDecCountersIfClosed_withEvents]
  rfl

/-- No operation sees what the host does next, or changes it. -/
theorem applyOp_withEvents (i : Instr P) (s : State P) (e : List (HostEvent P)) :
    applyOp i (s.withEvents e) = (applyOp i s).withEvents e := by
  cases i with
  | cfgClear | cfgCode | cfgNode | cfgRoot =>
    simp only [applyOp, perform, execCfgClear, execCfgCode, execCfgNode, execCfgRoot, withEvents_ite]
    rfl
  | encPut sym =>
    simp only [applyOp, perform, execEncPut, appendCode, zeroEncCountersIfClosed_withEvents, withEvents_ite]
    rfl
  | encEnd =>
    simp only [applyOp, perform, execEncEnd, endEncStream, zeroEncCountersIfClosed_withEvents, withEvents_ite]
    rfl
  | decBit bit =>
    simp only [applyOp, perform, execDecBit, openDec_withEvents, enterChild_withEvents, withEvents_ite]
    rfl
  | decEnd =>
    simp only [applyOp, perform, execDecEnd, truncateDecStream, endDecStream, zeroDecCountersIfClosed_withEvents,
      withEvents_ite]
    rfl
  | encPop | decPop =>
    simp only [applyOp, perform, execEncPop, execDecPop, State.withEvents]
    split <;> rfl
  | _ => rfl
/-- What the block answers at an edge does not depend on what the host does after it. -/
theorem answerAtEdge_withEvents (sig : PortSignals P) (hold : BitVec 7) (s : State P) (e : List (HostEvent P)) (t : TWord P) :
    answerAtEdge sig hold (s.withEvents e) t = answerAtEdge sig hold s t := by
  unfold answerAtEdge
  split
  · rw [applyOp_withEvents]
    rfl
  · rfl

theorem acceptedAtEdge_withEvents (sig : PortSignals P) (hold : BitVec 7) (s : State P) (e : List (HostEvent P)) :
    acceptedAtEdge sig hold (s.withEvents e) = acceptedAtEdge sig hold s := by
  simp only [acceptedAtEdge, answerAtEdge_withEvents]

theorem portOutputs_withEvents (sig : PortSignals P) (hold : BitVec 7) (s : State P) (e : List (HostEvent P)) :
    portOutputs sig hold (s.withEvents e) = portOutputs sig hold s := by
  simp only [portOutputs, answerAtEdge_withEvents]
  rfl

end Sys2Proof.Machine
end

