-- ==== Sys2Proof/Laws/Clock.lean ====
section
/-! SUPPORT. What one clock cycle does, once: it performs the accepted operations in order, each of which is ready at the edge. -/

namespace Sys2Proof.Machine

open Sys2Proof

variable {P : Params} {sig : PortSignals P} {hold : BitVec 7} {s t : State P}

/-- The operations of a list of transfers. -/
def opsOf (ts : List (TWord P)) : List (Instr P) := ts.filterMap fun t => (decode t).toOption

theorem mem_opsOf {ts : List (TWord P)} {i : Instr P} : i ∈ opsOf ts ↔ ∃ w ∈ ts, decode w = .ok i := by
  simp only [opsOf, List.mem_filterMap]
  constructor <;> rintro ⟨w, hw, h⟩ <;> refine ⟨w, hw, ?_⟩
  · cases hd : decode w <;> rw [hd] at h <;> simp_all [Except.toOption]
  · rw [h]
    rfl

theorem run_step {M : Host.Core} {u v : M.State} (k : Nat) (h : M.step u = .next v) : M.run (k + 1) u = M.run k v := by
  simp [Host.Core.run, h]

/-- A step of the block, then the rest of a run of it. -/
theorem run_stepOf {u v : State P} (k : Nat) (h : stepOf u = .next v) :
    Host.Core.run (blockOf P) (k + 1) u = Host.Core.run (blockOf P) k v :=
  run_step (M := blockOf P) (u := u) (v := v) k h

/-- Offers that spell operations are performed, one in each step. -/
theorem run_offers (ts : List (TWord P)) : ∀ u : State P, (∀ w ∈ ts, ∃ i, decode w = .ok i) →
    Host.Core.run (blockOf P) ts.length (u.withEvents (ts.map HostEvent.offer)) =
      .next ((runOps (opsOf ts) u).withEvents []) := by
  induction ts with
  | nil => exact fun _ _ => rfl
  | cons w ts ih =>
    intro u h
    obtain ⟨i, hi⟩ := h w (by simp)
    have hstep : stepOf (u.withEvents ((w :: ts).map HostEvent.offer)) =
        .next ((applyOp i u).withEvents (ts.map HostEvent.offer)) := by
      simp only [stepOf, stepWith, State.withEvents, List.map_cons, hi, perform_eq_applyOp]
      exact congrArg _ (applyOp_withEvents i u _)
    have hops : opsOf (w :: ts) = i :: opsOf ts := by simp [opsOf, hi, Except.toOption]
    rw [hops]
    exact (run_stepOf ts.length hstep).trans (ih _ fun v hv => h v (List.mem_cons_of_mem _ hv))

/-- The state at which the accepted operations of an edge start: the edge itself changes the output only. -/
def edgeStart (sig : PortSignals P) (hold : BitVec 7) (s : State P) : State P :=
  { s with resp := .edge (portMask (acceptedAtEdge sig hold s)) (portOutputs sig hold s) }

/-- The state after one clock cycle. -/
def cycleState (sig : PortSignals P) (hold : BitVec 7) (s : State P) : State P :=
  (runOps (opsOf (acceptedAtEdge sig hold s)) (edgeStart sig hold s)).withEvents []

/-- One clock cycle is a function: it always has an outcome, and only one. -/
theorem clockCycle_iff : ClockCycle sig hold s t ↔ t = cycleState sig hold s := by
  have hacc : ∀ w ∈ acceptedAtEdge sig hold s, ∃ i, decode w = .ok i := by
    intro w hw
    obtain ⟨r, hr⟩ := Option.isSome_iff_exists.1 (mem_acceptedAtEdge.1 hw).2
    obtain ⟨i, hi, -⟩ := answerAtEdge_eq_some.1 hr
    exact ⟨i, hi⟩
  have ha := acceptedAtEdge_withEvents sig hold s []
  have ho := portOutputs_withEvents sig hold s []
  simp only [State.withEvents] at ha ho
  have hstep : stepOf { s with events := [.edge sig hold] } =
      .next ((edgeStart sig hold s).withEvents ((acceptedAtEdge sig hold s).map HostEvent.offer)) := by
    simp only [stepOf, stepWith, clockEdge, ha, ho, List.append_nil]
    rfl
  have hrun := (run_stepOf (acceptedAtEdge sig hold s).length hstep).trans (run_offers _ _ hacc)
  unfold ClockCycle
  rw [hrun]
  exact ⟨fun h => (Host.Outcome.next.inj h).symm, fun h => congrArg _ h.symm⟩

/-- The states of a run: whatever the host drives and the block delays, there is one from every state. -/
def cycleStates (sig : Nat → PortSignals P) (hold : Nat → BitVec 7) (s : State P) : Nat → State P
  | 0 => s
  | n + 1 => cycleState (sig n) (hold n) (cycleStates sig hold s n)

/-- The run from `s` in which the host drives `sig` and the block delays the ports of `hold`. -/
def ClockRun.ofStart (sig : Nat → PortSignals P) (hold : Nat → BitVec 7) (s : State P) : ClockRun P :=
  { sig := sig, hold := hold, state := cycleStates sig hold s, cycle := fun _ => clockCycle_iff.2 rfl }

end Sys2Proof.Machine
end

