-- ==== Sys2Proof/Laws/Packing.lean ====
section
/-! SUPPORT. What the entries an encoder stream pushes carry: the full words of ENC_PUT (R141 line 11) and the end entry of
ENC_END (R142 line 4), and where the fields of a popped entry lie (R102, R104). -/

namespace Sys2Proof.Machine

open Sys2Proof

variable {P : Params}

@[simp] theorem fullWords_length (s : Bits) (k : Nat) : (fullWords s k : List (EncEntry P)).length = k := by simp [fullWords]

/-- A full word has `vbits = WORD_W` and `last = 0` (R35). -/
theorem fullWords_full {s : Bits} {k : Nat} {w : EncEntry P} (h : w ∈ fullWords s k) :
    w.vbits.toNat = P.WORD_W ∧ w.last = false := by
  simp only [fullWords, List.mem_map] at h
  obtain ⟨j, -, rfl⟩ := h
  exact ⟨P.toNat_vbits le_rfl, rfl⟩

/-- The `k` full words at the front of a sequence carry its first `k·WORD_W` bits. -/
theorem unpack_fullWords (s : Bits) (k : Nat) (h : k * P.WORD_W ≤ s.length) :
    unpack (fullWords s k : List (EncEntry P)) = s.take (k * P.WORD_W) := by
  induction k with
  | zero => simp [fullWords]
  | succ k ih =>
    rw [Nat.succ_mul] at h
    have hsplit : (fullWords s (k + 1) : List (EncEntry P)) = fullWords s k ++ [fullWord s k] := by simp [fullWords, List.range_succ]
    have hl : ((s.drop (k * P.WORD_W)).take P.WORD_W).length = P.WORD_W := by
      simp
      omega
    have hword : unpack [(fullWord s k : EncEntry P)] = (s.drop (k * P.WORD_W)).take P.WORD_W := by
      simp only [unpack, List.flatMap_cons, List.flatMap_nil, List.append_nil, fullWord]
      rw [P.toNat_vbits le_rfl, unpackbits_pack _ hl _ le_rfl]
      exact List.take_of_length_le hl.le
    rw [hsplit, unpack_append, ih (by omega), hword, Nat.succ_mul, List.take_add]

/-- The end entry counts the waiting bits (R142 line 4). -/
theorem endWord_vbits (acc : Bits) (h : acc.length < P.WORD_W) : (endWord acc : EncEntry P).vbits.toNat = acc.length :=
  P.toNat_vbits h.le

/-- The end entry carries exactly the waiting bits (R35). -/
theorem unpackbits_endWord (acc : Bits) (h : acc.length < P.WORD_W) :
    unpackbits (endWord acc : EncEntry P).data (endWord acc : EncEntry P).vbits.toNat = acc := by
  rw [endWord_vbits acc h]
  simp only [endWord]
  rw [unpackbits_pack _ (by simp; omega) _ (by omega)]
  simp

theorem bitsToNat_append_zeros (s : Bits) (n : Nat) : bitsToNat (s ++ zeros n) = bitsToNat s * 2 ^ n := by
  induction n with
  | zero => simp
  | succ n ih =>
    rw [zeros, List.replicate_succ', ← List.append_assoc, bitsToNat_append_singleton, ih, pow_succ]
    simp
    ring

/-- The bits of the end entry below the waiting ones are 0 (R35). -/
theorem endWord_padding (acc : Bits) (h : acc.length < P.WORD_W) :
    (endWord acc : EncEntry P).data.toNat % 2 ^ (P.WORD_W - acc.length) = 0 := by
  have hw : 2 ^ acc.length * 2 ^ (P.WORD_W - acc.length) = 2 ^ P.WORD_W := by
    rw [← pow_add]
    congr 1
    omega
  have hlt : bitsToNat acc * 2 ^ (P.WORD_W - acc.length) < 2 ^ P.WORD_W := by
    rw [← hw]
    exact Nat.mul_lt_mul_of_pos_right (bitsToNat_lt acc) (Nat.two_pow_pos _)
  simp only [endWord, pack, BitVec.toNat_ofNat, bitsToNat_append_zeros]
  rw [Nat.mod_eq_of_lt hlt, Nat.mul_mod_left]

/-- The end entry has the form R35 asks for. -/
theorem endWord_formed (acc : Bits) (h : acc.length < P.WORD_W) : (endWord acc : EncEntry P).formed :=
  ⟨fun hl => by simp [endWord] at hl,
   fun _ => ⟨by rw [endWord_vbits acc h]; exact h, by rw [endWord_vbits acc h]; exact endWord_padding acc h⟩⟩

/-! ### The response of a pop (R102, R104) -/

theorem ofBool_getLsbD_zero (b : Bool) {n : Nat} (h : n = 0) : (BitVec.ofBool b).getLsbD n = b := by
  subst h
  cases b <;> rfl

theorem EncEntry.toBits_data (e : EncEntry P) : e.toBits.extractLsb' 0 P.WORD_W = e.data := by
  rw [EncEntry.toBits, append_extract_low _ _ _ _ (by omega)]
  exact extract_whole _ _ rfl

theorem EncEntry.toBits_vbits (e : EncEntry P) : e.toBits.extractLsb' P.WORD_W P.VB_W = e.vbits := by
  rw [EncEntry.toBits, append_extract_high _ _ _ _ le_rfl, append_extract_low _ _ _ _ (by omega)]
  exact extract_whole _ _ (Nat.sub_self _)

theorem EncEntry.toBits_last (e : EncEntry P) : e.toBits.getLsbD (P.WORD_W + P.VB_W) = e.last := by
  rw [EncEntry.toBits, append_getLsbD_high _ _ _ (by omega), append_getLsbD_high _ _ _ (by omega)]
  exact ofBool_getLsbD_zero _ (by omega)

theorem DecEntry.toBits_sym (e : DecEntry P) : e.toBits.extractLsb' 0 P.SYM_W = e.sym := by
  rw [DecEntry.toBits, append_extract_low _ _ _ _ (by omega)]
  exact extract_whole _ _ rfl

theorem DecEntry.toBits_last (e : DecEntry P) : e.toBits.getLsbD P.SYM_W = e.last := by
  rw [DecEntry.toBits, append_getLsbD_high _ _ _ le_rfl, append_getLsbD_low _ _ _ (by omega)]
  exact ofBool_getLsbD_zero _ (Nat.sub_self _)

theorem DecEntry.toBits_trunc (e : DecEntry P) : e.toBits.getLsbD (P.SYM_W + 1) = e.trunc := by
  rw [DecEntry.toBits, append_getLsbD_high _ _ _ (by omega), append_getLsbD_high _ _ _ (by omega)]
  exact ofBool_getLsbD_zero _ (by omega)

end Sys2Proof.Machine
end

