-- ==== Sys2Proof/Laws/PerInstr.lean ====
section
/-! SUPPORT. One lemma per operation: the word encoded from it is selected by its own row of the operation table (R106),
whatever its operands. -/

namespace Sys2Proof

section Masks

variable {w v : Nat}

/-- Under a mask that reaches just past the low payload part, the high part is gone. -/
theorem wordOf_append_and_lowMask (x : BitVec w) (y : BitVec v) (c : BitVec 3) :
    (wordOf (x ++ y) c : TWord) &&& lowMask (v + 3) = wordOf y c := by
  apply BitVec.eq_of_getLsbD_eq
  intro i hi
  simp only [BitVec.getLsbD_and, lowMask_getLsbD, wordOf, BitVec.getLsbD_setWidth, BitVec.getLsbD_append]
  by_cases h3 : i < 3
  · simp [h3, hi, show i < v + 3 by omega]
  · by_cases hv : i < v + 3
    · simp [h3, hi, hv, show i - 3 < v by omega]
    · have : y.getLsbD (i - 3) = false := BitVec.getLsbD_of_ge _ _ (by omega)
      simp [h3, hv, this]

/-- Under a mask that covers the port number alone, only the port number is left. -/
theorem wordOf_and_lowMask_three (x : BitVec w) (c : BitVec 3) : (wordOf x c : TWord) &&& lowMask 3 = wordOf 0#0 c := by
  apply BitVec.eq_of_getLsbD_eq
  intro i hi
  simp only [BitVec.getLsbD_and, lowMask_getLsbD, wordOf, BitVec.getLsbD_setWidth, BitVec.getLsbD_append]
  by_cases h3 : i < 3 <;> simp [h3, hi]

end Masks

namespace Laws.TableRow

/-- The row of R106 under the operation's own mnemonic selects its encoded word. -/
def Statement (i : Instr) : Prop := ∃ r ∈ opTable, r.mnemonic = i.mnemonic ∧ r.selects (encode i) = true

/-- A word that a mask of `n` low bits takes to a row's pattern is selected by the row. -/
theorem of_masked {i : Instr} (r : OpRow) (hr : r ∈ opTable) (hm : r.mnemonic = i.mnemonic) (n : Nat) (p : TWord)
    (hmask : r.mask = lowMask n) (hp : encode i &&& lowMask n = p) (hpat : r.pattern = p) : Statement i :=
  ⟨r, hr, hm, by simp [OpRow.selects, hmask, hp, hpat]⟩

theorem ctrlNop : Statement .ctrlNop := by unfold Statement; decide
theorem encClr : Statement .encClr := by unfold Statement; decide
theorem decClr : Statement .decClr := by unfold Statement; decide
theorem allClr : Statement .allClr := by unfold Statement; decide
theorem cfgClear : Statement .cfgClear := by unfold Statement; decide
theorem cfgCode (sym : Symbol) (len : CodeLen) (code : CodeInt) : Statement (.cfgCode sym len code) :=
  of_masked ⟨"CFG_CODE", 0x09, 0x1F⟩ (by decide) rfl 5 (wordOf 1#2 1) (by decide)
    (wordOf_append_and_lowMask _ _ _) (by decide)
theorem cfgNode (h : Handle) (kind : NodeKind) (left right : Handle) (sym : Symbol) :
    Statement (.cfgNode h kind left right sym) :=
  of_masked ⟨"CFG_NODE", 0x11, 0x1F⟩ (by decide) rfl 5 (wordOf 2#2 1) (by decide)
    (wordOf_append_and_lowMask _ _ _) (by decide)
theorem cfgRoot (h : Handle) : Statement (.cfgRoot h) :=
  of_masked ⟨"CFG_ROOT", 0x19, 0x1F⟩ (by decide) rfl 5 (wordOf 3#2 1) (by decide)
    (wordOf_append_and_lowMask _ _ _) (by decide)
theorem encPut (sym : Symbol) : Statement (.encPut sym) :=
  of_masked ⟨"ENC_PUT", 0x2, 0xF⟩ (by decide) rfl 4 (wordOf 0#1 2) (by decide)
    (wordOf_append_and_lowMask _ _ _) (by decide)
theorem encEnd : Statement .encEnd := by unfold Statement; decide
theorem encPop : Statement .encPop := by unfold Statement; decide
theorem decBit (bit : Bool) : Statement (.decBit bit) :=
  of_masked ⟨"DEC_BIT", 0x4, 0xF⟩ (by decide) rfl 4 (wordOf 0#1 4) (by decide)
    (wordOf_append_and_lowMask _ _ _) (by decide)
theorem decEnd : Statement .decEnd := by unfold Statement; decide
theorem decPop : Statement .decPop := by unfold Statement; decide
theorem statRd (idx : BitVec 4) : Statement (.statRd idx) :=
  of_masked ⟨"STAT_RD", 0x6, 0x7⟩ (by decide) rfl 3 (wordOf 0#0 6) (by decide)
    (wordOf_and_lowMask_three _ _) (by decide)

end Laws.TableRow

end Sys2Proof
end

