-- ==== Sys2Proof/Laws/Walk.lean ====
section
/-! SUPPORT. Paths in the tree (R28): a path through a leaf goes no further, so leaf paths are not prefixes of one another;
and where the decoder stands (R38). -/

namespace Sys2Proof.Machine

open Sys2Proof

variable {P : Params}

/-- A path is walked in two parts. -/
theorem nodeFrom_append (m : Memory P) (p q : Bits) (h : Handle P) :
    nodeFrom m h (p ++ q) = (nodeFrom m h p).bind fun k => nodeFrom m k q := by
  induction p generalizing h with
  | nil => rfl
  | cons b p ih =>
    simp only [List.cons_append, nodeFrom]
    split
    · exact ih _
    · rfl

/-- Paths depend on the contents of the node store only. -/
theorem nodeFrom_congr {m m' : Memory P} (h : ∀ k, tnRead m' k = tnRead m k) (p : Bits) (k : Handle P) :
    nodeFrom m' k p = nodeFrom m k p := by
  induction p generalizing k with
  | nil => rfl
  | cons b p ih => simp only [nodeFrom, h, ih]

theorem LeafPath.congr {m m' : Memory P} (hr : m'.root = m.root) (h : ∀ k, tnRead m' k = tnRead m k) {p : Bits}
    {sym : Symbol P} (hp : LeafPath m p sym) : LeafPath m' p sym := by
  obtain ⟨k, hk, hl⟩ := hp
  exact ⟨k, by rw [node, hr, nodeFrom_congr h]; exact hk, by rwa [h]⟩

/-- No path leads on from a node that is not INTERNAL. -/
theorem nodeFrom_of_not_internal {m : Memory P} {h : Handle P} {q : Bits} (hk : (tnRead m h).kind ≠ .internal)
    (hq : q ≠ []) : nodeFrom m h q = none := by
  cases q with
  | nil => exact absurd rfl hq
  | cons b q => simp only [nodeFrom, if_neg hk]

/-- One step down from an internal node. -/
theorem node_append_singleton {m : Memory P} {p : Bits} {h : Handle P} (b : Bool) (hp : node m p = some h)
    (hk : (tnRead m h).kind = .internal) : node m (p ++ [b]) = some ((tnRead m h).child b) := by
  rw [node] at hp ⊢
  rw [nodeFrom_append, hp]
  simp [nodeFrom, hk]

/-- A leaf path that is a prefix of a leaf path is that path, and its leaf is that leaf. -/
theorem LeafPath.eq_of_prefix {m : Memory P} {p q : Bits} {x y : Symbol P} (hp : LeafPath m p x) (hq : LeafPath m q y)
    (h : p <+: q) : p = q ∧ x = y := by
  obtain ⟨r, rfl⟩ := h
  obtain ⟨a, ha, hak, hax⟩ := hp
  obtain ⟨b, hb, hbk, hby⟩ := hq
  rw [node] at ha hb
  rw [nodeFrom_append, ha, Option.bind_some] at hb
  by_cases hr : r = []
  · subst hr
    simp only [nodeFrom, Option.some.injEq] at hb
    subst hb
    exact ⟨by simp, hax.symm.trans hby⟩
  · rw [nodeFrom_of_not_internal (by rw [hak]; decide) hr] at hb
    cases hb

@[simp] theorem decPosition_of_mid {s : State P} (h : s.dec.mid = true) : decPosition s = s.dec.cur := by
  simp [decPosition, h]

@[simp] theorem decPosition_of_root {s : State P} (h : s.dec.mid = false) : decPosition s = s.mem.root := by
  simp [decPosition, h]

end Sys2Proof.Machine
end

