-- ==== Sys2Proof/Tests/Slice0.lean ====
section
/-! SUPPORT. The model's own tests. Expected values come from spec/95_test_vectors.md and from the worked examples of the rules
(the name in each comment); then, for every claim with hypotheses, a concrete state and operands that meet them. -/

namespace Sys2Proof.Tests

open Sys2Proof Sys2Proof.Machine

/-! ### States the tests start from -/

/-- The configuration of program P2, "abab". -/
def abab : State :=
  { State.reset with
    mem :=
      { ct := ⟨.cleared, [(0x61, ⟨1, 0⟩), (0x62, ⟨1, 1⟩)]⟩
        tn := ⟨.cleared, [(0, ⟨.leaf, 0, 0, 0x61⟩), (1, ⟨.leaf, 0, 0, 0x62⟩), (2, ⟨.internal, 0, 1, 0⟩)]⟩
        root := 2 } }

/-- The configuration of program P3, "aaabbc". -/
def aaabbc : State :=
  { State.reset with
    mem :=
      { ct := ⟨.cleared, [(0x61, ⟨1, 0⟩), (0x62, ⟨2, 3⟩), (0x63, ⟨2, 2⟩)]⟩
        tn := ⟨.cleared,
          [(0, ⟨.leaf, 0, 0, 0x61⟩), (1, ⟨.leaf, 0, 0, 0x62⟩), (2, ⟨.leaf, 0, 0, 0x63⟩), (3, ⟨.internal, 2, 1, 0⟩),
           (4, ⟨.internal, 0, 3, 0⟩)]⟩
        root := 4 } }

/-- The encoder with the bits `acc` waiting in an open stream of `n` symbols. -/
def withAcc (s : State) (acc : Bits) (n : Count) : State :=
  { s with enc := { s.enc with acc := acc, isOpen := true, bits := BitVec.ofNat CNT_W acc.length, syms := n } }

/-- The encoder with the entries `q` waiting. -/
def withEncQ (s : State) (q : List EncEntry) : State := { s with enc := { s.enc with q := q } }

/-- The decoder with the entries `q` waiting. -/
def withDecQ (s : State) (q : List DecEntry) : State := { s with dec := { s.dec with q := q } }

/-- The decoder mid-path at `h`, one bit into a stream. -/
def midAt (s : State) (h : Handle) : State :=
  { s with dec := { s.dec with cur := h, mid := true, isOpen := true, bits := 1 } }

/-- The host does `es` next. -/
def doing (s : State) (es : List HostEvent) : State := { s with events := es }

/-! ### Parameters and well-formedness -/

/-- R7: the default column. -/
theorem test_params_default :
    [Params.default.SYM_W, Params.default.NSYM, Params.default.LEN_W, Params.default.MAXLEN, Params.default.NODE_W,
      Params.default.NNODE, Params.default.WORD_W, Params.default.VB_W, Params.default.EQ_DEPTH, Params.default.DQ_DEPTH,
      Params.default.CNT_W] = [8, 256, 8, 255, 9, 512, 8, 4, 64, 16, 64] := by decide

/-- Another choice that R7 allows: 16 symbols, words of 16 bits, shallow queues, counters of 32 bits. -/
def small : Params := { SYM_W := 4, WORD_W := 16, VB_W := 5, EQ_DEPTH := 2, DQ_DEPTH := 1, CNT_W := 32 }

/-- R7, R46, R49, R90 at other parameters: `MAXLEN = 15`, `NNODE = 32`, `CFG_W = max(25, 23)`, PARAMS, and a HI register. -/
theorem test_params_small :
    [small.MAXLEN, small.NNODE, small.CFG_W] = [15, 32, 25] ∧ statusRead 1 (State.resetOf small) = 0x04051004 ∧
    statusRead 5 (State.resetOf small) = 0 := by decide

/-- R141 and R162 at other parameters: a code of 15 bits fills no word of 16, and a queue of depth 1 is full with one entry. -/
theorem test_step_small :
    (applyOp (.encPut 3) { State.resetOf small with mem := ctWrite Memory.cleared 3 ⟨15, 5⟩ }).enc.acc.length = 15 ∧
    (applyOp .decEnd (applyOp .decEnd (State.resetOf small))).resp = .notReady := by decide

/-- R46: PARAMS at the defaults; the word widths of R94. -/
theorem test_port_widths : (List.range 7).map (fun c => portWidth Params.default (BitVec.ofNat 3 c)) = [5, 276, 12, 3, 5, 3, 7] := by decide

/-- R108 (b): code bits at or above `len` are ignored, so a host should not set them. -/
theorem test_wellFormed_refuses_ignored_bits : ¬ WellFormed (.cfgCode 0x41 2 0b111 : Instr) := by decide

theorem test_wellFormed_accepts_code : WellFormed (.cfgCode 0x41 2 0b11 : Instr) := by decide

/-! ### Decoding: the words of vector VT -/

theorem test_decode_ctrl :
    decode (0x0 : TWord) = .ok .ctrlNop ∧ decode (0x8 : TWord) = .ok .encClr ∧ decode (0x10 : TWord) = .ok .decClr ∧ decode (0x18 : TWord) = .ok .allClr := by
  decide

theorem test_decode_cfgClear : decode (0x1 : TWord) = .ok .cfgClear := by decide

theorem test_decode_cfgCode : decode (0x404C69 : TWord) = .ok (.cfgCode 0x63 2 2) := by decide

/-- The row of VT with the longest code: 254 ones, then a zero. -/
theorem test_decode_cfgCode_longest :
    decode (0xFFFFFFFFFFFFFFFFFFFFFFFFFFFFFFFFFFFFFFFFFFFFFFFFFFFFFFFFFFFFFFFDFE009 : TWord) =
      .ok (.cfgCode 0 255 (BitVec.ofNat MAXLEN (2 ^ 255 - 2))) := by decide

theorem test_decode_cfgNode : decode (0x2024071 : TWord) = .ok (.cfgNode 3 .internal 2 1 0) := by decide

theorem test_decode_cfgNode_kinds :
    decode (0x18400008011 : TWord) = .ok (.cfgNode 0 .leaf 0 0 0x61) ∧ decode (0xC031 : TWord) = .ok (.cfgNode 1 .placeholder 0 0 0) ∧
    decode (0x31 : TWord) = .ok (.cfgNode 1 .empty 0 0 0) := by decide

theorem test_decode_cfgRoot : decode (0x99 : TWord) = .ok (.cfgRoot 4) := by decide

theorem test_decode_encoder :
    decode (0x612 : TWord) = .ok (.encPut 0x61) ∧ decode (0xFF2 : TWord) = .ok (.encPut 0xFF) ∧ decode (0xA : TWord) = .ok .encEnd ∧
    decode (0x3 : TWord) = .ok .encPop := by decide

theorem test_decode_decoder :
    decode (0x4 : TWord) = .ok (.decBit false) ∧ decode (0x14 : TWord) = .ok (.decBit true) ∧ decode (0xC : TWord) = .ok .decEnd ∧
    decode (0x5 : TWord) = .ok .decPop := by decide

theorem test_decode_statRd : decode (0x6 : TWord) = .ok (.statRd 0) ∧ decode (0x46 : TWord) = .ok (.statRd 8) ∧ decode (0x7E : TWord) = .ok (.statRd 15) := by
  decide

/-- VT, ignored bits: `0xFFA` is ENC_END and `0x1C` is DEC_END; T[275:5] of CFG_CLEAR (R100). -/
theorem test_decode_ignored_bits :
    decode (0xFFA : TWord) = .ok .encEnd ∧ decode (0x1C : TWord) = .ok .decEnd ∧ decode (0xFFFFE1 : TWord) = .ok .cfgClear := by decide

/-- R95: `chan = 7` is invalid. -/
theorem test_decode_invalid : decode (0x7 : TWord) = .error .invalidChan ∧ decodeTableWord 8 0xFF = none := by decide

theorem test_encode_words :
    encode (.cfgCode 0x63 2 2 : Instr) = 0x404C69 ∧ encode (.cfgNode 0 .leaf 0 0 0x61 : Instr) = 0x18400008011 ∧
    encode (.encPut 0x7A : Instr) = 0x7A2 ∧ encode (.statRd 2 : Instr) = 0x16 := by decide

/-- VT: the pop responses as integers. -/
theorem test_pop_responses :
    (⟨0x1F, 8, false⟩ : EncEntry).toBits = 0x081F ∧ (⟨0x00, 1, true⟩ : EncEntry).toBits = 0x1100 ∧
    (⟨0x61, false, false⟩ : DecEntry).toBits = 0x061 ∧ (⟨0, true, false⟩ : DecEntry).toBits = 0x100 ∧
    (⟨0, true, true⟩ : DecEntry).toBits = 0x300 := by decide

/-! ### Configuration operations -/

/-- VC1: masking on write. -/
theorem test_cfgCode_masks :
    ctRead (applyOp (.cfgCode 0x41 2 0b111) { State.reset with mem := Memory.cleared }).mem 0x41 = ⟨2, 0b11⟩ := by decide

/-- VC5: `len = 0` deletes. -/
theorem test_cfgCode_deletes : ctRead (applyOp (.cfgCode 0x61 0 0b111) abab).mem 0x61 = ⟨0, 0⟩ := by decide

/-- VC4: writing EMPTY over a node. -/
theorem test_cfgNode_stores : tnRead (applyOp (.cfgNode 1 .empty 0 0 0) abab).mem 1 = ⟨.empty, 0, 0, 0⟩ := by decide

/-- VC2: busy while the decoder is open. -/
theorem test_cfgNode_busy : (applyOp (.cfgNode 9 .empty 0 0 0) (midAt aaabbc 3)).resp = .code .errBusy := by decide

/-- R125: the root is readable. -/
theorem test_cfgRoot_sets : statusRead 14 (applyOp (.cfgRoot 4) abab) = 4 := by decide

theorem test_cfgRoot_busy : (applyOp (.cfgRoot 4) (midAt aaabbc 3)).mem.root = 4 := by decide

/-- VC3: CFG_CLEAR keeps the queue. -/
theorem test_cfgClear_keeps_queue :
    (applyOp .cfgClear (withEncQ abab [⟨0x40, 2, true⟩])).enc.q = [⟨0x40, 2, true⟩] ∧
    statusRead 14 (applyOp .cfgClear abab) = 0 := by decide

/-- VC2: busy while the encoder is open. -/
theorem test_cfgClear_busy : (applyOp .cfgClear (withAcc aaabbc [false] 1)).resp = .code .errBusy := by decide

/-! ### Encoder operations -/

/-- R141, the second put of the example: it completes the word 0x1F. -/
theorem test_encPut_completes_word :
    (applyOp (.encPut 0x63) (withAcc aaabbc [false, false, false, true, true, true, true] 5)).enc =
      ⟨[false], [⟨0x1F, 8, false⟩], true, .none, 0, 9, 6⟩ := by decide

/-- VE4: an unknown symbol. -/
theorem test_encPut_unknown :
    statusRead 2 (applyOp (.encPut 0x7A) (withAcc aaabbc [false] 1)) = 0x007A010B ∧
    (applyOp (.encPut 0x7A) (withAcc aaabbc [false] 1)).resp = .code .errUnknownSymbol := by decide

/-- R142, the example: "abab". -/
theorem test_encEnd_pushes :
    (applyOp .encEnd (withAcc abab [false, true, false, true] 4)).enc.q = [⟨0x50, 4, true⟩] ∧
    statusRead 4 (applyOp .encEnd (withAcc abab [false, true, false, true] 4)) = 4 := by decide

/-- VE7: `NotReady` on a full queue. -/
theorem test_encEnd_full :
    (applyOp .encEnd (withEncQ abab (List.replicate 64 ⟨0x55, 8, false⟩))).resp = .notReady := by decide

/-- P3, step 18. -/
theorem test_encPop_takes_head :
    (applyOp .encPop (withEncQ aaabbc [⟨0x1F, 8, false⟩, ⟨0x00, 1, true⟩])).resp = .word ⟨0x1F, 8, false⟩ := by decide

/-- VS1: nothing to pop. -/
theorem test_encPop_empty : (applyOp .encPop State.reset).resp = .notReady := by decide

/-! ### Decoder operations -/

/-- VD10: the first bit of `10` goes right, to node 3. -/
theorem test_decBit_descends :
    statusRead 8 (applyOp (.decBit true) aaabbc) = 0x00000329 ∧
    (applyOp (.decBit false) (midAt aaabbc 3)).dec.q = [⟨0x63, false, false⟩] := by decide

/-- VC4: the deleted node. -/
theorem test_decBit_badTree :
    (applyOp (.decBit true) (applyOp (.cfgNode 1 .empty 0 0 0) abab)).resp = .code .errBadTree ∧
    (applyOp (.decBit true) (applyOp (.cfgNode 1 .empty 0 0 0) abab)).dec.cur = 1 := by decide

/-- VD1: truncation. -/
theorem test_decEnd_truncates :
    statusRead 8 (applyOp .decEnd (midAt aaabbc 3)) = 0x00000323 ∧
    (applyOp .decEnd (midAt aaabbc 3)).dec.q = [⟨0, true, true⟩] := by decide

/-- VD5: the empty bitstream. -/
theorem test_decEnd_empty :
    (applyOp .decEnd abab).dec.q = [⟨0, true, false⟩] ∧ statusRead 8 (applyOp .decEnd abab) = 0 := by decide

/-- P2, step 15. -/
theorem test_decPop_takes_head :
    (applyOp .decPop (withDecQ abab [⟨0x61, false, false⟩])).resp = .symbol ⟨0x61, false, false⟩ := by decide

theorem test_decPop_empty : (applyOp .decPop State.reset).resp = .notReady := by decide

/-! ### System operations, reset, steps -/

theorem test_ctrlNop : applyOp .ctrlNop abab = { abab with resp := .code .ok } := by decide

/-- VS2: ENC_CLR discards the encoder's stream and leaves the decoder. -/
theorem test_encClr :
    statusRead 2 (applyOp .encClr (withAcc (midAt aaabbc 3) [false] 6)) = 8 ∧
    statusRead 8 (applyOp .encClr (withAcc (midAt aaabbc 3) [false] 6)) = 0x00000329 := by decide

/-- VS4: DEC_CLR leaves the encoder. -/
theorem test_decClr :
    statusRead 8 (applyOp .decClr (withAcc (midAt aaabbc 3) [false] 1)) = 8 ∧
    statusRead 2 (applyOp .decClr (withAcc (midAt aaabbc 3) [false] 1)) = 0x00000109 := by decide

/-- VS3: ALL_CLR keeps the configuration. -/
theorem test_allClr :
    statusRead 2 (applyOp .allClr (withAcc (midAt aaabbc 3) [false] 1)) = 8 ∧
    statusRead 8 (applyOp .allClr (withAcc (midAt aaabbc 3) [false] 1)) = 8 ∧
    statusRead 14 (applyOp .allClr (withAcc (midAt aaabbc 3) [false] 1)) = 4 := by decide

/-- VS1: the status registers after hard reset. -/
theorem test_statRd_reset :
    (List.range 16).map (fun i => statusRead (BitVec.ofNat 4 i) State.reset) =
      [0x48434401, 0x08090808, 8, 0, 0, 0, 0, 0, 8, 0, 0, 0, 0, 0, 0, 0] := by decide

theorem test_statRd_answers : (applyOp (.statRd 8) (midAt aaabbc 3)).resp = .value 0x00000329 := by decide

/-- R260: a hard reset abandons everything; the host's coming events stay. -/
theorem test_hardReset :
    (match step (doing (midAt aaabbc 3) [.hardReset, .offer 0x3]) with
     | .next t => decide (t.dec = DecUnit.reset ∧ t.mem.root = 0 ∧ t.events = [.offer 0x3])
     | .fault _ => false
     | .refused _ => false) = true := by decide

/-- R94: the offered word is executed; the opcode-table entry point is the same word. -/
theorem test_step_runs_offer :
    (match step (State.withFetchWord abab 12 0x612) with
     | .next t => decide (t.enc.acc = [false] ∧ t.resp = .code .ok ∧ t.events = [])
     | .fault _ => false
     | .refused _ => false) = true := by decide

/-- R91, R93: what the block drives: SYM_IN answers OK, BIT_IN is held, the queue heads are offered, STATUS reads QCOUNT; and
with a CTRL transfer taken every other port is at 0. -/
theorem test_port_outputs :
    portOutputs ⟨none, none, some 0xC2, false, some 0, false, some 3⟩ 0x10 (withEncQ abab [⟨0x50, 4, true⟩]) =
      ⟨none, none, some 0, some 0x1450, none, none, some 1⟩ ∧
    portOutputs ⟨some 0, some 0, some 0xC2, true, some 0, true, some 3⟩ 0 (withEncQ abab [⟨0x50, 4, true⟩]) =
      ⟨some 0, none, none, none, none, none, none⟩ := by decide

/-- R70: STATUS and SYM_IN share an edge; a CTRL transfer goes alone; ENC_POP of an empty queue waits. -/
theorem test_edge_accepts :
    acceptedAtEdge ⟨none, none, some 0xC2, true, none, false, some 2⟩ 0 abab = [0x16, 0x612] ∧
    acceptedAtEdge ⟨some 0, none, some 0xC2, true, none, false, some 2⟩ 0 abab = [0x0] ∧
    acceptedAtEdge ⟨some 0, some 0, some 0xC2, true, none, false, some 2⟩ 1 abab = [0x1] := by decide

/-! ### The host's procedure and the trace syntax -/

/-- P3: the codes, nodes and root of "aaabbc" (symbols a, b, c with counts 3, 2, 1). -/
theorem test_buildTree_aaabbc :
    (match buildTree [((0x61 : Symbol), 3), (0x62, 2), (0x63, 1)] with
     | .ok t => decide (codesOf t [] = [(0x61, [false]), (0x63, [true, false]), (0x62, [true, true])] ∧ t.handle = 4)
     | .error _ => false) = true := by decide

/-- P1: the one-symbol form. -/
theorem test_buildTree_aaaa :
    (match buildTree [((0x61 : Symbol), 4)] with
     | .ok t => decide (nodesOf t = [(2, ⟨.internal, 0, 1, 0⟩), (0, ⟨.leaf, 0, 0, 0x61⟩), (1, ⟨.placeholder, 0, 0, 0⟩)])
     | .error _ => false) = true := by decide

/-- R111: ENCODE and DRAIN_ENC. -/
theorem test_pseudo :
    encodeOps [(0x61 : Symbol), 0x62] = [.encPut 0x61, .encPut 0x62, .encEnd] ∧
    drainEncOps [(⟨0x1F, 8, false⟩ : EncEntry), ⟨0, 1, true⟩, ⟨0, 0, true⟩] = [.encPop, .encPop] ∧
    cfgCodeOf (0x63 : Symbol) [true, false] = .cfgCode 0x63 2 2 := by decide

/-- R110, P2: a trace line. -/
theorem test_trace_line : traceLine (.encPop : Instr) (.word ⟨0x50, 4, true⟩) = "ENC_POP -> data=80 vbits=4 last=1" := by decide

/-! ### Witnesses: states and operands that meet the hypotheses of the claims -/

/-- "abab" with an unknown symbol on record. -/
def encFaulted : State := applyOp (.encPut 0x7A) abab

/-- "aaabbc" with a truncation on record. -/
def decFaulted : State := applyOp .decEnd (midAt aaabbc 3)

/-- EncodeOfDecodeKeepsNamedBits, IgnoredBitsDoNotMatter: two words of one operation. -/
theorem witness_ignored_bits :
    decode (0xA : TWord) = .ok .encEnd ∧ (0xFFA : TWord) &&& namedBits .encEnd = 0xA &&& namedBits .encEnd := by decide

/-- OperandsAreReadAtTheirPositions: a word for each clause, the operand bits and the unnamed bits at 1 where there are any. -/
theorem witness_OperandsAreReadAtTheirPositions :
    ([0x00, 0x08, 0x10, 0x18, 0xFE1, 0xE04829, 0x3FFFFFFFFF1, 0x3FF9].map fun t : TWord => t.extractLsb' 0 5) =
      [0b00000, 0b01000, 0b10000, 0b11000, 0b00001, 0b01001, 0b10001, 0b11001] ∧
    ([0x11, 0x4011, 0x8011, 0xC011].map fun t : TWord => t.extractLsb' 14 2) = [0, 1, 2, 3] ∧
    ([0xFF2, 0xFFA, 0x14, 0x1C].map fun t : TWord => t.extractLsb' 0 4) = [0b0010, 0b1010, 0b0100, 0b1100] ∧
    ([0x3, 0x5, 0x7E].map fun t : TWord => t.extractLsb' 0 3) = [0b011, 0b101, 0b110] := by decide

/-- OperationTableSelectsDecodedOperation: a word that decodes and a word that does not. -/
theorem witness_table :
    decode (0x612 : TWord) = .ok (.encPut 0x61) ∧ decode (0x7 : TWord) = .error .invalidChan ∧ chanOf (0x7 : TWord) = 7 := by decide

theorem witness_StepRunsDecodedOperation :
    (doing abab [.offer 0x612]).events = .offer 0x612 :: [] ∧ decode (0x612 : TWord) = .ok (.encPut 0x61) := by decide

/-- Both clauses: a word for port 7, and a state whose next event is not one. -/
theorem witness_StepStopsOnlyOnInvalidChan :
    ((doing abab [.offer 0x7]).events = .offer 0x7 :: [] ∧ chanOf (0x7 : TWord) = 7) ∧
    (∀ t rest, (doing abab [.offer 0x612]).events = .offer t :: rest → chanOf t ≠ 7) := by
  refine ⟨by decide, fun t rest h => ?_⟩
  cases h
  decide

theorem abab_inv : abab.enc.Inv ∧ abab.dec.Inv := by
  constructor
  · simp [EncUnit.Inv, abab, State.reset, State.resetOf, EncUnit.reset]
  · simp [DecUnit.Inv, abab, State.reset, State.resetOf, DecUnit.reset]

/-- An edge with four ports driven. -/
theorem witness_SameCycleTransfers :
    abab.enc.Inv ∧ abab.dec.Inv ∧
    (doing abab [.edge ⟨none, none, some 0xC2, true, some 0, false, some 2⟩ 0]).events =
      .edge ⟨none, none, some 0xC2, true, some 0, false, some 2⟩ 0 :: [] ∧
    (acceptedAtEdge ⟨none, none, some 0xC2, true, some 0, false, some 2⟩ 0 abab).map chanOf = [6, 2, 4] :=
  ⟨abab_inv.1, abab_inv.2, by decide, by decide⟩

/-- The other clauses of SameCycleTransfers: CTRL taken alone, CFG taken when CTRL is held, and with both held the rest. -/
theorem witness_SameCycleTransfers_sole :
    acceptedAtEdge ⟨some 0, some 0, none, false, some 0, false, some 2⟩ 0 abab = [0x0] ∧
    acceptedAtEdge ⟨some 0, some 0, none, false, some 0, false, some 2⟩ 1 abab = [0x1] ∧
    acceptedAtEdge ⟨some 0, some 0, none, false, some 0, false, some 2⟩ 3 abab = [0x16, 0x4] := by decide

theorem witness_NotReadyExactlyWhenQueuesBlock :
    ready .encPop State.reset = false ∧ ready .encEnd State.reset = true := by decide

/-- Both kinds of refusal. -/
theorem witness_RefusalsChangeNothing :
    exec .encEnd encFaulted = .next (applyOp .encEnd encFaulted) ∧
    (applyOp .encEnd encFaulted).resp = .code .errFaulted ∧ (applyOp .cfgClear encFaulted).resp = .code .errBusy :=
  ⟨rfl, by decide, by decide⟩

/-- CfgClearEmptiesConfiguration, CfgCodeStoresMaskedCode, CfgNodeStoresAllFields, CfgRootSetsRoot,
LoadInstallsConfiguration: both units closed. -/
theorem witness_closed : abab.enc.isOpen = false ∧ abab.dec.isOpen = false := by decide

/-- The refusals of the CFG operations: each unit open. -/
theorem witness_busy : encFaulted.enc.isOpen = true ∧ decFaulted.dec.isOpen = true := by decide

/-- CfgBusyRule: a faulted encoder and a faulted decoder. -/
theorem witness_CfgBusyRule :
    (Instr.cfgClear : Instr).chan = 1 ∧ encFaulted.enc.Inv ∧ encFaulted.dec.Inv ∧ decFaulted.enc.Inv ∧ decFaulted.dec.Inv ∧
    encFaulted.enc.fault ≠ .none ∧ decFaulted.dec.fault ≠ .none := by
  refine ⟨rfl, ?_, ?_, ?_, ?_, by decide, by decide⟩
  · rw [show encFaulted.enc = ⟨[], [], true, .unknown, 0x7A, 0, 0⟩ by decide]
    simp [EncUnit.Inv]
  · rw [show encFaulted.dec = DecUnit.reset by decide]
    simp [DecUnit.Inv, DecUnit.reset]
  · rw [show decFaulted.enc = EncUnit.reset by decide]
    simp [EncUnit.Inv, EncUnit.reset]
  · rw [show decFaulted.dec = ⟨3, true, [⟨0, true, true⟩], true, .truncated, 1, 0⟩ by decide]
    simp [DecUnit.Inv, DecEntry.formed]

/-- A run that writes one code, one node and the root, none of them the entry asked for. -/
theorem witness_ConfigurationChangesOnlyWhereWritten :
    .cfgClear ∉ ([.cfgCode 1 1 0, .encPut 0x61, .cfgNode 7 .leaf 0 0 1] : List Instr) ∧
    (∀ len code, .cfgCode 2 len code ∉ ([.cfgCode 1 1 0, .encPut 0x61, .cfgNode 7 .leaf 0 0 1] : List Instr)) ∧
    (∀ kind left right sym,
      .cfgNode 8 kind left right sym ∉ ([.cfgCode 1 1 0, .encPut 0x61, .cfgNode 7 .leaf 0 0 1] : List Instr)) ∧
    ∀ h, .cfgRoot h ∉ ([.cfgCode 1 1 0, .encPut 0x61, .cfgNode 7 .leaf 0 0 1] : List Instr) := by
  simp
  exact ⟨fun _ _ h => absurd h (by decide), fun _ _ _ _ h => absurd h (by decide)⟩

/-- The shortest and the longest code. -/
theorem witness_StoredCodeStandsForItsBits :
    abab.enc.isOpen = false ∧ 1 ≤ [true].length ∧ (List.replicate MAXLEN true).length ≤ MAXLEN :=
  ⟨by decide, by decide, by simp⟩

/-- A put with seven bits waiting. -/
theorem witness_EncPutAppendsCode :
    (withAcc aaabbc [false, false, false, true, true, true, true] 5).enc.acc.length < WORD_W ∧
    (withAcc aaabbc [false, false, false, true, true, true, true] 5).enc.fault = .none ∧
    (ctRead (withAcc aaabbc [false, false, false, true, true, true, true] 5).mem 0x63).len ≠ 0#LEN_W ∧
    (7 + (ctRead aaabbc.mem 0x63).len.toNat) / WORD_W ≤ EQ_DEPTH - 0 := by decide

theorem witness_EncPutUnknownSymbolIsPrecise :
    abab.enc.fault = .none ∧ (ctRead abab.mem 0x7A).len = 0#LEN_W := by decide

theorem witness_EncEndPushesEndEntry :
    (withAcc abab [false, true] 2).enc.acc.length < WORD_W ∧ (withAcc abab [false, true] 2).enc.fault = .none ∧
    (withAcc abab [false, true] 2).enc.q.length ≠ EQ_DEPTH ∧ encFaulted.enc.fault ≠ .none ∧
    (withEncQ abab (List.replicate 64 ⟨0x55, 8, false⟩)).enc.q.length = EQ_DEPTH := by decide

theorem witness_EncPopTakesHead :
    (withEncQ abab [⟨0x50, 4, true⟩]).enc.q = ⟨0x50, 4, true⟩ :: [] ∧ abab.enc.q = [] := by decide

theorem witness_FaultedUnitRefusesStreamOperations :
    encFaulted.enc.fault ≠ .none ∧ decFaulted.dec.fault ≠ .none := by decide

theorem witness_EncPutFitsEmptyFifo :
    (withAcc abab [true] 1).enc.acc.length < WORD_W ∧ (withAcc abab [true] 1).enc.q = [] := by decide

/-- Both queues full. -/
theorem witness_PopsFreeBlockedOperations :
    (withEncQ abab (List.replicate 64 ⟨0x55, 8, false⟩)).enc.Inv ∧
    (withDecQ abab (List.replicate 16 ⟨0x61, false, false⟩)).dec.Inv := by
  constructor
  · refine ⟨by decide, by decide, by decide, by decide, by decide, by decide, fun e he => ?_⟩
    rw [List.eq_of_mem_replicate he]
    exact ⟨fun _ => by decide, fun h => by cases h⟩
  · refine ⟨by decide, by decide, by decide, by decide, fun e he => ?_⟩
    rw [List.eq_of_mem_replicate he]
    exact ⟨fun _ => by decide, fun h => by cases h⟩

/-- On the small block with its decoder queue full, the host holds DEC_END until it is accepted and is always ready to pop. -/
def endingRun : ClockRun small :=
  .ofStart (fun n => ⟨none, none, none, false, if n < 2 then some 1 else none, true, none⟩) (fun _ => 0)
    (applyOp .decEnd (State.resetOf small))

/-- After edge 1 the host drives nothing but its readiness to pop, which an empty queue does not answer. -/
theorem endingRun_only_pops {n : Nat} (hq : (endingRun.state (n + 3)).dec.q = []) {w : TWord small} {i : Instr small}
    (hw : endingRun.Drives w (n + 3)) (hi : decode w = .ok i) : ready i (endingRun.state (n + 3)) = false := by
  have hpop : decode (wordOf 0#0 5 : TWord small) = .ok .decPop := by decide
  have h : w = wordOf 0#0 5 := by
    simpa [ClockRun.Drives, drivenTransfers, endingRun, ClockRun.ofStart] using hw
  rw [h, hpop] at hi
  cases hi
  simp [ready, DecUnit.qEmpty, hq]

/-- After edge 2 both queues are empty for good. -/
theorem endingRun_stays (n : Nat) : (endingRun.state (n + 3)).enc.q = [] ∧ (endingRun.state (n + 3)).dec.q = [] := by
  induction n with
  | zero => decide
  | succ n ih =>
    have hnone : acceptedAtEdge (endingRun.sig (n + 3)) 0 (endingRun.state (n + 3)) = [] := by
      rw [List.eq_nil_iff_forall_not_mem]
      intro w hw
      obtain ⟨hd, ha⟩ := mem_acceptedAtEdge.1 hw
      obtain ⟨r, hr⟩ := Option.isSome_iff_exists.1 ha
      obtain ⟨i, hi, -, hi', -⟩ := answerAtEdge_eq_some.1 hr
      exact Bool.false_ne_true ((endingRun_only_pops ih.2 hd hi).symm.trans hi')
    have hnext : endingRun.state (n + 1 + 3) = cycleState (endingRun.sig (n + 3)) 0 (endingRun.state (n + 3)) := rfl
    rw [hnext, cycleState, hnone]
    exact ih

/-- PopsFreeBlockedOperations, its second part: the run is fair, the pops are fair, DEC_END is held from edge 0 on, and it is
accepted at edge 1, after the pop of edge 0. -/
theorem witness_fair_run :
    (endingRun.state 0).enc.Inv ∧ endingRun.Fair ∧ endingRun.PopsFair ∧ decode (0xC : TWord small) = .ok .decEnd ∧
    endingRun.HoldsRequest 0xC 0 ∧ ¬ endingRun.Accepts 0xC 0 ∧ endingRun.Accepts 0xC 1 := by
  have hacc : endingRun.Accepts 0xC 1 := by
    unfold ClockRun.Accepts
    decide
  refine ⟨?_, ⟨fun w n h => ?_, fun n h => ?_, fun n h => ?_⟩, ⟨fun n h => ?_, fun n h => ?_⟩, by decide, fun m _ h => ?_,
    by unfold ClockRun.Accepts; decide, hacc⟩
  · have h0 : (endingRun.state 0).enc.q = [] := by decide
    exact ⟨by decide, by decide, by decide, by decide, by decide, by decide, by simp [h0]⟩
  · obtain ⟨hd, i, hi, hr⟩ := h (n + 3) (by omega)
    exact absurd ((endingRun_only_pops (endingRun_stays n).2 hd hi).symm.trans hr) Bool.false_ne_true
  · exact absurd (endingRun_stays n).1 (h (n + 3) (by omega))
  · exact absurd (endingRun_stays n).2 (h (n + 3) (by omega))
  · exact absurd (endingRun_stays n).1 (h (n + 3) (by omega))
  · exact absurd (endingRun_stays n).2 (h (n + 3) (by omega))
  · by_cases hm : 2 ≤ m
    · exact absurd hacc (h 1 (by omega) (by omega))
    · obtain rfl | rfl : m = 0 ∨ m = 1 := by omega
      all_goals
        unfold ClockRun.Drives
        decide

theorem witness_DecBitEmitsLeafSymbol :
    abab.dec.fault = .none ∧ abab.dec.q.length ≠ DQ_DEPTH ∧ (tnRead abab.mem abab.mem.root).kind = .internal ∧
    (tnRead abab.mem (tnRead abab.mem abab.mem.root).right).kind = .leaf := by decide

theorem witness_DecBitDescends :
    aaabbc.dec.fault = .none ∧ aaabbc.dec.q.length ≠ DQ_DEPTH ∧ (tnRead aaabbc.mem aaabbc.mem.root).kind = .internal ∧
    (tnRead aaabbc.mem (tnRead aaabbc.mem aaabbc.mem.root).right).kind = .internal := by decide

/-- A root that is a leaf (VD4) and a chosen child that is empty (VC4). -/
theorem witness_DecBitBadTreeIsPrecise :
    (tnRead (applyOp (.cfgRoot 1) abab).mem (decPosition (applyOp (.cfgRoot 1) abab))).kind ≠ .internal ∧
    (tnRead (applyOp (.cfgNode 1 .empty 0 0 0) abab).mem (decPosition (applyOp (.cfgNode 1 .empty 0 0 0) abab))).kind =
      .internal ∧
    (tnRead (applyOp (.cfgNode 1 .empty 0 0 0) abab).mem
      ((tnRead (applyOp (.cfgNode 1 .empty 0 0 0) abab).mem
        (decPosition (applyOp (.cfgNode 1 .empty 0 0 0) abab))).child true)).kind = .empty ∧
    (applyOp (.cfgNode 1 .empty 0 0 0) abab).dec.fault = .none ∧
    (applyOp (.cfgNode 1 .empty 0 0 0) abab).dec.q.length ≠ DQ_DEPTH := by decide

/-- At the root, mid-path, faulted, and with a full queue. -/
theorem witness_DecEndClosesOrTruncates :
    (aaabbc.dec.fault = .none ∧ aaabbc.dec.q.length ≠ DQ_DEPTH ∧ aaabbc.dec.mid = false) ∧
    ((midAt aaabbc 3).dec.fault = .none ∧ (midAt aaabbc 3).dec.q.length ≠ DQ_DEPTH ∧
      (midAt aaabbc 3).dec.mid = true) ∧ decFaulted.dec.fault ≠ .none ∧
    (withDecQ abab (List.replicate 16 ⟨0x61, false, false⟩)).dec.q.length = DQ_DEPTH := by decide

theorem witness_DecPopTakesHead :
    (withDecQ abab [⟨0x61, false, false⟩]).dec.q = ⟨0x61, false, false⟩ :: [] ∧ abab.dec.q = [] := by decide

theorem witness_HardResetValues : (doing decFaulted [.hardReset]).events = .hardReset :: [] := by decide

/-- A state in the middle of a decoder stream meets the invariant. -/
theorem witness_EveryStepKeepsInvariants :
    StateInv (midAt aaabbc 3) ∧ PositionInternal (midAt aaabbc 3) ∧
    step (midAt aaabbc 3) = .next (idleStep (midAt aaabbc 3)) ∧
    (idleStep (midAt aaabbc 3)).resp ≠ .code .errBadTree := by
  have hpos : PositionInternal (midAt aaabbc 3) := fun _ => by decide
  refine ⟨⟨by decide, ?_, ?_, ?_, fun _ => hpos, (by cases ·)⟩, hpos, rfl, by decide⟩
  · unfold Memory.ctCanonical
    decide
  · simp [EncUnit.Inv, midAt, aaabbc, State.reset, State.resetOf, EncUnit.reset]
  · simp [DecUnit.Inv, midAt, aaabbc, State.reset, State.resetOf, DecUnit.reset]

/-- InvariantsAtEveryParameterChoice: the other block of the tests, and a step of it that changes the encoder. -/
theorem witness_InvariantsAtEveryParameterChoice :
    StateInv (State.resetOf small) ∧
    stepOf { State.resetOf small with events := [.offer 0xA] } = .next (applyOp .encEnd (State.resetOf small)) ∧
    (applyOp .encEnd (State.resetOf small)).enc.q.length = 1 := by
  refine ⟨⟨by decide, ?_, ?_, ?_, ?_⟩, rfl, by decide⟩
  · unfold Memory.ctCanonical
    decide
  · exact ⟨by decide, by decide, fun _ => ⟨rfl, rfl⟩, (by cases ·), fun _ => rfl, (by cases ·), by simp [State.resetOf, EncUnit.reset]⟩
  · simp [DecUnit.Inv, State.resetOf, DecUnit.reset]
  · simp [WalkInv, PositionInternal, State.resetOf, DecUnit.reset]

/-- R161 against R42 (e): with node 1 deleted while the decoder is closed, DEC_BIT 1 enters the internal node 3 and DEC_BIT 1
meets the EMPTY node 1, so that lines 21 to 23 leave `dec_mid = 1` and write 1 to `dec_cur`. (e) as written fails there, and WalkInv says what holds. -/
theorem witness_badTree_mid_path :
    let s := applyOp (.decBit true) (applyOp (.decBit true) (applyOp (.cfgNode 1 .empty 0 0 0) aaabbc))
    s.dec.mid = true ∧ s.dec.cur = 1 ∧ s.dec.fault = .badTree ∧ (tnRead s.mem s.dec.cur).kind = .empty ∧ WalkInv s ∧
      ¬ PositionInternal s :=
  ⟨by decide, by decide, by decide, by decide, ⟨fun h => absurd rfl h,
    fun _ => ⟨by decide, .inr ⟨by decide, 3, true, by decide, by decide, by decide⟩⟩⟩,
    fun h => absurd (h (by decide)) (by decide)⟩

/-- One operation of each class. -/
theorem witness_OperationsKeepToTheirUnit :
    ([.encPut 0x61, .encPop, .decBit true, .decPop, .cfgClear, .allClr, .statRd 2] : List Instr).map Instr.chan =
      [2, 3, 4, 5, 1, 0, 6] ∧
    exec .encEnd abab = .next (applyOp .encEnd abab) := ⟨rfl, rfl⟩

/-- Two states that differ in the model's own fields only. -/
theorem witness_OperationsDependOnBlockStateOnly :
    abab.mem = { abab with resets := 5, resp := .notReady }.mem ∧ abab ≠ { abab with resets := 5, resp := .notReady } := by
  decide

/-- Two states with one code table and different trees. -/
theorem witness_EncoderDoesNotSeeDecoder :
    (∀ sym, ctRead abab.mem sym = ctRead (applyOp (.cfgRoot 1) abab).mem sym) ∧
    abab.enc = (applyOp (.cfgRoot 1) abab).enc ∧ abab.mem ≠ (applyOp (.cfgRoot 1) abab).mem :=
  ⟨fun _ => rfl, by decide, by decide⟩

/-- Two states with one tree and different code tables. -/
theorem witness_DecoderDoesNotSeeEncoder :
    (∀ h, tnRead abab.mem h = tnRead (applyOp (.cfgCode 1 1 0) abab).mem h) ∧
    abab.mem.root = (applyOp (.cfgCode 1 1 0) abab).mem.root ∧ abab.dec = (applyOp (.cfgCode 1 1 0) abab).dec ∧
    abab.mem ≠ (applyOp (.cfgCode 1 1 0) abab).mem :=
  ⟨fun _ => rfl, by decide, by decide, by decide⟩

/-- Faulted units and an offered operation that is no clear. -/
theorem witness_FaultsLeaveOnlyByClearOrReset :
    step (doing encFaulted [.offer 0x612]) = .next (applyOp (.encPut 0x61) (doing encFaulted [])) ∧
    encFaulted.enc.fault ≠ .none ∧ decFaulted.dec.fault ≠ .none ∧
    decode (0x612 : TWord) ≠ .ok .encClr ∧ decode (0x612 : TWord) ≠ .ok .decClr ∧ decode (0x612 : TWord) ≠ .ok .allClr :=
  ⟨rfl, by decide, by decide, by decide, by decide, by decide⟩

/-- Open units and an offered configuration write. -/
theorem witness_ConfigurationFixedWhileOpen :
    step (doing encFaulted [.offer 0x2C29]) = .next (applyOp (.cfgCode 0x61 1 0) (doing encFaulted [])) ∧
    encFaulted.enc.isOpen = true ∧ decFaulted.dec.isOpen = true :=
  ⟨rfl, by decide, by decide⟩

/-- An offered pop. -/
theorem witness_QueuesAreFirstInFirstOut :
    step (doing (withEncQ abab [⟨0x50, 4, true⟩]) [.offer 0x3]) =
      .next (applyOp .encPop (doing (withEncQ abab [⟨0x50, 4, true⟩]) [])) ∧
    decode (0x3 : TWord) = .ok .encPop ∧
    (applyOp .encPop (doing (withEncQ abab [⟨0x50, 4, true⟩]) [])).resp = .word ⟨0x50, 4, true⟩ :=
  ⟨rfl, by decide, by decide⟩

theorem witness_BitstreamBitPositions :
    ∀ e ∈ [(⟨0x1F, 8, false⟩ : EncEntry), ⟨0x55, 8, false⟩], e.vbits.toNat = WORD_W := by decide

/-- The text "ab", an ENC_POP that is `NotReady` among its operations. -/
theorem abab_encRun : EncRun abab [0x61, 0x62] [.encPut 0x61, .encPop, .encPut 0x62, .encEnd] := by
  refine ⟨by decide, by decide, ?_⟩
  decide

/-- EncodedStreamIsCodesInOrder, LengthLaw. -/
theorem witness_EncodedStream :
    abab.enc.Inv ∧ EncRun abab [0x61, 0x62] [.encPut 0x61, .encPop, .encPut 0x62, .encEnd] ∧
    ∀ r ∈ encAccepted (trace [.encPut 0x61, .encPop, .encPut 0x62, .encEnd] abab), r.after.resp = .code .ok :=
  ⟨abab_inv.1, abab_encRun, by decide⟩

/-- The bits 0, 1 of "ab" decoded. -/
theorem abab_decRun : DecRun abab [false, true] [.decBit false, .decBit true, .decEnd] := by
  refine ⟨by decide, by decide, ?_⟩
  decide

/-- Every path of the tree of "abab". -/
theorem abab_node (p : Bits) (h : Handle) (hp : node abab.mem p = some h) :
    (p = [] ∧ h = 2) ∨ (p = [false] ∧ h = 0) ∨ (p = [true] ∧ h = 1) := by
  have h2 : (tnRead abab.mem 2).kind = .internal ∧ (tnRead abab.mem 2).child false = 0 ∧
    (tnRead abab.mem 2).child true = 1 := by decide
  have hleaf : (tnRead abab.mem 0).kind ≠ .internal ∧ (tnRead abab.mem 1).kind ≠ .internal := by decide
  cases p with
  | nil => exact Or.inl ⟨rfl, (Option.some.inj hp).symm⟩
  | cons b q =>
    have hroot : nodeFrom abab.mem 2 (b :: q) = some h := hp
    rw [nodeFrom, if_pos h2.1] at hroot
    by_cases hq : q = []
    · subst hq
      cases b
      · rw [h2.2.1] at hroot
        exact Or.inr (Or.inl ⟨rfl, (Option.some.inj hroot).symm⟩)
      · rw [h2.2.2] at hroot
        exact Or.inr (Or.inr ⟨rfl, (Option.some.inj hroot).symm⟩)
    · cases b
      · rw [h2.2.1, nodeFrom_of_not_internal hleaf.1 hq] at hroot
        cases hroot
      · rw [h2.2.2, nodeFrom_of_not_internal hleaf.2 hq] at hroot
        cases hroot

/-- The leaf paths of the tree of "abab". -/
theorem abab_leafPath (p : Bits) (sym : Symbol) (h : LeafPath abab.mem p sym) :
    (p = [false] ∧ sym = 0x61) ∨ (p = [true] ∧ sym = 0x62) := by
  obtain ⟨k, hk, hleaf, hsym⟩ := h
  rcases abab_node p k hk with ⟨rfl, rfl⟩ | ⟨rfl, rfl⟩ | ⟨rfl, rfl⟩
  · exact absurd hleaf (by decide)
  · exact Or.inl ⟨rfl, hsym.symm.trans (by decide)⟩
  · exact Or.inr ⟨rfl, hsym.symm.trans (by decide)⟩

theorem abab_leafPaths : LeafPath abab.mem [false] 0x61 ∧ LeafPath abab.mem [true] 0x62 :=
  ⟨⟨0, by decide⟩, ⟨1, by decide⟩⟩

theorem abab_generalForm : GeneralForm abab.mem := by
  intro p h hp
  rcases abab_node p h hp with ⟨rfl, rfl⟩ | ⟨rfl, rfl⟩ | ⟨rfl, rfl⟩ <;> decide

theorem abab_wfTree : WfTree abab.mem := by
  refine ⟨by decide, ?_, Or.inl abab_generalForm, ?_⟩
  · intro p q h hp hq
    rcases abab_node p h hp with ⟨rfl, rfl⟩ | ⟨rfl, rfl⟩ | ⟨rfl, rfl⟩ <;>
      rcases abab_node q _ hq with ⟨rfl, hh⟩ | ⟨rfl, hh⟩ | ⟨rfl, hh⟩ <;> first | rfl | exact absurd hh (by decide)
  · intro p q sym hp hq
    rcases abab_leafPath p sym hp with ⟨rfl, rfl⟩ | ⟨rfl, rfl⟩ <;>
      rcases abab_leafPath q _ hq with ⟨rfl, hh⟩ | ⟨rfl, hh⟩ <;> first | rfl | exact absurd hh (by decide)

/-- DecodedStreamFollowsPaths: two paths and no remainder. -/
theorem witness_DecodedStreamFollowsPaths :
    abab.dec.Inv ∧ (∀ p ∈ [([false], (0x61 : Symbol)), ([true], 0x62)], LeafPath abab.mem p.1 p.2) ∧
    (∃ h, node abab.mem [] = some h ∧ (tnRead abab.mem h).kind = .internal) ∧
    DecRun abab ([([false], (0x61 : Symbol)), ([true], 0x62)].flatMap Prod.fst ++ [])
      [.decBit false, .decBit true, .decEnd] := by
  refine ⟨abab_inv.2, ?_, ⟨2, by decide⟩, abab_decRun⟩
  intro p hp
  rcases List.mem_cons.1 hp with rfl | hp
  · exact abab_leafPaths.1
  · rw [List.mem_singleton.1 hp]
    exact abab_leafPaths.2

/-- BitsSplitIntoPaths. -/
theorem witness_BitsSplitIntoPaths : WfTree abab.mem ∧ GeneralForm abab.mem := ⟨abab_wfTree, abab_generalForm⟩

/-- The codes of "abab" are the paths of its leaves. -/
theorem abab_codes (p : Bits) (sym : Symbol) (h : LeafPath abab.mem p sym) :
    (ctRead abab.mem sym).len.toNat = p.length ∧ codebits (ctRead abab.mem sym) = p := by
  rcases abab_leafPath p sym h with ⟨rfl, rfl⟩ | ⟨rfl, rfl⟩ <;> decide

/-- ConsistentCodesArePrefixFree, with its two symbols. -/
theorem witness_ConsistentCodesArePrefixFree :
    Consistent abab.mem ∧ (0x61 : Symbol) ≠ 0x62 ∧ (ctRead abab.mem 0x61).len ≠ 0#LEN_W ∧
    (ctRead abab.mem 0x62).len ≠ 0#LEN_W := by
  refine ⟨⟨abab_wfTree, abab_codes, fun sym hno => ?_⟩, by decide, by decide, by decide⟩
  have ha : sym ≠ 0x61 := fun h => hno [false] (h ▸ abab_leafPaths.1)
  have hb : sym ≠ 0x62 := fun h => hno [true] (h ▸ abab_leafPaths.2)
  have hne : ∀ v : Symbol, sym ≠ v → v.toNat ≠ sym.toNat := fun v hv he => hv (BitVec.eq_of_toNat_eq he.symm)
  have h1 : (0x61 : Nat) ≠ sym.toNat := hne 0x61 ha
  have h2 : (0x62 : Nat) ≠ sym.toNat := hne 0x62 hb
  simp [ctRead, abab, cellGet, h1, h2, ctUnlisted, CodeEntry.absent]

/-- The alphabet of "abab". -/
theorem abab_consistentOn : ConsistentOn abab.mem (fun sym => sym = 0x61 ∨ sym = 0x62) := by
  refine ⟨abab_wfTree, fun sym hsym => ⟨?_, fun p => abab_codes p sym⟩⟩
  rcases hsym with rfl | rfl
  · exact ⟨_, abab_leafPaths.1⟩
  · exact ⟨_, abab_leafPaths.2⟩

/-- RoundTripLaw: the text "ab" encoded and decoded. -/
theorem witness_RoundTripLaw :
    ConsistentOn abab.mem (fun sym => sym = 0x61 ∨ sym = 0x62) ∧ (∀ x ∈ [(0x61 : Symbol), 0x62], x = 0x61 ∨ x = 0x62) ∧
    abab.enc.Inv ∧ EncRun abab [0x61, 0x62] [.encPut 0x61, .encPop, .encPut 0x62, .encEnd] ∧ abab.dec.Inv ∧
    DecRun abab (unpack (encOut (trace [.encPut 0x61, .encPop, .encPut 0x62, .encEnd] abab)))
      [.decBit false, .decBit true, .decEnd] := by
  refine ⟨abab_consistentOn, by decide, abab_inv.1, abab_encRun, abab_inv.2, ?_⟩
  rw [show unpack (encOut (trace [.encPut 0x61, .encPop, .encPut 0x62, .encEnd] abab)) = [false, true] by decide]
  exact abab_decRun

/-- TruncationLaw, first part: the bits 0, 1 and no remainder. The other hypotheses are witness_DecodedStreamFollowsPaths. -/
theorem witness_TruncationLaw_paths : ∀ q sym, q <+: [] → ¬ LeafPath abab.mem q sym := by
  intro q sym hq h
  rw [List.prefix_nil.1 hq] at h
  rcases abab_leafPath [] sym h with ⟨h', _⟩ | ⟨h', _⟩ <;> cases h'

/-- The tree `0 ↦ 'a'`, `10 ↦ 'c'`, `11 ↦ 'b'` of "aaabbc", by its paths. -/
theorem aaabbc_node (p : Bits) (h : Handle) (hp : node aaabbc.mem p = some h) :
    (p = [] ∧ h = 4) ∨ (p = [false] ∧ h = 0) ∨ (p = [true] ∧ h = 3) ∨ (p = [true, false] ∧ h = 2) ∨
    (p = [true, true] ∧ h = 1) := by
  have h4 : (tnRead aaabbc.mem 4).kind = .internal ∧ (tnRead aaabbc.mem 4).child false = 0 ∧
    (tnRead aaabbc.mem 4).child true = 3 := by decide
  have h3 : (tnRead aaabbc.mem 3).kind = .internal ∧ (tnRead aaabbc.mem 3).child false = 2 ∧
    (tnRead aaabbc.mem 3).child true = 1 := by decide
  have hleaf : ∀ k ∈ [(0 : Handle), 1, 2], (tnRead aaabbc.mem k).kind ≠ .internal := by decide
  have stop : ∀ k ∈ [(0 : Handle), 1, 2], ∀ q, nodeFrom aaabbc.mem k q = some h → q = [] ∧ h = k := by
    intro k hk q hq
    by_cases hn : q = []
    · subst hn
      exact ⟨rfl, (Option.some.inj hq).symm⟩
    · rw [nodeFrom_of_not_internal (hleaf k hk) hn] at hq
      cases hq
  cases p with
  | nil => exact Or.inl ⟨rfl, (Option.some.inj hp).symm⟩
  | cons b q =>
    have hroot : nodeFrom aaabbc.mem 4 (b :: q) = some h := hp
    rw [nodeFrom, if_pos h4.1] at hroot
    cases b
    · rw [h4.2.1] at hroot
      obtain ⟨rfl, rfl⟩ := stop 0 (by simp) q hroot
      simp
    · rw [h4.2.2] at hroot
      cases q with
      | nil =>
        obtain rfl := Option.some.inj hroot
        simp
      | cons c r =>
        rw [nodeFrom, if_pos h3.1] at hroot
        cases c
        · rw [h3.2.1] at hroot
          obtain ⟨rfl, rfl⟩ := stop 2 (by simp) r hroot
          simp
        · rw [h3.2.2] at hroot
          obtain ⟨rfl, rfl⟩ := stop 1 (by simp) r hroot
          simp

theorem aaabbc_generalForm : GeneralForm aaabbc.mem := by
  intro p h hp
  rcases aaabbc_node p h hp with ⟨rfl, rfl⟩ | ⟨rfl, rfl⟩ | ⟨rfl, rfl⟩ | ⟨rfl, rfl⟩ | ⟨rfl, rfl⟩ <;> decide

theorem aaabbc_leafPath (p : Bits) (sym : Symbol) (h : LeafPath aaabbc.mem p sym) :
    (p = [false] ∧ sym = 0x61) ∨ (p = [true, false] ∧ sym = 0x63) ∨ (p = [true, true] ∧ sym = 0x62) := by
  obtain ⟨k, hk, hleaf, hsym⟩ := h
  rcases aaabbc_node p k hk with ⟨rfl, rfl⟩ | ⟨rfl, rfl⟩ | ⟨rfl, rfl⟩ | ⟨rfl, rfl⟩ | ⟨rfl, rfl⟩
  · exact absurd hleaf (by decide)
  · exact Or.inl ⟨rfl, hsym.symm.trans (by decide)⟩
  · exact absurd hleaf (by decide)
  · exact Or.inr (Or.inl ⟨rfl, hsym.symm.trans (by decide)⟩)
  · exact Or.inr (Or.inr ⟨rfl, hsym.symm.trans (by decide)⟩)

theorem aaabbc_consistentOn : ConsistentOn aaabbc.mem (fun sym => sym = 0x63) := by
  refine ⟨⟨by decide, ?_, Or.inl aaabbc_generalForm, ?_⟩, ?_⟩
  · intro p q h hp hq
    rcases aaabbc_node p h hp with ⟨rfl, rfl⟩ | ⟨rfl, rfl⟩ | ⟨rfl, rfl⟩ | ⟨rfl, rfl⟩ | ⟨rfl, rfl⟩ <;>
      rcases aaabbc_node q _ hq with ⟨rfl, hh⟩ | ⟨rfl, hh⟩ | ⟨rfl, hh⟩ | ⟨rfl, hh⟩ | ⟨rfl, hh⟩ <;>
        first | rfl | exact absurd hh (by decide)
  · intro p q sym hp hq
    rcases aaabbc_leafPath p sym hp with ⟨rfl, rfl⟩ | ⟨rfl, rfl⟩ | ⟨rfl, rfl⟩ <;>
      rcases aaabbc_leafPath q _ hq with ⟨rfl, hh⟩ | ⟨rfl, hh⟩ | ⟨rfl, hh⟩ <;> first | rfl | exact absurd hh (by decide)
  · rintro sym rfl
    refine ⟨⟨[true, false], 2, by decide⟩, fun p hp => ?_⟩
    rcases aaabbc_leafPath p _ hp with ⟨rfl, hh⟩ | ⟨rfl, -⟩ | ⟨rfl, hh⟩
    · exact absurd hh (by decide)
    · decide
    · exact absurd hh (by decide)

/-- EveryStepKeepsInvariants, its last part: mid-path in a well-formed tree (the other premises are the witness above). -/
theorem witness_EveryStepKeepsInvariants_wfTree :
    WfTree (midAt aaabbc 3).mem ∧ PositionReached (midAt aaabbc 3) ∧ (midAt aaabbc 3).dec.mid = true :=
  ⟨aaabbc_consistentOn.1, fun _ => ⟨[true], by decide, by decide⟩, rfl⟩

/-- TruncationLaw, second part: the text "c" loses one bit of its two. -/
theorem witness_TruncationLaw_cut :
    ConsistentOn aaabbc.mem (fun sym => sym = 0x63) ∧ GeneralForm aaabbc.mem ∧
    (∀ y ∈ ([] : List Symbol) ++ [0x63], y = 0x63) ∧ aaabbc.enc.Inv ∧
    EncRun aaabbc ([] ++ [0x63]) [.encPut 0x63, .encEnd] ∧ aaabbc.dec.Inv ∧ 1 < (ctRead aaabbc.mem 0x63).len.toNat ∧
    DecRun aaabbc ((unpack (encOut (trace [.encPut 0x63, .encEnd] aaabbc))).take
      ((unpack (encOut (trace [.encPut 0x63, .encEnd] aaabbc))).length - 1)) [.decBit true, .decEnd] := by
  refine ⟨aaabbc_consistentOn, aaabbc_generalForm, by decide, ?_, ⟨by decide, by decide, by decide⟩, ?_, by decide, ?_⟩
  · simp [EncUnit.Inv, aaabbc, State.reset, State.resetOf, EncUnit.reset]
  · simp [DecUnit.Inv, aaabbc, State.reset, State.resetOf, DecUnit.reset]
  · rw [show unpack (encOut (trace [.encPut 0x63, .encEnd] aaabbc)) = [true, false] by decide]
    exact ⟨by decide, by decide, by decide⟩

/-- InterleavingDoesNotMatter: one text, two interleavings, from states with different decoders. -/
theorem witness_InterleavingDoesNotMatter :
    (∀ sym, ctRead abab.mem sym = ctRead (midAt abab 2).mem sym) ∧ (midAt abab 2).enc.Inv ∧
    EncRun abab [0x61, 0x62] [.encPut 0x61, .encPop, .encPut 0x62, .encEnd] ∧
    EncRun (midAt abab 2) [0x61, 0x62] [.decEnd, .encPut 0x61, .encPut 0x62, .statRd 2, .encEnd] := by
  refine ⟨fun _ => rfl, abab_inv.1, abab_encRun, ⟨by decide, by decide, ?_⟩⟩
  decide

/-- The same for the decoder: one bit sequence, two interleavings, from states with different encoders. -/
theorem witness_InterleavingDoesNotMatter_decoder :
    abab.mem.root = encFaulted.mem.root ∧ (∀ h, tnRead abab.mem h = tnRead encFaulted.mem h) ∧
    encFaulted.dec.Inv ∧ abab.dec.cur = encFaulted.dec.cur ∧
    DecRun abab [false, true] [.decBit false, .decBit true, .decEnd] ∧
    DecRun encFaulted [false, true] [.decBit false, .decPop, .encEnd, .decBit true, .decEnd] := by
  refine ⟨by decide, fun _ => rfl, abab_inv.2, by decide, abab_decRun, ⟨by decide, by decide, ?_⟩⟩
  decide

theorem witness_HostBuildFailsOnlyOnEmptyText : [(0x61 : Symbol)] ≠ [] := by decide

/-- TransferIsValidAndReady: an edge at which the pop of a queued word and a put are accepted, and one that holds port 3. -/
theorem witness_TransferIsValidAndReady :
    (doing (withEncQ abab [⟨0x50, 4, true⟩]) [.edge ⟨none, none, some 0xC2, true, none, false, none⟩ 0]).events =
      .edge ⟨none, none, some 0xC2, true, none, false, none⟩ 0 :: [] ∧
    acceptedAtEdge ⟨none, none, some 0xC2, true, none, false, none⟩ 0 (withEncQ abab [⟨0x50, 4, true⟩]) = [0x3, 0x612] ∧
    acceptedAtEdge ⟨none, none, some 0xC2, true, none, false, none⟩ 8 (withEncQ abab [⟨0x50, 4, true⟩]) = [0x612] := by
  decide

end Sys2Proof.Tests
end

section
/-! PROOFS. Decoding what `encode` writes (R94 to R105): the port selects the decoder, and each decoder reads the fields of a
word back where `encode` put them. -/

namespace Sys2Proof

variable {P : Params}

/-! ### The decoder of a word, by its port (R95) -/

section Ports

variable {w : Nat} (p : BitVec w)

theorem decode_wordOf_ctrl : decode (wordOf p 0 : TWord P) = .ok (decodeCtrl (wordOf p 0)) := by
  simp only [decode, wordOf_chan]; rfl

theorem decode_wordOf_cfg : decode (wordOf p 1 : TWord P) = .ok (decodeCfg (wordOf p 1)) := by
  simp only [decode, wordOf_chan]; rfl

theorem decode_wordOf_symIn : decode (wordOf p 2 : TWord P) = .ok (decodeSymIn (wordOf p 2)) := by
  simp only [decode, wordOf_chan]; rfl

theorem decode_wordOf_encPop : decode (wordOf p 3 : TWord P) = .ok .encPop := by
  simp only [decode, wordOf_chan]; rfl

theorem decode_wordOf_bitIn : decode (wordOf p 4 : TWord P) = .ok (decodeBitIn (wordOf p 4)) := by
  simp only [decode, wordOf_chan]; rfl

theorem decode_wordOf_decPop : decode (wordOf p 5 : TWord P) = .ok .decPop := by
  simp only [decode, wordOf_chan]; rfl

theorem decode_wordOf_statRd : decode (wordOf p 6 : TWord P) = .ok (.statRd ((wordOf p 6 : TWord P).extractLsb' 3 4)) := by
  simp only [decode, wordOf_chan]; rfl

end Ports

/-! ### The selecting bits (R96, R97, R101, R103) -/

/-- `T[3]` is payload bit 0. -/
theorem wordOf_bit_three {w : Nat} (p : BitVec w) (c : BitVec 3) : (wordOf p c : TWord P).getLsbD 3 = p.getLsbD 0 :=
  have hfit := P.formats_fit
  wordOf_getLsbD _ _ _ le_rfl (by omega)

/-- `T[4]` is payload bit 1. -/
theorem wordOf_bit_four {w : Nat} (p : BitVec w) (c : BitVec 3) : (wordOf p c : TWord P).getLsbD 4 = p.getLsbD 1 :=
  have hfit := P.formats_fit
  wordOf_getLsbD _ _ _ (by omega) (by omega)

/-- The low bit of a payload whose lowest field is one bit. -/
theorem append_getLsbD_zero {w : Nat} (x : BitVec w) (b : BitVec 1) : (x ++ b).getLsbD 0 = b.getLsbD 0 :=
  append_getLsbD_low _ _ _ (by omega)

/-- The two selecting bits `op` of a CFG payload (R97). -/
theorem wordOf_op_bits {w : Nat} (x : BitVec w) (op : BitVec 2) :
    (wordOf (x ++ op) 1 : TWord P).getLsbD 3 = op.getLsbD 0 ∧ (wordOf (x ++ op) 1 : TWord P).getLsbD 4 = op.getLsbD 1 := by
  rw [wordOf_bit_three, wordOf_bit_four, append_getLsbD_low _ _ _ (by omega), append_getLsbD_low _ _ _ (by omega)]
  exact ⟨rfl, rfl⟩

/-! ### The operand fields (R98 to R101, R104) -/

/-- The payload of CFG_CODE (R98). -/
theorem wordOf_cfgCode_fields (sym : Symbol P) (len : CodeLen P) (code : CodeInt P) :
    let t : TWord P := wordOf (code ++ len ++ sym ++ 1#2) 1
    t.extractLsb' 5 P.SYM_W = sym ∧ t.extractLsb' (5 + P.SYM_W) P.LEN_W = len ∧
    t.extractLsb' (5 + P.SYM_W + P.LEN_W) P.MAXLEN = code := by
  obtain ⟨hfit, -, -⟩ := P.formats_fit
  refine ⟨?_, ?_, ?_⟩ <;>
    simp (disch := omega) only [wordOf_extract, append_extract_high, append_extract_low] <;>
    exact extract_whole _ _ (by omega)

/-- The payload of CFG_NODE (R99). -/
theorem wordOf_cfgNode_fields (h : Handle P) (kind : NodeKind) (left right : Handle P) (sym : Symbol P) :
    let t : TWord P := wordOf (sym ++ right ++ left ++ kindToBits kind ++ h ++ 2#2) 1
    t.extractLsb' 5 P.NODE_W = h ∧ t.extractLsb' (5 + P.NODE_W) 2 = kindToBits kind ∧
    t.extractLsb' (7 + P.NODE_W) P.NODE_W = left ∧ t.extractLsb' (7 + 2 * P.NODE_W) P.NODE_W = right ∧
    t.extractLsb' (7 + 3 * P.NODE_W) P.SYM_W = sym := by
  obtain ⟨-, hfit, -⟩ := P.formats_fit
  refine ⟨?_, ?_, ?_, ?_, ?_⟩ <;>
    simp (disch := omega) only [wordOf_extract, append_extract_high, append_extract_low] <;>
    exact extract_whole _ _ (by omega)

/-- A payload of one operand above `v` selecting bits (R100, R101). -/
theorem wordOf_top_field {n v : Nat} (f : BitVec n) (y : BitVec v) (c : BitVec 3) (hfit : v + 3 + n ≤ P.T_W) :
    (wordOf (f ++ y) c : TWord P).extractLsb' (v + 3) n = f := by
  rw [wordOf_extract _ _ _ _ (by omega) hfit, append_extract_high _ _ _ _ (by omega)]
  exact extract_whole _ _ (by omega)

/-- A payload that is one operand (R104). -/
theorem wordOf_whole_field {n : Nat} (f : BitVec n) (c : BitVec 3) (hfit : 3 + n ≤ P.T_W) :
    (wordOf f c : TWord P).extractLsb' 3 n = f := by
  rw [wordOf_extract _ _ _ _ le_rfl hfit]
  exact extract_whole _ _ rfl

/-! ### Every operation is read back -/

/-- Format CTRL (R96). -/
theorem decode_wordOf_ctrl_bits (cd ce : Bool) :
    decode (wordOf (BitVec.ofBool cd ++ BitVec.ofBool ce) 0 : TWord P) =
      .ok (if cd then (if ce then .allClr else .decClr) else (if ce then .encClr else .ctrlNop)) := by
  rw [decode_wordOf_ctrl, decodeCtrl, wordOf_bit_three, wordOf_bit_four]
  cases cd <;> cases ce <;> rfl

/-- Decoding undoes encoding, whatever the operands. -/
theorem decode_encode (i : Instr P) : decode (encode i) = .ok i := by
  have hfit := P.formats_fit
  cases i with
  | ctrlNop => exact decode_wordOf_ctrl_bits false false
  | encClr => exact decode_wordOf_ctrl_bits false true
  | decClr => exact decode_wordOf_ctrl_bits true false
  | allClr => exact decode_wordOf_ctrl_bits true true
  | cfgClear =>
    rw [encode, decode_wordOf_cfg, decodeCfg, wordOf_bit_three, wordOf_bit_four]
    rfl
  | cfgCode sym len code =>
    obtain ⟨hop, hop'⟩ := wordOf_op_bits (P := P) (code ++ len ++ sym) 1#2
    obtain ⟨hsym, hlen, hcode⟩ := wordOf_cfgCode_fields sym len code
    rw [encode, decode_wordOf_cfg, decodeCfg, hop, hop', hsym, hlen, hcode]
    rfl
  | cfgNode h kind left right sym =>
    obtain ⟨hop, hop'⟩ := wordOf_op_bits (P := P) (sym ++ right ++ left ++ kindToBits kind ++ h) 2#2
    obtain ⟨hh, hkind, hleft, hright, hsym⟩ := wordOf_cfgNode_fields h kind left right sym
    rw [encode, decode_wordOf_cfg, decodeCfg, hop, hop', hh, hkind, hleft, hright, hsym, kindOfBits_kindToBits]
    rfl
  | cfgRoot h =>
    obtain ⟨hop, hop'⟩ := wordOf_op_bits (P := P) h 3#2
    rw [encode, decode_wordOf_cfg, decodeCfg, hop, hop', wordOf_top_field h 3#2 1 (by omega)]
    rfl
  | encPut sym =>
    rw [encode, decode_wordOf_symIn, decodeSymIn, wordOf_bit_three, append_getLsbD_zero, wordOf_top_field sym 0#1 2 (by omega)]
    rfl
  | encEnd =>
    rw [encode, decode_wordOf_symIn, decodeSymIn, wordOf_bit_three, append_getLsbD_zero]
    rfl
  | encPop => exact decode_wordOf_encPop _
  | decBit bit =>
    rw [encode, decode_wordOf_bitIn, decodeBitIn, wordOf_bit_three, wordOf_bit_four]
    cases bit <;> rfl
  | decEnd =>
    rw [encode, decode_wordOf_bitIn, decodeBitIn, wordOf_bit_three]
    rfl
  | decPop => exact decode_wordOf_decPop _
  | statRd idx => rw [encode, decode_wordOf_statRd, wordOf_whole_field idx 6 (by omega)]

/-- Settles O1, by the word of each operation: its port and its selecting bits choose the format, and every operand lies where the
format reads it. -/
theorem decodeOfEncode : Obligations.DecodeOfEncode := by
  unfold Obligations.DecodeOfEncode
  exact fun _ i => decode_encode i

end Sys2Proof
end


section
/-! PROOFS. The machine's invariant at every choice of parameters (R24, R35, R37, R40, R42): it holds after reset, each operation
keeps the part of it that it writes, and so every step keeps it. -/

namespace Sys2Proof.Machine

open Sys2Proof

variable {P : Params}

/-! ### Who writes what (R120, R140, R160, R180) -/

/-- Only a CFG operation writes the configuration. -/
theorem applyOp_mem {i : Instr P} (h : i.chan ≠ 1) (s : State P) : (applyOp i s).mem = s.mem := by
  cases i with
  | ctrlNop | encClr | decClr | allClr | statRd => rfl
  | cfgClear | cfgCode | cfgNode | cfgRoot => exact absurd rfl h
  | encPut sym =>
    rcases encPut_cases sym s with ⟨-, he⟩ | ⟨-, -, he⟩ | ⟨-, -, -, he⟩ | ⟨-, -, -, he⟩ <;> rw [he] <;> simp
  | encEnd => rcases encEnd_cases s with ⟨-, he⟩ | ⟨-, -, he⟩ | ⟨-, -, he⟩ <;> rw [he] <;> simp
  | encPop => rcases encPop_cases s with ⟨-, he⟩ | ⟨e, rest, -, he⟩ <;> rw [he] <;> rfl
  | decBit bit =>
    rcases decBit_cases bit s with ⟨-, he⟩ | ⟨-, -, he⟩ | ⟨-, -, -, he⟩ | ⟨-, -, -, he⟩ <;> rw [he] <;>
      simp [(enterChild_frame _ _).1]
  | decEnd =>
    rcases decEnd_cases s with ⟨-, he⟩ | ⟨-, -, he⟩ | ⟨-, -, -, he⟩ | ⟨-, -, -, he⟩ <;> rw [he] <;> simp
  | decPop => rcases decPop_cases s with ⟨-, he⟩ | ⟨e, rest, -, he⟩ <;> rw [he] <;> rfl

/-- CFG and decoder operations leave the encoder. -/
theorem applyOp_enc {i : Instr P} (h : i.chan = 1 ∨ i.chan = 4 ∨ i.chan = 5) (s : State P) :
    (applyOp i s).enc = s.enc := by
  cases i with
  | ctrlNop | encClr | decClr | allClr | statRd | encPut | encEnd | encPop => simp [Instr.chan] at h
  | cfgClear => rcases cfgClear_cases s with ⟨-, he⟩ | ⟨-, -, he⟩ <;> rw [he] <;> rfl
  | cfgCode sym len code => rcases cfgCode_cases sym len code s with ⟨-, he⟩ | ⟨-, he⟩ <;> rw [he] <;> rfl
  | cfgNode hd kind left right sym =>
    rcases cfgNode_cases hd kind left right sym s with ⟨-, he⟩ | ⟨-, he⟩ <;> rw [he] <;> rfl
  | cfgRoot hd => rcases cfgRoot_cases hd s with ⟨-, he⟩ | ⟨-, he⟩ <;> rw [he] <;> rfl
  | decBit bit =>
    rcases decBit_cases bit s with ⟨-, he⟩ | ⟨-, -, he⟩ | ⟨-, -, -, he⟩ | ⟨-, -, -, he⟩ <;> rw [he] <;>
      simp [(enterChild_frame _ _).2.1]
  | decEnd =>
    rcases decEnd_cases s with ⟨-, he⟩ | ⟨-, -, he⟩ | ⟨-, -, -, he⟩ | ⟨-, -, -, he⟩ <;> rw [he] <;> simp
  | decPop => rcases decPop_cases s with ⟨-, he⟩ | ⟨e, rest, -, he⟩ <;> rw [he] <;> rfl

/-- CFG and encoder operations leave the decoder. -/
theorem applyOp_dec {i : Instr P} (h : i.chan = 1 ∨ i.chan = 2 ∨ i.chan = 3) (s : State P) :
    (applyOp i s).dec = s.dec := by
  cases i with
  | ctrlNop | encClr | decClr | allClr | statRd | decBit | decEnd | decPop => simp [Instr.chan] at h
  | cfgClear => rcases cfgClear_cases s with ⟨-, he⟩ | ⟨-, -, he⟩ <;> rw [he] <;> rfl
  | cfgCode sym len code => rcases cfgCode_cases sym len code s with ⟨-, he⟩ | ⟨-, he⟩ <;> rw [he] <;> rfl
  | cfgNode hd kind left right sym =>
    rcases cfgNode_cases hd kind left right sym s with ⟨-, he⟩ | ⟨-, he⟩ <;> rw [he] <;> rfl
  | cfgRoot hd => rcases cfgRoot_cases hd s with ⟨-, he⟩ | ⟨-, he⟩ <;> rw [he] <;> rfl
  | encPut sym =>
    rcases encPut_cases sym s with ⟨-, he⟩ | ⟨-, -, he⟩ | ⟨-, -, -, he⟩ | ⟨-, -, -, he⟩ <;> rw [he] <;> simp
  | encEnd => rcases encEnd_cases s with ⟨-, he⟩ | ⟨-, -, he⟩ | ⟨-, -, he⟩ <;> rw [he] <;> simp
  | encPop => rcases encPop_cases s with ⟨-, he⟩ | ⟨e, rest, -, he⟩ <;> rw [he] <;> rfl

/-! ### The encoder unit (R37) -/

theorem EncUnit.reset_inv : (EncUnit.reset : EncUnit P).Inv := by
  refine ⟨P.wordW_pos, Nat.zero_le _, ?_, ?_, ?_, ?_, ?_⟩ <;> simp [EncUnit.reset]

/-- What an ENC_PUT leaves in the accumulator (R141 line 12). -/
theorem appendCode_acc_length (e : CodeEntry P) (s : State P) :
    (appendCode e s).enc.acc.length = (s.enc.acc.length + e.len.toNat) % P.WORD_W := by
  simp only [appendCode_enc, List.length_drop, List.length_append, codebits_length, wordsCompleted]
  have := Nat.div_add_mod' (s.enc.acc.length + e.len.toNat) P.WORD_W
  omega

/-- `enc_bits` after an ENC_PUT, counted from 0 in a new stream (R36). -/
theorem appendCode_bits_toNat (e : CodeEntry P) (s : State P) :
    (appendCode e s).enc.bits.toNat = ((if s.enc.isOpen then s.enc.bits.toNat else 0) + e.len.toNat) % 2 ^ P.CNT_W := by
  simp only [appendCode_enc, BitVec.toNat_add, BitVec.toNat_ofNat, Nat.add_mod_mod]
  cases s.enc.isOpen <;> simp

/-- `enc_syms` after an ENC_PUT, counted from 0 in a new stream (R36). -/
theorem appendCode_syms_toNat (e : CodeEntry P) (s : State P) :
    (appendCode e s).enc.syms.toNat = ((if s.enc.isOpen then s.enc.syms.toNat else 0) + 1) % 2 ^ P.CNT_W := by
  have h1 : (1 : Count P).toNat = 1 % 2 ^ P.CNT_W := rfl
  simp only [appendCode_enc, BitVec.toNat_add, h1, Nat.add_mod_mod]
  cases s.enc.isOpen <;> simp

/-- An accepted ENC_PUT keeps the encoder's invariant: the counter and the accumulator grow by the same code. -/
theorem appendCode_keeps_enc_inv (e : CodeEntry P) {s : State P} (h : s.enc.Inv) (hf : s.enc.fault = .none)
    (hk : wordsCompleted s e.len.toNat ≤ P.EQ_DEPTH - s.enc.q.length) : (appendCode e s).enc.Inv := by
  have hacc := appendCode_acc_length e s
  have hbits := appendCode_bits_toNat e s
  obtain ⟨-, hq, hclosed, -, herr, hcount, hform⟩ := h
  refine ⟨hacc ▸ Nat.mod_lt _ P.wordW_pos, ?_, by simp, by simp [hf], by simpa using herr, ?_, ?_⟩
  · simp only [appendCode_enc, List.length_append, fullWords_length]
    omega
  · intro _ _ hdvd
    rw [hbits, hacc, Nat.mod_mod_of_dvd _ hdvd]
    cases hopen : s.enc.isOpen with
    | true => rw [if_pos rfl, ← hcount hopen hf hdvd, Nat.mod_add_mod]
    | false => simp [(hclosed hopen).1]
  · intro w hw
    simp only [appendCode_enc, List.mem_append] at hw
    rcases hw with hw | hw
    · exact hform w hw
    · obtain ⟨hv, hl⟩ := fullWords_full hw
      exact ⟨fun _ => hv, fun h => absurd (hl.symm.trans h) Bool.false_ne_true⟩

theorem endEncStream_keeps_enc_inv {s : State P} (h : s.enc.Inv) (hf : s.enc.fault = .none)
    (hroom : s.enc.q.length ≠ P.EQ_DEPTH) : (endEncStream s).enc.Inv := by
  obtain ⟨hacc, hq, -, -, herr, -, hform⟩ := h
  refine ⟨P.wordW_pos, ?_, by simp [hf], by simp [hf], by simpa using herr, by simp, ?_⟩
  · simp only [endEncStream_enc, List.length_append, List.length_singleton]
    omega
  · intro w hw
    simp only [endEncStream_enc, List.mem_append, List.mem_singleton] at hw
    rcases hw with hw | rfl
    · exact hform w hw
    · exact endWord_formed _ hacc

theorem unknownSymbol_keeps_enc_inv (sym : Symbol P) {s : State P} (h : s.enc.Inv) :
    (raise (.unknownSymbol sym) (zeroEncCountersIfClosed s)).enc.Inv := by
  obtain ⟨hacc, hq, -, -, -, -, hform⟩ := h
  cases hopen : s.enc.isOpen <;>
    exact ⟨by simpa [hopen] using hacc, by simpa [hopen] using hq, by simp, by simp, by simp, by simp,
      by simpa [hopen] using hform⟩

/-- Taking the head off the FIFO keeps the encoder's invariant. -/
theorem EncUnit.Inv.pop {u : EncUnit P} {e : EncEntry P} {rest : List (EncEntry P)} (h : u.Inv) (hq : u.q = e :: rest) :
    ({ u with q := rest } : EncUnit P).Inv := by
  obtain ⟨hacc, hlen, hclosed, hopen, herr, hcount, hform⟩ := h
  rw [hq] at hlen hform
  exact ⟨hacc, (Nat.le_succ _).trans hlen, hclosed, hopen, herr, hcount, fun w hw => hform w (List.mem_cons_of_mem _ hw)⟩

/-- Every operation keeps the encoder's invariant (R37, R35). -/
theorem applyOp_keeps_enc_inv (i : Instr P) {s : State P} (h : s.enc.Inv) : (applyOp i s).enc.Inv := by
  cases i with
  | ctrlNop | decClr | statRd => exact h
  | encClr | allClr => exact EncUnit.reset_inv
  | cfgClear | cfgCode | cfgNode | cfgRoot | decBit | decEnd | decPop =>
    rw [applyOp_enc (by simp [Instr.chan])]
    exact h
  | encPut sym =>
    rcases encPut_cases sym s with ⟨-, he⟩ | ⟨-, -, he⟩ | ⟨-, -, -, he⟩ | ⟨hf, -, hk, he⟩ <;> rw [he]
    · exact h
    · exact unknownSymbol_keeps_enc_inv sym h
    · exact h
    · exact appendCode_keeps_enc_inv _ h hf hk
  | encEnd =>
    rcases encEnd_cases s with ⟨-, he⟩ | ⟨-, -, he⟩ | ⟨hf, hroom, he⟩ <;> rw [he]
    · exact h
    · exact h
    · exact endEncStream_keeps_enc_inv h hf hroom
  | encPop =>
    rcases encPop_cases s with ⟨-, he⟩ | ⟨e, rest, hq, he⟩ <;> rw [he]
    · exact h
    · exact h.pop hq

/-! ### The decoder unit (R42 (a) to (d), R40) -/

theorem DecUnit.reset_inv : (DecUnit.reset : DecUnit P).Inv := by
  simp [DecUnit.Inv, DecUnit.reset]

theorem symEntry_formed (sym : Symbol P) : (symEntry sym).formed := ⟨fun _ => rfl, fun h => absurd h Bool.false_ne_true⟩

theorem endEntry_formed (trunc : Bool) : (endEntry trunc : DecEntry P).formed :=
  ⟨fun h => absurd h.symm Bool.false_ne_true, fun _ => rfl⟩

/-- Taking the head off the queue keeps the decoder's invariant. -/
theorem DecUnit.Inv.pop {u : DecUnit P} {e : DecEntry P} {rest : List (DecEntry P)} (h : u.Inv) (hq : u.q = e :: rest) :
    ({ u with q := rest } : DecUnit P).Inv := by
  obtain ⟨hlen, hclosed, hopen, htrunc, hform⟩ := h
  rw [hq] at hlen hform
  exact ⟨(Nat.le_succ _).trans hlen, hclosed, hopen, htrunc, fun w hw => hform w (List.mem_cons_of_mem _ hw)⟩

/-- A unit whose flags fit together, with a queue that is an old one and one formed entry. -/
theorem DecUnit.Inv.push {u v : DecUnit P} {e : DecEntry P} (h : u.Inv) (hroom : u.q.length ≠ P.DQ_DEPTH) (he : e.formed)
    (hq : v.q = u.q ++ [e]) (hclosed : v.isOpen = false → v.mid = false ∧ v.fault = .none)
    (hopen : v.fault ≠ .none → v.isOpen = true) (htrunc : v.fault = .truncated → v.mid = true) : v.Inv := by
  obtain ⟨hlen, -, -, -, hform⟩ := h
  refine ⟨?_, hclosed, hopen, htrunc, ?_⟩
  · rw [hq, List.length_append, List.length_singleton]
    omega
  · intro w hw
    rw [hq, List.mem_append, List.mem_singleton] at hw
    rcases hw with hw | rfl
    · exact hform w hw
    · exact he

/-- The step down to a child, by a unit that is not faulted and has room. -/
theorem enterChild_keeps_dec_inv (c : Handle P) {s : State P} (h : s.dec.Inv) (hf : s.dec.fault = .none)
    (hroom : s.dec.q.length ≠ P.DQ_DEPTH) : (enterChild c (openDec s)).dec.Inv := by
  rcases enterChild_cases c (openDec s) with ⟨-, he⟩ | ⟨-, he⟩ | ⟨-, he⟩ <;> rw [he]
  · refine h.push hroom (symEntry_formed (tnRead (openDec s).mem c).sym) ?_ ?_ ?_ ?_ <;> simp [hf]
  · obtain ⟨hlen, -, -, -, hform⟩ := h
    exact ⟨by simpa using hlen, by simp, by simp, by simp [hf], by simpa using hform⟩
  · obtain ⟨hlen, -, -, -, hform⟩ := h
    exact ⟨by simpa using hlen, by simp, by simp, by simp, by simpa using hform⟩

/-- Every operation keeps the decoder's invariant. -/
theorem applyOp_keeps_dec_inv (i : Instr P) {s : State P} (h : s.dec.Inv) : (applyOp i s).dec.Inv := by
  cases i with
  | ctrlNop | encClr | statRd => exact h
  | decClr | allClr => exact DecUnit.reset_inv
  | cfgClear | cfgCode | cfgNode | cfgRoot | encPut | encEnd | encPop =>
    rw [applyOp_dec (by simp [Instr.chan])]
    exact h
  | decBit bit =>
    rcases decBit_cases bit s with ⟨-, he⟩ | ⟨-, -, he⟩ | ⟨-, -, -, he⟩ | ⟨hf, hroom, -, he⟩ <;> rw [he]
    · exact h
    · exact h
    · obtain ⟨hlen, -, -, -, hform⟩ := h
      exact ⟨by simpa using hlen, by simp, by simp, by simp, by simpa using hform⟩
    · exact enterChild_keeps_dec_inv _ h hf hroom
  | decEnd =>
    rcases decEnd_cases s with ⟨-, he⟩ | ⟨-, -, he⟩ | ⟨-, hroom, hmid, he⟩ | ⟨hf, hroom, hmid, he⟩ <;> rw [he]
    · exact h
    · exact h
    · refine h.push hroom (endEntry_formed true) ?_ ?_ ?_ ?_ <;> simp [hmid]
    · refine h.push hroom (endEntry_formed false) ?_ ?_ ?_ ?_ <;> simp [hf, hmid]
  | decPop =>
    rcases decPop_cases s with ⟨-, he⟩ | ⟨e, rest, hq, he⟩ <;> rw [he]
    · exact h
    · exact h.pop hq

/-! ### Where the walk stands (R38, R42 (e)) -/

/-- At the root with no BadTree on record there is nothing to say. -/
theorem walkInv_of_at_root {s : State P} (hm : s.dec.mid = false) (hf : s.dec.fault ≠ .badTree) : WalkInv s :=
  ⟨fun _ hmid => absurd (hm.symm.trans hmid) Bool.false_ne_true, fun h => absurd h hf⟩

/-- A closed decoder is at the root. -/
theorem walkInv_of_closed {s : State P} (h : s.dec.Inv) (hc : s.dec.isOpen = false) : WalkInv s := by
  obtain ⟨-, hclosed, -, -, -⟩ := h
  obtain ⟨hm, hf⟩ := hclosed hc
  exact walkInv_of_at_root hm (by simp [hf])

/-- The invariant of the walk reads the tree, the root and three registers of the decoder. -/
theorem WalkInv.congr {s t : State P} (h : WalkInv s) (hn : ∀ k, tnRead t.mem k = tnRead s.mem k) (hr : t.mem.root = s.mem.root)
    (hc : t.dec.cur = s.dec.cur) (hm : t.dec.mid = s.dec.mid) (hf : t.dec.fault = s.dec.fault) : WalkInv t := by
  unfold WalkInv PositionInternal
  simp only [hn, hr, hc, hm, hf]
  exact h

theorem WalkInv.of_mem_dec {s t : State P} (h : WalkInv s) (hm : t.mem = s.mem) (hd : t.dec = s.dec) : WalkInv t :=
  h.congr (fun _ => by rw [hm]) (by rw [hm]) (by rw [hd]) (by rw [hd]) (by rw [hd])

/-- DEC_BIT whose position is not INTERNAL: the position is the root then. -/
theorem badPosition_keeps_walkInv {s : State P} (h : WalkInv s) (hf : s.dec.fault = .none)
    (hk : (tnRead s.mem (decPosition s)).kind ≠ .internal) : WalkInv (raise (.badTree (decPosition s)) (openDec s)) := by
  have hmid : s.dec.mid = false := by
    by_contra hm
    rw [Bool.not_eq_false] at hm
    exact hk (by rw [decPosition, if_pos hm]; exact h.1 (by simp [hf]) hm)
  refine ⟨fun hne => absurd rfl hne, fun _ => ⟨by simpa using hk, .inl ⟨by simpa using hmid, ?_⟩⟩⟩
  simp [decPosition, hmid]

/-- The step down to a child of an INTERNAL position. -/
theorem enterChild_keeps_walkInv (bit : Bool) {s : State P} (hf : s.dec.fault = .none)
    (hk : (tnRead s.mem (decPosition s)).kind = .internal) :
    WalkInv (enterChild ((tnRead s.mem (decPosition s)).child bit) (openDec s)) := by
  rcases enterChild_cases ((tnRead s.mem (decPosition s)).child bit) (openDec s) with ⟨-, he⟩ | ⟨hc, he⟩ | ⟨hc, he⟩ <;> rw [he]
  · exact walkInv_of_at_root (by simp) (by simp [hf])
  · exact ⟨fun _ _ => by simpa using hc, fun hb => by simp [hf] at hb⟩
  · simp only [openDec_mem] at hc
    refine ⟨fun hne => absurd rfl hne, fun _ => ⟨?_, .inr ⟨?_, decPosition s, bit, ?_, ?_, ?_⟩⟩⟩
    · rcases hc with hc | hc <;> simp [hc]
    · rcases hc with hc | hc <;> simp [hc]
    · simpa using hk
    · simp
    · intro hm
      have hm : s.dec.mid = false := by simpa using hm
      simp [decPosition, hm]

/-- Every operation keeps the invariant of the walk: a CFG operation on the tree is accepted at the root only. -/
theorem applyOp_keeps_walkInv (i : Instr P) {s : State P} (hd : s.dec.Inv) (h : WalkInv s) : WalkInv (applyOp i s) := by
  cases i with
  | ctrlNop | encClr | statRd => exact h
  | decClr | allClr => exact walkInv_of_at_root rfl (fun hb => by cases hb)
  | cfgClear =>
    rcases cfgClear_cases s with ⟨-, he⟩ | ⟨-, hc, he⟩ <;> rw [he]
    · exact h
    · exact walkInv_of_closed hd hc
  | cfgCode sym len code =>
    rcases cfgCode_cases sym len code s with ⟨-, he⟩ | ⟨-, he⟩ <;> rw [he]
    · exact h
    · exact h.congr (fun _ => rfl) rfl rfl rfl rfl
  | cfgNode k kind left right sym =>
    rcases cfgNode_cases k kind left right sym s with ⟨-, he⟩ | ⟨hc, he⟩ <;> rw [he]
    · exact h
    · exact walkInv_of_closed hd hc
  | cfgRoot r =>
    rcases cfgRoot_cases r s with ⟨-, he⟩ | ⟨hc, he⟩ <;> rw [he]
    · exact h
    · exact walkInv_of_closed hd hc
  | encPut | encEnd | encPop =>
    exact h.of_mem_dec (applyOp_mem (by simp [Instr.chan]) s) (applyOp_dec (by simp [Instr.chan]) s)
  | decBit bit =>
    rcases decBit_cases bit s with ⟨-, he⟩ | ⟨-, -, he⟩ | ⟨hf, -, hk, he⟩ | ⟨hf, -, hk, he⟩ <;> rw [he]
    · exact h
    · exact h
    · exact badPosition_keeps_walkInv h hf hk
    · exact enterChild_keeps_walkInv bit hf hk
  | decEnd =>
    rcases decEnd_cases s with ⟨-, he⟩ | ⟨-, -, he⟩ | ⟨hf, -, hmid, he⟩ | ⟨hf, -, hmid, he⟩ <;> rw [he]
    · exact h
    · exact h
    · refine ⟨fun _ _ => ?_, fun hb => by simp at hb⟩
      simpa using h.1 (by simp [hf]) hmid
    · exact walkInv_of_at_root (by simp [hmid]) (by simp [hf])
  | decPop =>
    rcases decPop_cases s with ⟨-, he⟩ | ⟨e, rest, -, he⟩ <;> rw [he]
    · exact h
    · exact h.congr (fun _ => rfl) rfl rfl rfl rfl

/-! ### The stores (R24) -/

theorem cleared_ctCanonical : (Memory.cleared : Memory P).ctCanonical := fun _ hc => absurd hc List.not_mem_nil

theorem reset_mem_ctCanonical (draw : Nat) : (Memory.reset draw : Memory P).ctCanonical :=
  fun _ hc => absurd hc List.not_mem_nil

/-- A write to a store lists the new entry, or nothing new. -/
theorem mem_storeWrite {α : Type} [DecidableEq α] {empty : α} {st : Store α} {i : Nat} {v : α} {c : Nat × α}
    (h : c ∈ (storeWrite empty st i v).cells) : c = (i, v) ∨ c ∈ st.cells := by
  unfold storeWrite at h
  cases hb : st.base with
  | unspecified draw => exact mem_cellPut (by simpa [hb] using h)
  | cleared =>
    by_cases hv : v = empty
    · exact .inr (mem_cellDrop (by simpa [hb, hv] using h))
    · exact mem_cellPut (by simpa [hb, hv] using h)

theorem ctWrite_keeps_ctCanonical {m : Memory P} (sym : Symbol P) {e : CodeEntry P} (he : e.canonical = true)
    (h : m.ctCanonical) : (ctWrite m sym e).ctCanonical := by
  intro c hc
  rcases mem_storeWrite hc with rfl | hc
  · exact he
  · exact h c hc

/-- Every operation keeps the stores' canonical form. -/
theorem applyOp_keeps_mem_inv (i : Instr P) {s : State P} (hwf : s.mem.wf = true) (hct : s.mem.ctCanonical) :
    (applyOp i s).mem.wf = true ∧ (applyOp i s).mem.ctCanonical := by
  cases i with
  | cfgClear =>
    rcases cfgClear_cases s with ⟨-, he⟩ | ⟨-, -, he⟩ <;> rw [he]
    · exact ⟨hwf, hct⟩
    · exact ⟨cleared_wf, cleared_ctCanonical⟩
  | cfgCode sym len code =>
    rcases cfgCode_cases sym len code s with ⟨-, he⟩ | ⟨-, he⟩ <;> rw [he]
    · exact ⟨hwf, hct⟩
    · exact ⟨ctWrite_keeps_wf _ _ _ hwf, ctWrite_keeps_ctCanonical _ (storedCode_canonical len code) hct⟩
  | cfgNode k kind left right sym =>
    rcases cfgNode_cases k kind left right sym s with ⟨-, he⟩ | ⟨-, he⟩ <;> rw [he]
    · exact ⟨hwf, hct⟩
    · exact ⟨tnWrite_keeps_wf _ _ _ hwf, hct⟩
  | cfgRoot r =>
    rcases cfgRoot_cases r s with ⟨-, he⟩ | ⟨-, he⟩ <;> rw [he]
    · exact ⟨hwf, hct⟩
    · exact ⟨withRoot_keeps_wf _ _ hwf, hct⟩
  | _ =>
    rw [applyOp_mem (by simp [Instr.chan])]
    exact ⟨hwf, hct⟩

/-! ### The machine -/

/-- Every operation keeps the invariant of the machine. -/
theorem applyOp_keeps_stateInv (i : Instr P) {s : State P} (h : StateInv s) : StateInv (applyOp i s) := by
  obtain ⟨hwf, hct, henc, hdec, hwalk⟩ := h
  obtain ⟨hwf', hct'⟩ := applyOp_keeps_mem_inv i hwf hct
  exact ⟨hwf', hct', applyOp_keeps_enc_inv i henc, applyOp_keeps_dec_inv i hdec, applyOp_keeps_walkInv i hdec hwalk⟩

/-- The invariant holds of every state with the units and `ROOT` at their reset values and both stores undrawn (R57). -/
theorem stateInv_of_reset {s : State P} {draw : Nat} (hm : s.mem = Memory.reset draw) (he : s.enc = EncUnit.reset)
    (hd : s.dec = DecUnit.reset) : StateInv s := by
  refine ⟨hm ▸ reset_mem_wf draw, hm ▸ reset_mem_ctCanonical draw, he ▸ EncUnit.reset_inv, hd ▸ DecUnit.reset_inv, ?_⟩
  exact walkInv_of_at_root (by rw [hd]; rfl) (by rw [hd]; exact fun hb => by cases hb)

theorem resetOf_stateInv (P : Params) : StateInv (State.resetOf P) := stateInv_of_reset (draw := 0) rfl rfl rfl

/-- What a step can be: one of an operation, or of nothing, a hard reset or a clock edge. -/
theorem stepOf_cases {s t : State P} (h : stepOf s = .next t) :
    (s.events = [] ∧ t = idleStep s) ∨
    (∃ w rest i, s.events = .offer w :: rest ∧ decode w = .ok i ∧ t = applyOp i (s.withEvents rest)) ∨
    (∃ rest, s.events = .hardReset :: rest ∧ t = hardReset (s.withEvents rest)) ∨
    (∃ sig hold rest, s.events = .edge sig hold :: rest ∧ t = clockEdge sig hold (s.withEvents rest)) := by
  unfold stepOf stepWith at h
  split at h
  next hev => exact .inl ⟨hev, (Host.Outcome.next.inj h).symm⟩
  next w rest hev =>
    split at h
    next i hi =>
      rw [perform_eq_applyOp] at h
      exact .inr (.inl ⟨w, rest, i, hev, hi, (Host.Outcome.next.inj h).symm⟩)
    next => cases h
  next rest hev => exact .inr (.inr (.inl ⟨rest, hev, (Host.Outcome.next.inj h).symm⟩))
  next sig hold rest hev => exact .inr (.inr (.inr ⟨sig, hold, rest, hev, (Host.Outcome.next.inj h).symm⟩))

/-- Every step keeps the invariant, whatever the host does next. -/
theorem stepOf_keeps_stateInv {s t : State P} (h : StateInv s) (hstep : stepOf s = .next t) : StateInv t := by
  rcases stepOf_cases hstep with ⟨-, rfl⟩ | ⟨w, rest, i, -, -, rfl⟩ | ⟨rest, -, rfl⟩ | ⟨sig, hold, rest, -, rfl⟩
  · exact h
  · exact applyOp_keeps_stateInv i (s := s.withEvents rest) h
  · exact stateInv_of_reset (draw := s.resets + 1) rfl rfl rfl
  · exact h

/-- At the defaults a step is the step of the block. -/
theorem step_eq_stepOf (s : State) : step s = stepOf s :=
  congrArg (fun run => stepWith run s) (funext fun i => funext fun u => exec_eq_perform i u)

/-- Settles O60: the parts of the invariant, each kept by every operation, and the steps that are no operation. -/
theorem invariantsAtEveryParameterChoice : Obligations.InvariantsAtEveryParameterChoice := by
  unfold Obligations.InvariantsAtEveryParameterChoice
  exact ⟨exec_eq_perform, step_eq_stepOf, rfl, fun P => ⟨resetOf_stateInv P, fun _ _ => stepOf_keeps_stateInv⟩⟩

end Sys2Proof.Machine
end


section
/-! PROOFS. Single operations and steps: offered operations run in order (R10, R69), readiness (R11, R91), a code stored and read
back (R14, R105, R123), an accepted ENC_PUT (R141), and the bits of a bitstream in full words (R62). -/

namespace Sys2Proof.Machine

open Sys2Proof

variable {P : Params}

/-! ### Steps (R10, R69) -/

/-- A step whose next event is the offer of a word runs the operation the word decodes to, in the state behind the offer. -/
theorem stepWith_offer (run : Instr P → State P → Host.Outcome (State P) Fault Refusal) {s : State P} {w : TWord P}
    {rest : List (HostEvent P)} {i : Instr P} (hev : s.events = .offer w :: rest) (hi : decode w = .ok i) :
    stepWith run s = run i (s.withEvents rest) := by
  simp only [stepWith, hev, hi]
  rfl

/-- Settles O7: the arm of the step for an offered word, with `exec` to run the operation. -/
theorem stepRunsDecodedOperation : Obligations.StepRunsDecodedOperation := by
  unfold Obligations.StepRunsDecodedOperation
  exact fun _ _ _ _ hev hi => stepWith_offer exec hev hi

/-- No operation changes what the host does next. -/
theorem applyOp_events (i : Instr P) (s : State P) : (applyOp i s).events = s.events := by
  have h : applyOp i s = (applyOp i s).withEvents s.events := applyOp_withEvents i s s.events
  exact (congrArg State.events h).trans rfl

/-- The step that takes the first of the offered operations. -/
theorem step_offering_cons (i : Instr) (ops : List Instr) (s : State) :
    step (s.offering (i :: ops)) = .next ((applyOp i s).offering ops) := by
  have hrun : step (s.offering (i :: ops)) = exec i (s.withEvents (ops.map (fun i => .offer (encode i)) ++ s.events)) :=
    stepWith_offer exec rfl (decode_encode i)
  rw [hrun, exec_eq_applyOp, applyOp_withEvents, State.offering, applyOp_events]
  rfl

/-- A step of the machine at the defaults, then the rest of a run of it. -/
theorem run_core {u v : State} (k : Nat) (h : step u = .next v) :
    Host.Core.run Sys2Proof.core (k + 1) u = Host.Core.run Sys2Proof.core k v :=
  run_step (M := Sys2Proof.core) (u := u) (v := v) k h

theorem run_offering (ops : List Instr) (s : State) :
    Host.Core.run Sys2Proof.core ops.length (s.offering ops) = .next (runOps ops s) := by
  induction ops generalizing s with
  | nil => rfl
  | cons i ops ih => exact (run_core ops.length (step_offering_cons i ops s)).trans (ih _)

/-- Settles O9, by induction on the list of operations. -/
theorem offeredOperationsRunInOrder : Obligations.OfferedOperationsRunInOrder := by
  unfold Obligations.OfferedOperationsRunInOrder
  exact run_offering

/-! ### Readiness (R11, R91) -/

/-- An operation is not ready exactly when its own rule says `NotReady`. -/
theorem applyOp_of_not_ready {i : Instr P} {s : State P} (h : ready i s = false) : applyOp i s = notReady s := by
  cases i with
  | ctrlNop | encClr | decClr | allClr | cfgClear | cfgCode | cfgNode | cfgRoot | statRd => simp [ready] at h
  | encPut sym =>
    rcases encPut_cases sym s with ⟨hf, he⟩ | ⟨hf, hl, he⟩ | ⟨hf, hl, hk, he⟩ | ⟨hf, hl, hk, he⟩
    · simp [ready, hf] at h
    · simp [ready, hl] at h
    · exact he
    · simp [ready, hk] at h
  | encEnd =>
    rcases encEnd_cases s with ⟨hf, he⟩ | ⟨hf, hq, he⟩ | ⟨hf, hq, he⟩
    · simp [ready, hf] at h
    · exact he
    · simp [ready, EncUnit.qFull, hq] at h
  | encPop =>
    rcases encPop_cases s with ⟨hq, he⟩ | ⟨e, rest, hq, he⟩
    · exact he
    · simp [ready, EncUnit.qEmpty, hq] at h
  | decBit bit =>
    rcases decBit_cases bit s with ⟨hf, he⟩ | ⟨hf, hq, he⟩ | ⟨hf, hq, -, he⟩ | ⟨hf, hq, -, he⟩
    · simp [ready, hf] at h
    · exact he
    · simp [ready, DecUnit.qFull, hq] at h
    · simp [ready, DecUnit.qFull, hq] at h
  | decEnd =>
    rcases decEnd_cases s with ⟨hf, he⟩ | ⟨hf, hq, he⟩ | ⟨hf, hq, -, he⟩ | ⟨hf, hq, -, he⟩
    · simp [ready, hf] at h
    · exact he
    · simp [ready, DecUnit.qFull, hq] at h
    · simp [ready, DecUnit.qFull, hq] at h
  | decPop =>
    rcases decPop_cases s with ⟨hq, he⟩ | ⟨e, rest, hq, he⟩
    · exact he
    · simp [ready, DecUnit.qEmpty, hq] at h

/-- The answer to a step down the tree is a response code. -/
theorem enterChild_resp_ne_notReady (c : Handle P) (s : State P) : (enterChild c s).resp ≠ .notReady := by
  rcases enterChild_cases c s with ⟨-, he⟩ | ⟨-, he⟩ | ⟨-, he⟩ <;> rw [he] <;> simp

/-- A ready operation is answered with something else than `NotReady`. -/
theorem applyOp_resp_of_ready {i : Instr P} {s : State P} (h : ready i s = true) : (applyOp i s).resp ≠ .notReady := by
  cases i with
  | ctrlNop | encClr | decClr | allClr | statRd => exact fun hr => by cases hr
  | cfgClear => rcases cfgClear_cases s with ⟨-, he⟩ | ⟨-, -, he⟩ <;> rw [he] <;> simp
  | cfgCode sym len code => rcases cfgCode_cases sym len code s with ⟨-, he⟩ | ⟨-, he⟩ <;> rw [he] <;> simp
  | cfgNode k kind left right sym =>
    rcases cfgNode_cases k kind left right sym s with ⟨-, he⟩ | ⟨-, he⟩ <;> rw [he] <;> simp
  | cfgRoot r => rcases cfgRoot_cases r s with ⟨-, he⟩ | ⟨-, he⟩ <;> rw [he] <;> simp
  | encPut sym =>
    rcases encPut_cases sym s with ⟨-, he⟩ | ⟨-, -, he⟩ | ⟨hf, hl, hk, -⟩ | ⟨-, -, -, he⟩
    · simp [he]
    · simp [he]
    · exact absurd h (by simp [ready, hf, hl, hk])
    · simp [he]
  | encEnd =>
    rcases encEnd_cases s with ⟨-, he⟩ | ⟨hf, hq, -⟩ | ⟨-, -, he⟩
    · simp [he]
    · exact absurd h (by simp [ready, EncUnit.qFull, hf, hq])
    · simp [he]
  | encPop =>
    rcases encPop_cases s with ⟨hq, -⟩ | ⟨e, rest, -, he⟩
    · exact absurd h (by simp [ready, EncUnit.qEmpty, hq])
    · simp [he]
  | decBit bit =>
    rcases decBit_cases bit s with ⟨-, he⟩ | ⟨hf, hq, -⟩ | ⟨-, -, -, he⟩ | ⟨-, -, -, he⟩
    · simp [he]
    · exact absurd h (by simp [ready, DecUnit.qFull, hf, hq])
    · simp [he]
    · rw [he]
      exact enterChild_resp_ne_notReady _ _
  | decEnd =>
    rcases decEnd_cases s with ⟨-, he⟩ | ⟨hf, hq, -⟩ | ⟨-, -, -, he⟩ | ⟨-, -, -, he⟩
    · simp [he]
    · exact absurd h (by simp [ready, DecUnit.qFull, hf, hq])
    · simp [he]
    · simp [he]
  | decPop =>
    rcases decPop_cases s with ⟨hq, -⟩ | ⟨e, rest, -, he⟩
    · exact absurd h (by simp [ready, DecUnit.qEmpty, hq])
    · simp [he]

/-- Settles O11, by the outcomes of each operation. -/
theorem notReadyExactlyWhenQueuesBlock : Obligations.NotReadyExactlyWhenQueuesBlock := by
  unfold Obligations.NotReadyExactlyWhenQueuesBlock
  intro i s
  rw [exec_eq_applyOp]
  exact ⟨fun h => congrArg _ (applyOp_of_not_ready h), fun h => ⟨_, rfl, applyOp_resp_of_ready h⟩⟩

/-! ### A code stored and read back (R14, R105, R123) -/

/-- A length of 1 to `MAXLEN` bits is its own value in the length field (R7). -/
theorem toNat_codeLen {n : Nat} (h : n ≤ P.MAXLEN) : (BitVec.ofNat P.LEN_W n).toNat = n := by
  have hmax := P.maxlen_eq
  have hpos := Nat.two_pow_pos P.LEN_W
  rw [BitVec.toNat_ofNat]
  exact Nat.mod_eq_of_lt (by omega)

/-- The stored form of a bit sequence's length and integer stands for the sequence. -/
theorem codebits_storedCode {c : Bits} (h1 : 1 ≤ c.length) (hmax : c.length ≤ P.MAXLEN) :
    codebits (storedCode (BitVec.ofNat P.LEN_W c.length) (BitVec.ofNat P.MAXLEN (bitsToNat c)) : CodeEntry P) = c := by
  have hlen := toNat_codeLen hmax
  have hne : BitVec.ofNat P.LEN_W c.length ≠ 0#P.LEN_W := by
    intro h0
    rw [h0] at hlen
    simp at hlen
    omega
  apply List.ext_getElem
  · rw [codebits_length, storedCode_len, hlen]
  · intro i hi hic
    rw [codebits_getElem, storedCode_len, hlen, storedCode, if_neg hne]
    have hbit := bitsToNat_testBit c i hic
    simp only [BitVec.getLsbD_setWidth, BitVec.getLsbD_ofNat, hlen, hbit]
    simp only [decide_eq_true (show c.length - 1 - i < P.MAXLEN by omega),
      decide_eq_true (show c.length - 1 - i < c.length by omega), Bool.true_and]

/-- Settles O21: the entry is stored (read after write), and it stands for the sequence bit by bit. -/
theorem storedCodeStandsForItsBits : Obligations.StoredCodeStandsForItsBits := by
  unfold Obligations.StoredCodeStandsForItsBits
  intro sym c s hclosed h1 hmax
  refine ⟨_, exec_eq_applyOp _ _, ?_⟩
  rcases cfgCode_cases sym (BitVec.ofNat LEN_W c.length) (BitVec.ofNat MAXLEN (bitsToNat c)) s with ⟨hopen, -⟩ | ⟨-, he⟩
  · exact absurd (hclosed.symm.trans hopen) Bool.false_ne_true
  · rw [cfgCodeOf, he]
    refine ⟨rfl, ?_⟩
    rw [respCode_mem, ctRead_ctWrite, if_pos rfl]
    exact codebits_storedCode h1 hmax

/-! ### ENC_PUT (R9, R141) -/

/-- The words an ENC_PUT pushes and what waits afterwards are the old bits and the code. -/
theorem unpack_appendCode (e : CodeEntry P) (s : State P) :
    unpack (fullWords (s.enc.acc ++ codebits e) (wordsCompleted s e.len.toNat) : List (EncEntry P)) ++
      (appendCode e s).enc.acc = s.enc.acc ++ codebits e := by
  rw [unpack_fullWords, appendCode_enc, List.take_append_drop]
  rw [List.length_append, codebits_length]
  exact Nat.div_mul_le_self _ _

/-- Settles O22: the put is accepted, and each of its effects is a lemma about appending a code. -/
theorem encPutAppendsCode : Obligations.EncPutAppendsCode := by
  unfold Obligations.EncPutAppendsCode
  intro sym s hacc hf hl hk
  have he : applyOp (.encPut sym) s = appendCode (ctRead s.mem sym) s := by
    rcases encPut_cases sym s with ⟨hf', -⟩ | ⟨-, hl', -⟩ | ⟨-, -, hk', -⟩ | ⟨-, -, -, he⟩
    · exact absurd hf hf'
    · exact absurd hl' hl
    · exact absurd hk' (Nat.not_lt.2 hk)
    · exact he
  have henc := appendCode_enc s (ctRead s.mem sym)
  exact ⟨appendCode (ctRead s.mem sym) s, fullWords (s.enc.acc ++ codebits (ctRead s.mem sym)) _,
    (exec_eq_applyOp _ _).trans (congrArg _ he), appendCode_resp .., congrArg EncUnit.q henc, fullWords_length ..,
    fun _ hw => fullWords_full hw, unpack_appendCode _ _, appendCode_acc_length _ _, congrArg EncUnit.isOpen henc,
    (congrArg EncUnit.fault henc).trans hf, (congrArg EncUnit.errsym henc).trans rfl, appendCode_bits_toNat _ _,
    appendCode_syms_toNat _ _, appendCode_mem .., appendCode_dec ..⟩

/-- One ENC_PUT completes a bounded number of words (R9). -/
theorem wordsCompleted_le {s : State P} (hacc : s.enc.acc.length < P.WORD_W) (len : CodeLen P) :
    wordsCompleted s len.toNat ≤ (P.WORD_W - 1 + P.MAXLEN) / P.WORD_W := by
  have hmax := P.maxlen_eq
  have hlen := len.isLt
  exact Nat.div_le_div_right (by omega)

/-- An ENC_PUT is ready where the FIFO has room for the longest code (R9). -/
theorem encPut_ready {s : State P} (hacc : s.enc.acc.length < P.WORD_W) (sym : Symbol P)
    (hroom : (P.WORD_W - 1 + P.MAXLEN) / P.WORD_W ≤ P.EQ_DEPTH - s.enc.q.length) : ready (.encPut sym) s = true := by
  have hk := (wordsCompleted_le hacc (ctRead s.mem sym).len).trans hroom
  simp [ready, hk]

/-- On an empty FIFO every ENC_PUT is ready (R9). -/
theorem encPut_ready_of_empty {s : State P} (hacc : s.enc.acc.length < P.WORD_W) (sym : Symbol P) (hq : s.enc.q = []) :
    ready (.encPut sym) s = true :=
  encPut_ready hacc sym (by rw [hq]; exact P.eqDepth_fits)

/-- Settles O27, by the bound on the words of one put and the depth R7 asks for. -/
theorem encPutFitsEmptyFifo : Obligations.EncPutFitsEmptyFifo := by
  unfold Obligations.EncPutFitsEmptyFifo
  intro sym s hacc
  exact ⟨wordsCompleted_le hacc _,
    fun hq => ⟨_, exec_eq_applyOp _ _, applyOp_resp_of_ready (encPut_ready_of_empty hacc sym hq)⟩⟩

/-! ### Bit positions of a bitstream (R15, R62) -/

@[simp] theorem unpackbits_length (d : PackedWord P) (n : Nat) : (unpackbits d n).length = n := by
  simp [unpackbits]

theorem unpackbits_getElem? (d : PackedWord P) {n i : Nat} (h : i < n) :
    (unpackbits d n)[i]? = some (d.getLsbD (P.WORD_W - 1 - i)) := by
  simp [unpackbits, h]

theorem unpack_cons (e : EncEntry P) (es : List (EncEntry P)) :
    unpack (e :: es) = unpackbits e.data e.vbits.toNat ++ unpack es := by
  simp [unpack]

/-- Full words carry `WORD_W` bits each. -/
theorem unpack_length_of_full {es : List (EncEntry P)} (h : ∀ e ∈ es, e.vbits.toNat = P.WORD_W) :
    (unpack es).length = P.WORD_W * es.length := by
  induction es with
  | nil => rfl
  | cons e es ih =>
    obtain ⟨he, hes⟩ := List.forall_mem_cons.1 h
    rw [unpack_cons, List.length_append, unpackbits_length, he, ih hes, List.length_cons]
    ring

/-- Bit `n` of a bitstream in full words lies in word `n div WORD_W`, counted from the most significant bit. -/
theorem unpack_getElem?_of_full {es : List (EncEntry P)} (h : ∀ e ∈ es, e.vbits.toNat = P.WORD_W) (n : Nat) :
    (unpack es)[n]? = es[n / P.WORD_W]?.map fun e => e.data.getLsbD (P.WORD_W - 1 - n % P.WORD_W) := by
  induction es generalizing n with
  | nil => simp
  | cons e es ih =>
    obtain ⟨he, hes⟩ := List.forall_mem_cons.1 h
    have hlen : (unpackbits e.data e.vbits.toNat).length = P.WORD_W := by rw [unpackbits_length, he]
    rw [unpack_cons]
    by_cases hn : n < P.WORD_W
    · rw [List.getElem?_append_left (hlen ▸ hn), he, unpackbits_getElem? _ hn, Nat.div_eq_of_lt hn, Nat.mod_eq_of_lt hn]
      rfl
    · have hn : P.WORD_W ≤ n := Nat.not_lt.1 hn
      rw [List.getElem?_append_right (hlen ▸ hn), hlen, ih hes, ← Nat.mod_eq_sub_mod hn,
        Nat.div_eq_sub_div P.wordW_pos hn, List.getElem?_cons_succ]

/-- Settles O48, by induction on the words: a bit of the first word, or a bit of the others `WORD_W` further on. -/
theorem bitstreamBitPositions : Obligations.BitstreamBitPositions := by
  unfold Obligations.BitstreamBitPositions
  exact fun _ h => ⟨unpack_length_of_full h, unpack_getElem?_of_full h⟩

end Sys2Proof.Machine
end


section
/-! PROOFS. Pops free blocked operations (R9, R285), and fairness over runs of clock cycles (R291): a held request meets, sooner or
later, a queue that the host's pops have emptied for good; and a block that serves its ports in turn is fair, however long it
has delayed them before. -/

namespace Sys2Proof.Machine

open Sys2Proof

variable {P : Params}

/-! ### Pops make room (R9, R285) -/

theorem applyOp_encPop_enc (s : State P) : (applyOp .encPop s).enc = { s.enc with q := s.enc.q.tail } := by
  rcases encPop_cases s with ⟨hq, he⟩ | ⟨e, rest, hq, he⟩ <;> rw [he, hq]
  · rw [notReady_enc, List.tail_nil, ← hq]
  · rfl

theorem applyOp_decPop_dec (s : State P) : (applyOp .decPop s).dec = { s.dec with q := s.dec.q.tail } := by
  rcases decPop_cases s with ⟨hq, he⟩ | ⟨e, rest, hq, he⟩ <;> rw [he, hq]
  · rw [notReady_dec, List.tail_nil, ← hq]
  · rfl

theorem runOps_encPops_enc (n : Nat) (s : State P) :
    (runOps (List.replicate n .encPop) s).enc = { s.enc with q := s.enc.q.drop n } := by
  induction n generalizing s with
  | zero => rfl
  | succ n ih =>
    have h : runOps (List.replicate (n + 1) .encPop) s = runOps (List.replicate n .encPop) (applyOp .encPop s) := rfl
    rw [h, ih, applyOp_encPop_enc, List.drop_tail]

/-- After as many pops as one ENC_PUT can complete words, or more, every ENC_PUT is ready. -/
theorem encPut_ready_after_pops {s : State P} (h : s.enc.Inv) (sym : Symbol P) {n : Nat}
    (hn : (P.WORD_W - 1 + P.MAXLEN) / P.WORD_W ≤ n) :
    ready (.encPut sym) (runOps (List.replicate n .encPop) s) = true := by
  obtain ⟨hacc, hq, -⟩ := h
  have hfits := P.eqDepth_fits
  apply encPut_ready
  · rw [runOps_encPops_enc]
    exact hacc
  · rw [runOps_encPops_enc, List.length_drop]
    omega

theorem encEnd_ready_of_room {s : State P} (h : s.enc.q.length ≠ P.EQ_DEPTH) : ready .encEnd s = true := by
  simp [ready, EncUnit.qFull, h]

theorem decBit_ready_of_room {s : State P} (bit : Bool) (h : s.dec.q.length ≠ P.DQ_DEPTH) : ready (.decBit bit) s = true := by
  simp [ready, DecUnit.qFull, h]

theorem decEnd_ready_of_room {s : State P} (h : s.dec.q.length ≠ P.DQ_DEPTH) : ready .decEnd s = true := by
  simp [ready, DecUnit.qFull, h]

/-- After a pop the FIFO is not full. -/
theorem encEnd_ready_after_pops {s : State P} (h : s.enc.Inv) {n : Nat} (hn : 1 ≤ n) :
    ready .encEnd (runOps (List.replicate n .encPop) s) = true := by
  obtain ⟨-, hq, -⟩ := h
  have hpos := P.eqDepth_pos
  apply encEnd_ready_of_room
  rw [runOps_encPops_enc, List.length_drop]
  omega

/-- After a pop the decoder's queue is not full. -/
theorem decQueue_room_after_pop {s : State P} (h : s.dec.Inv) : (runOps [.decPop] s).dec.q.length ≠ P.DQ_DEPTH := by
  obtain ⟨hq, -⟩ := h
  have hpos := P.dqDepth_pos
  have hrun : (runOps [.decPop] s).dec = { s.dec with q := s.dec.q.tail } := applyOp_decPop_dec s
  rw [hrun, List.length_tail]
  omega

/-! ### What the operations do to the length of a queue -/

/-- Only a port-2 operation lengthens the encoder FIFO. -/
theorem encQueue_le {i : Instr P} (h : i.chan ≠ 2) (s : State P) : (applyOp i s).enc.q.length ≤ s.enc.q.length := by
  cases i with
  | ctrlNop | decClr | statRd => exact le_rfl
  | encClr | allClr => exact Nat.zero_le _
  | encPut | encEnd => exact absurd rfl h
  | encPop =>
    rw [applyOp_encPop_enc, List.length_tail]
    exact Nat.sub_le _ _
  | cfgClear | cfgCode | cfgNode | cfgRoot | decBit | decEnd | decPop => rw [applyOp_enc (by simp [Instr.chan])]

/-- Only a port-4 operation lengthens the decoder's queue. -/
theorem decQueue_le {i : Instr P} (h : i.chan ≠ 4) (s : State P) : (applyOp i s).dec.q.length ≤ s.dec.q.length := by
  cases i with
  | ctrlNop | encClr | statRd => exact le_rfl
  | decClr | allClr => exact Nat.zero_le _
  | decBit | decEnd => exact absurd rfl h
  | decPop =>
    rw [applyOp_decPop_dec, List.length_tail]
    exact Nat.sub_le _ _
  | cfgClear | cfgCode | cfgNode | cfgRoot | encPut | encEnd | encPop => rw [applyOp_dec (by simp [Instr.chan])]

theorem encPop_shortens {s : State P} (h : 0 < s.enc.q.length) : (applyOp .encPop s).enc.q.length < s.enc.q.length := by
  rw [applyOp_encPop_enc, List.length_tail]
  omega

theorem decPop_shortens {s : State P} (h : 0 < s.dec.q.length) : (applyOp .decPop s).dec.q.length < s.dec.q.length := by
  rw [applyOp_decPop_dec, List.length_tail]
  omega

section Measure

variable {f : State P → Nat} {ops : List (Instr P)}

/-- What no operation of a run increases, the run does not increase. -/
theorem runOps_le (h : ∀ i ∈ ops, ∀ s, f (applyOp i s) ≤ f s) (s : State P) : f (runOps ops s) ≤ f s := by
  induction ops generalizing s with
  | nil => exact le_rfl
  | cons i ops ih =>
    obtain ⟨hi, hops⟩ := List.forall_mem_cons.1 h
    exact (ih hops (applyOp i s)).trans (hi s)

/-- And where one of the operations decreases it, the run does, unless it is 0. -/
theorem runOps_lt {pop : Instr P} (h : ∀ i ∈ ops, ∀ s, f (applyOp i s) ≤ f s)
    (hpop : ∀ s, 0 < f s → f (applyOp pop s) < f s) (hmem : pop ∈ ops) {s : State P} (hs : 0 < f s) :
    f (runOps ops s) < f s := by
  induction ops generalizing s with
  | nil => exact absurd hmem List.not_mem_nil
  | cons i ops ih =>
    obtain ⟨hi, hops⟩ := List.forall_mem_cons.1 h
    rcases List.mem_cons.1 hmem with rfl | hmem
    · exact (runOps_le hops (applyOp pop s)).trans_lt (hpop s hs)
    · rcases Nat.eq_zero_or_pos (f (applyOp i s)) with h0 | h0
      · exact ((runOps_le hops (applyOp i s)).trans h0.le).trans_lt hs
      · exact (ih hops hmem h0).trans_le (hi s)

end Measure

/-- A number that never rises, and falls again and again while it is not 0, is 0 from some point on. -/
theorem eventually_zero {f : Nat → Nat} {n : Nat} (hle : ∀ m, n ≤ m → f (m + 1) ≤ f m)
    (hlt : ∀ k, n ≤ k → (∀ m, k ≤ m → f m ≠ 0) → ∃ m, k ≤ m ∧ f (m + 1) < f m) : ∃ k, n ≤ k ∧ ∀ m, k ≤ m → f m = 0 := by
  have hanti : ∀ k m, n ≤ k → k ≤ m → f m ≤ f k := by
    intro k m hk hkm
    induction m, hkm using Nat.le_induction with
    | base => exact le_rfl
    | succ m hm ih => exact (hle m (hk.trans hm)).trans ih
  have hreach : ∀ v k, n ≤ k → f k = v → ∃ m, n ≤ m ∧ f m = 0 := by
    intro v
    induction v using Nat.strong_induction_on with
    | _ v ih =>
      intro k hk hv
      by_cases hzero : ∃ m, k ≤ m ∧ f m = 0
      · obtain ⟨m, hm, h0⟩ := hzero
        exact ⟨m, hk.trans hm, h0⟩
      · simp only [not_exists, not_and] at hzero
        obtain ⟨m, hm, hdrop⟩ := hlt k hk hzero
        have hmk := hanti k m hk hm
        exact ih (f (m + 1)) (by omega) (m + 1) (by omega) rfl
  obtain ⟨k, hk, h0⟩ := hreach (f n) n le_rfl rfl
  exact ⟨k, hk, fun m hm => Nat.le_zero.1 (h0 ▸ hanti k m hk hm)⟩

/-! ### One cycle of a run -/

/-- The operations accepted at edge `n`. -/
def ClockRun.ops (r : ClockRun P) (n : Nat) : List (Instr P) := opsOf (acceptedAtEdge (r.sig n) (r.hold n) (r.state n))

theorem ClockRun.state_succ (r : ClockRun P) (n : Nat) :
    r.state (n + 1) = (runOps (r.ops n) (edgeStart (r.sig n) (r.hold n) (r.state n))).withEvents [] :=
  clockCycle_iff.1 (r.cycle n)

theorem ClockRun.mem_ops_of_accepts {r : ClockRun P} {w : TWord P} {i : Instr P} {n : Nat} (h : r.Accepts w n)
    (hi : decode w = .ok i) : i ∈ r.ops n := mem_opsOf.2 ⟨w, h, hi⟩

/-- While the host drives `w` and `w` is not accepted, nothing is accepted on the port of `w`. -/
theorem ClockRun.chan_ne_of_mem_ops {r : ClockRun P} {w : TWord P} {n : Nat} (hd : r.Drives w n) (hna : ¬ r.Accepts w n)
    {i : Instr P} (hi : i ∈ r.ops n) : i.chan ≠ chanOf w := by
  obtain ⟨v, hv, hdec⟩ := mem_opsOf.1 hi
  intro hchan
  have hvw : v = w := drivenTransfers_unique (mem_acceptedAtEdge.1 hv).1 hd ((chan_of_decode hdec).symm.trans hchan)
  exact hna (hvw ▸ hv)

theorem runOps_keeps_enc_inv (ops : List (Instr P)) {s : State P} (h : s.enc.Inv) : (runOps ops s).enc.Inv := by
  induction ops generalizing s with
  | nil => exact h
  | cons i ops ih => exact ih (applyOp_keeps_enc_inv i h)

/-- The encoder's invariant is kept along a run. -/
theorem ClockRun.enc_inv {r : ClockRun P} {n : Nat} (h : (r.state n).enc.Inv) {m : Nat} (hm : n ≤ m) :
    (r.state m).enc.Inv := by
  induction m, hm using Nat.le_induction with
  | base => exact h
  | succ m _ ih =>
    rw [r.state_succ]
    exact runOps_keeps_enc_inv (r.ops m) (s := edgeStart (r.sig m) (r.hold m) (r.state m)) ih

/-- The length `f` of a queue that no accepted operation lengthens from edge `n` on, and that is popped by fair pops, is 0 from some
edge on. -/
theorem ClockRun.queue_empties {r : ClockRun P} {n : Nat} {f : State P → Nat} {pop : Instr P} {popWord : TWord P}
    (hview : ∀ s t : State P, s.enc = t.enc → s.dec = t.dec → f s = f t)
    (hle : ∀ m, n ≤ m → ∀ i ∈ r.ops m, ∀ s, f (applyOp i s) ≤ f s)
    (hpop : ∀ s, 0 < f s → f (applyOp pop s) < f s) (hdec : decode popWord = .ok pop)
    (hfair : ∀ k, (∀ m, k ≤ m → f (r.state m) ≠ 0) → ∃ m, k ≤ m ∧ r.Accepts popWord m) :
    ∃ k, n ≤ k ∧ ∀ m, k ≤ m → f (r.state m) = 0 := by
  have hstart : ∀ m, f (edgeStart (r.sig m) (r.hold m) (r.state m)) = f (r.state m) := fun m => hview _ _ rfl rfl
  have hend : ∀ m, f (r.state (m + 1)) = f (runOps (r.ops m) (edgeStart (r.sig m) (r.hold m) (r.state m))) := by
    intro m
    rw [r.state_succ]
    exact hview _ _ rfl rfl
  apply eventually_zero (f := fun m => f (r.state m))
  · intro m hm
    rw [hend, ← hstart m]
    exact runOps_le (hle m hm) _
  · intro k hk hne
    obtain ⟨m, hm, hacc⟩ := hfair k hne
    refine ⟨m, hm, ?_⟩
    rw [hend, ← hstart m]
    refine runOps_lt (hle m (hk.trans hm)) hpop (ClockRun.mem_ops_of_accepts hacc hdec) ?_
    rw [hstart]
    exact Nat.pos_of_ne_zero (hne m hm)

/-! ### A held request is accepted (R291) -/

section Held

variable {r : ClockRun P} {w : TWord P} {n : Nat}

/-- While a port-2 request is driven and not accepted, the host's pops empty the encoder FIFO for good. -/
theorem ClockRun.enc_queue_empties (hpops : r.PopsFair) (hw : chanOf w = 2)
    (h : ∀ m, n ≤ m → r.Drives w m ∧ ¬ r.Accepts w m) : ∃ k, n ≤ k ∧ ∀ m, k ≤ m → (r.state m).enc.q = [] := by
  obtain ⟨k, hk, h0⟩ := r.queue_empties (n := n) (f := fun s => s.enc.q.length) (fun _ _ he _ => by rw [he])
    (fun m hm i hi s => encQueue_le (hw ▸ ClockRun.chan_ne_of_mem_ops (h m hm).1 (h m hm).2 hi) s)
    (fun _ => encPop_shortens) (decode_wordOf_encPop 0#0)
    (fun k hne => hpops.1 k fun m hm hq => hne m hm (by rw [hq]; rfl))
  exact ⟨k, hk, fun m hm => List.length_eq_zero_iff.1 (h0 m hm)⟩

/-- While a port-4 request is driven and not accepted, the host's pops empty the decoder's queue for good. -/
theorem ClockRun.dec_queue_empties (hpops : r.PopsFair) (hw : chanOf w = 4)
    (h : ∀ m, n ≤ m → r.Drives w m ∧ ¬ r.Accepts w m) : ∃ k, n ≤ k ∧ ∀ m, k ≤ m → (r.state m).dec.q = [] := by
  obtain ⟨k, hk, h0⟩ := r.queue_empties (n := n) (f := fun s => s.dec.q.length) (fun _ _ _ hd => by rw [hd])
    (fun m hm i hi s => decQueue_le (hw ▸ ClockRun.chan_ne_of_mem_ops (h m hm).1 (h m hm).2 hi) s)
    (fun _ => decPop_shortens) (decode_wordOf_decPop 0#0)
    (fun k hne => hpops.2 k fun m hm hq => hne m hm (by rw [hq]; rfl))
  exact ⟨k, hk, fun m hm => List.length_eq_zero_iff.1 (h0 m hm)⟩

/-- An operation other than a pop that is driven and not accepted is ready from some edge on. -/
theorem ClockRun.eventually_ready {i : Instr P} (hinv : (r.state n).enc.Inv) (hpops : r.PopsFair) (hi : decode w = .ok i)
    (hne : i ≠ .encPop) (hnd : i ≠ .decPop) (h : ∀ m, n ≤ m → r.Drives w m ∧ ¬ r.Accepts w m) :
    ∃ k, n ≤ k ∧ ∀ m, k ≤ m → ready i (r.state m) = true := by
  have hchan := (chan_of_decode hi).symm
  have henc (hw : i.chan = 2) := ClockRun.enc_queue_empties hpops (hchan.trans hw) h
  have hdec (hw : i.chan = 4) := ClockRun.dec_queue_empties hpops (hchan.trans hw) h
  cases i with
  | ctrlNop | encClr | decClr | allClr | cfgClear | cfgCode | cfgNode | cfgRoot | statRd => exact ⟨n, le_rfl, fun _ _ => rfl⟩
  | encPop => exact absurd rfl hne
  | decPop => exact absurd rfl hnd
  | encPut sym =>
    obtain ⟨k, hk, hq⟩ := henc rfl
    refine ⟨k, hk, fun m hm => encPut_ready_of_empty ?_ sym (hq m hm)⟩
    obtain ⟨hacc, -⟩ := ClockRun.enc_inv hinv (hk.trans hm)
    exact hacc
  | encEnd =>
    obtain ⟨k, hk, hq⟩ := henc rfl
    exact ⟨k, hk, fun m hm => encEnd_ready_of_room (by rw [hq m hm]; exact (Nat.ne_of_gt P.eqDepth_pos).symm)⟩
  | decBit bit =>
    obtain ⟨k, hk, hq⟩ := hdec rfl
    exact ⟨k, hk, fun m hm => decBit_ready_of_room bit (by rw [hq m hm]; exact (Nat.ne_of_gt P.dqDepth_pos).symm)⟩
  | decEnd =>
    obtain ⟨k, hk, hq⟩ := hdec rfl
    exact ⟨k, hk, fun m hm => decEnd_ready_of_room (by rw [hq m hm]; exact (Nat.ne_of_gt P.dqDepth_pos).symm)⟩

/-- In a fair run with fair pops a held request is accepted: else it would be driven and ready for ever. -/
theorem ClockRun.held_request_accepted {i : Instr P} (hinv : (r.state n).enc.Inv) (hfair : r.Fair) (hpops : r.PopsFair)
    (hi : decode w = .ok i) (hne : i ≠ .encPop) (hnd : i ≠ .decPop) (hold : r.HoldsRequest w n) :
    ∃ m, n ≤ m ∧ r.Accepts w m := by
  by_contra hno
  simp only [not_exists, not_and] at hno
  have hdrive : ∀ m, n ≤ m → r.Drives w m := fun m hm => hold m hm fun k hk _ => hno k hk
  obtain ⟨k, hk, hready⟩ := ClockRun.eventually_ready hinv hpops hi hne hnd fun m hm => ⟨hdrive m hm, hno m hm⟩
  obtain ⟨m, hm, hacc⟩ := hfair.1 w k fun m hm => ⟨hdrive m (hk.trans hm), i, hi, hready m hm⟩
  exact hno m (hk.trans hm) hacc

end Held

/-! ### A fair run after any delay (R291) -/

/-- The ports kept waiting by a block that holds every port for `d` edges and then serves the seven ports in turn, one at each
edge. -/
def turnHold (d n : Nat) : BitVec 7 := if n < d then BitVec.allOnes 7 else ~~~ BitVec.twoPow 7 (n % 7)

theorem turnHold_delays {d n p : Nat} (h : n < d) (hp : p < 7) : (turnHold d n).getLsbD p = true := by
  rw [turnHold, if_pos h, BitVec.getLsbD_allOnes, decide_eq_true hp]

theorem turnHold_serves {d n p : Nat} (h : d ≤ n) (hp : p < 7) : (turnHold d n).getLsbD p = !decide (n % 7 = p) := by
  rw [turnHold, if_neg (Nat.not_lt.2 h), BitVec.getLsbD_not, BitVec.getLsbD_twoPow]
  simp [hp, Nat.mod_lt]

/-- The turn of every port comes again and again. -/
theorem exists_turn (d n : Nat) {p : Nat} (hp : p < 7) : ∃ m, n ≤ m ∧ d ≤ m ∧ m % 7 = p :=
  ⟨7 * (n + d) + p, by omega, by omega, by omega⟩

/-- A held port is not open. -/
theorem portOpen_of_held {sig : PortSignals P} {hold : BitVec 7} {c : BitVec 3} (h : hold.getLsbD c.toNat = true) :
    portOpen sig hold c = false := by
  simp [portOpen, h]

/-- The port whose turn it is is open: CTRL and CFG are held unless it is their turn. -/
theorem portOpen_of_turn (sig : PortSignals P) {d m : Nat} {c : BitVec 3} (hd : d ≤ m) (hc : c ≠ 7) (hm : m % 7 = c.toNat) :
    portOpen sig (turnHold d m) c = true := by
  have h0 := turnHold_serves hd (show 0 < 7 by omega)
  have h1 := turnHold_serves hd (show 1 < 7 by omega)
  have hp := turnHold_serves hd (show c.toNat < 7 by bv_omega)
  rw [hm] at h0 h1 hp
  simp only [portOpen, solePort, h0, h1, hp]
  generalize sig.ctrl.isSome = a
  generalize sig.cfg.isSome = b
  clear h0 h1 hp hm
  revert a b c
  decide

/-- An open port 3 offers the head of a non-empty FIFO. -/
theorem wordOut_offered {sig : PortSignals P} {hold : BitVec 7} {s : State P} (hopen : portOpen sig hold 3 = true)
    (hq : s.enc.q ≠ []) : (portOutputs sig hold s).wordOut ≠ none := by
  simp only [portOutputs, hopen, if_true, wordOutData, ne_eq, Option.map_eq_none_iff, List.head?_eq_none_iff]
  exact hq

/-- An open port 5 offers the head of a non-empty decoder queue. -/
theorem symOut_offered {sig : PortSignals P} {hold : BitVec 7} {s : State P} (hopen : portOpen sig hold 5 = true)
    (hq : s.dec.q ≠ []) : (portOutputs sig hold s).symOut ≠ none := by
  simp only [portOutputs, hopen, if_true, symOutData, ne_eq, Option.map_eq_none_iff, List.head?_eq_none_iff]
  exact hq

/-- No operation belongs to a port 7. -/
theorem chanOf_ne_seven {t : TWord P} {i : Instr P} (h : decode t = .ok i) : chanOf t ≠ 7 := by
  rw [← chan_of_decode h]
  cases i <;> simp [Instr.chan]

/-- The port of a word that spells an operation has a bit of its own in the mask. -/
theorem chanOf_toNat_lt {t : TWord P} {i : Instr P} (h : decode t = .ok i) : (chanOf t).toNat < 7 := by
  have hne := chanOf_ne_seven h
  bv_omega

/-- The run of a block that holds every port for `d` edges and then serves the ports in turn. -/
def ClockRun.inTurn (sig : Nat → PortSignals P) (d : Nat) (s : State P) : ClockRun P := .ofStart sig (turnHold d) s

variable (sig : Nat → PortSignals P) (d : Nat) (s : State P)

/-- At its port's turn a driven and ready transfer is accepted. -/
theorem ClockRun.inTurn_accepts {w : TWord P} {m : Nat} (hd : d ≤ m) (hm : m % 7 = (chanOf w).toNat)
    (hdrive : (ClockRun.inTurn sig d s).Drives w m) (hready : (ClockRun.inTurn sig d s).IsReady w m) :
    (ClockRun.inTurn sig d s).Accepts w m := by
  obtain ⟨i, hi, hr⟩ := hready
  refine mem_acceptedAtEdge.2 ⟨hdrive, Option.isSome_iff_exists.2 ⟨_, answerAtEdge_eq_some.2 ⟨i, hi, ?_, hr, rfl⟩⟩⟩
  exact portOpen_of_turn _ hd (chanOf_ne_seven hi) hm

/-- Serving the ports in turn is fair. -/
theorem ClockRun.inTurn_fair : (ClockRun.inTurn sig d s).Fair := by
  refine ⟨fun w n h => ?_, fun n h => ?_, fun n h => ?_⟩
  · obtain ⟨-, i, hi, -⟩ := h n le_rfl
    obtain ⟨m, hnm, hdm, hm⟩ := exists_turn d n (chanOf_toNat_lt hi)
    obtain ⟨hdrive, hready⟩ := h m hnm
    exact ⟨m, hnm, ClockRun.inTurn_accepts sig d s hdm hm hdrive hready⟩
  · obtain ⟨m, hnm, hdm, hm⟩ := exists_turn d n (show 3 < 7 by omega)
    have hopen : portOpen (sig m) (turnHold d m) 3 = true := portOpen_of_turn _ hdm (by decide) hm
    exact ⟨m, hnm, wordOut_offered hopen (h m hnm)⟩
  · obtain ⟨m, hnm, hdm, hm⟩ := exists_turn d n (show 5 < 7 by omega)
    have hopen : portOpen (sig m) (turnHold d m) 5 = true := portOpen_of_turn _ hdm (by decide) hm
    exact ⟨m, hnm, symOut_offered hopen (h m hnm)⟩

/-- While every port is held nothing is accepted. -/
theorem ClockRun.inTurn_not_accepts {n : Nat} (h : n < d) (w : TWord P) : ¬ (ClockRun.inTurn sig d s).Accepts w n := by
  intro hacc
  obtain ⟨r, hr⟩ := Option.isSome_iff_exists.1 (mem_acceptedAtEdge.1 hacc).2
  obtain ⟨i, hi, hopen, -⟩ := answerAtEdge_eq_some.1 hr
  have hheld := portOpen_of_held (sig := sig n) (turnHold_delays h (chanOf_toNat_lt hi))
  exact Bool.false_ne_true (hheld.symm.trans hopen)

/-- And the block keeps its state. -/
theorem ClockRun.inTurn_keeps_state {n : Nat} (h : n ≤ d) :
    ((ClockRun.inTurn sig d s).state n).mem = s.mem ∧ ((ClockRun.inTurn sig d s).state n).enc = s.enc ∧
    ((ClockRun.inTurn sig d s).state n).dec = s.dec := by
  induction n with
  | zero => exact ⟨rfl, rfl, rfl⟩
  | succ n ih =>
    have hnone : acceptedAtEdge (sig n) (turnHold d n) ((ClockRun.inTurn sig d s).state n) = [] :=
      List.eq_nil_iff_forall_not_mem.2 (ClockRun.inTurn_not_accepts sig d s h)
    have hops : (ClockRun.inTurn sig d s).ops n = [] := congrArg opsOf hnone
    rw [ClockRun.state_succ, hops]
    exact ih (Nat.le_of_succ_le h)

/-- Settles O28: pops make room; a held request outlasts the queue it waits for; and a block that delays, then serves its ports in
turn, is fair. -/
theorem popsFreeBlockedOperations : Obligations.PopsFreeBlockedOperations := by
  unfold Obligations.PopsFreeBlockedOperations
  refine ⟨fun s sym bit henc hdec => ?_, fun P r w i n hinv hfair hpops hi hne hnd hold => ?_, fun P s sig d => ?_⟩
  · have hroom := decQueue_room_after_pop hdec
    exact ⟨encPut_ready_after_pops henc sym le_rfl, encEnd_ready_after_pops henc (by decide),
      decBit_ready_of_room bit hroom, decEnd_ready_of_room hroom⟩
  · exact ClockRun.held_request_accepted hinv hfair hpops hi hne hnd hold
  · exact ⟨ClockRun.inTurn sig d s, rfl, rfl, ClockRun.inTurn_fair sig d s, fun n hn =>
      ⟨ClockRun.inTurn_not_accepts sig d s hn, ClockRun.inTurn_keeps_state sig d s hn⟩⟩

end Sys2Proof.Machine
end


section
/-! PROOFS. Where the walk stands after a step (R38, R42 (e)): every step leaves the position, returns to the root, goes down to an
INTERNAL child or records a BadTree; and over a well-formed tree (R29) no BadTree is recorded mid-path. -/

namespace Sys2Proof.Machine

open Sys2Proof

variable {P : Params}

/-! ### What a step does to the position -/

/-- What a step can do to the decoder's position (R161, R162, and R121: a write to the tree is refused mid-path). -/
inductive PositionStep (s t : State P) : Prop where
  /-- The walk is at the root afterwards. -/
  | atRoot (hmid : t.dec.mid = false)
  /-- Neither the position nor the tree is written. -/
  | stays (hnodes : ∀ k, tnRead t.mem k = tnRead s.mem k) (hroot : t.mem.root = s.mem.root)
      (hcur : t.dec.cur = s.dec.cur) (hmid : t.dec.mid = s.dec.mid)
  /-- R161 lines 18 to 20. -/
  | descends (bit : Bool) (hmem : t.mem = s.mem) (hpos : (tnRead s.mem (decPosition s)).kind = .internal)
      (hcur : t.dec.cur = (tnRead s.mem (decPosition s)).child bit) (hchild : (tnRead s.mem t.dec.cur).kind = .internal)
  /-- R161 lines 6 to 8: the node at the position is not INTERNAL. -/
  | badPosition (hmid : t.dec.mid = s.dec.mid) (hresp : t.resp = .code .errBadTree)
      (hpos : (tnRead s.mem (decPosition s)).kind ≠ .internal)
  /-- R161 lines 21 to 23: the child is neither INTERNAL nor LEAF. -/
  | badChild (bit : Bool) (hmid : t.dec.mid = s.dec.mid) (hresp : t.resp = .code .errBadTree)
      (hpos : (tnRead s.mem (decPosition s)).kind = .internal)
      (hinternal : (tnRead s.mem ((tnRead s.mem (decPosition s)).child bit)).kind ≠ .internal)
      (hleaf : (tnRead s.mem ((tnRead s.mem (decPosition s)).child bit)).kind ≠ .leaf)

/-- Nothing but the answer, the units' queues or the other unit is written. -/
theorem PositionStep.of_mem_dec {s t : State P} (hm : t.mem = s.mem) (hd : t.dec = s.dec) : PositionStep s t :=
  .stays (fun _ => by rw [hm]) (by rw [hm]) (by rw [hd]) (by rw [hd])

/-- The step down to a child of an INTERNAL position. -/
theorem enterChild_positionStep (bit : Bool) {s : State P} (hpos : (tnRead s.mem (decPosition s)).kind = .internal) :
    PositionStep s (enterChild ((tnRead s.mem (decPosition s)).child bit) (openDec s)) := by
  rcases enterChild_cases ((tnRead s.mem (decPosition s)).child bit) (openDec s) with ⟨-, he⟩ | ⟨hc, he⟩ | ⟨hc, he⟩ <;> rw [he]
  · exact .atRoot rfl
  · exact .descends bit (openDec_mem s) hpos rfl (by simpa using hc)
  · rw [openDec_mem] at hc
    refine .badChild bit (by simp) rfl hpos ?_ ?_ <;> rcases hc with hc | hc <;> simp [hc]

/-- What an operation does to the position. -/
theorem applyOp_positionStep (i : Instr P) {s : State P} (h : s.dec.Inv) : PositionStep s (applyOp i s) := by
  have atRoot_of_closed (hc : s.dec.isOpen = false) : s.dec.mid = false := by
    obtain ⟨-, hclosed, -⟩ := h
    exact (hclosed hc).1
  cases i with
  | ctrlNop | encClr | statRd => exact .of_mem_dec rfl rfl
  | decClr | allClr => exact .atRoot rfl
  | cfgClear =>
    rcases cfgClear_cases s with ⟨-, he⟩ | ⟨-, hc, he⟩ <;> rw [he]
    · exact .of_mem_dec rfl rfl
    · exact .atRoot (atRoot_of_closed hc)
  | cfgCode sym len code =>
    rcases cfgCode_cases sym len code s with ⟨-, he⟩ | ⟨-, he⟩ <;> rw [he]
    · exact .of_mem_dec rfl rfl
    · exact .stays (fun _ => rfl) rfl rfl rfl
  | cfgNode k kind left right sym =>
    rcases cfgNode_cases k kind left right sym s with ⟨-, he⟩ | ⟨hc, he⟩ <;> rw [he]
    · exact .of_mem_dec rfl rfl
    · exact .atRoot (atRoot_of_closed hc)
  | cfgRoot r =>
    rcases cfgRoot_cases r s with ⟨-, he⟩ | ⟨hc, he⟩ <;> rw [he]
    · exact .of_mem_dec rfl rfl
    · exact .atRoot (atRoot_of_closed hc)
  | encPut | encEnd | encPop =>
    exact .of_mem_dec (applyOp_mem (by simp [Instr.chan]) s) (applyOp_dec (by simp [Instr.chan]) s)
  | decBit bit =>
    rcases decBit_cases bit s with ⟨-, he⟩ | ⟨-, -, he⟩ | ⟨-, -, hpos, he⟩ | ⟨-, -, hpos, he⟩ <;> rw [he]
    · exact .of_mem_dec rfl rfl
    · exact .of_mem_dec rfl rfl
    · exact .badPosition (by simp) rfl hpos
    · exact enterChild_positionStep bit hpos
  | decEnd =>
    rcases decEnd_cases s with ⟨-, he⟩ | ⟨-, -, he⟩ | ⟨-, -, -, he⟩ | ⟨-, -, hmid, he⟩ <;> rw [he]
    · exact .of_mem_dec rfl rfl
    · exact .of_mem_dec rfl rfl
    · exact .stays (by simp) (by simp) (by simp) (by simp)
    · exact .atRoot (by simpa using hmid)
  | decPop =>
    rcases decPop_cases s with ⟨-, he⟩ | ⟨e, rest, -, he⟩ <;> rw [he]
    · exact .of_mem_dec rfl rfl
    · exact .stays (fun _ => rfl) rfl rfl rfl

/-- What a step does to the position, whatever the host does next. -/
theorem stepOf_positionStep {s t : State P} (h : s.dec.Inv) (hstep : stepOf s = .next t) : PositionStep s t := by
  rcases stepOf_cases hstep with ⟨-, rfl⟩ | ⟨w, rest, i, -, -, rfl⟩ | ⟨rest, -, rfl⟩ | ⟨sig, hold, rest, -, rfl⟩
  · exact .of_mem_dec rfl rfl
  · rw [applyOp_withEvents]
    cases applyOp_positionStep i h with
    | atRoot hm => exact .atRoot hm
    | stays hn hr hc hm => exact .stays hn hr hc hm
    | descends bit hmem hp hc hk => exact .descends bit hmem hp hc hk
    | badPosition hm hr hp => exact .badPosition hm hr hp
    | badChild bit hm hr hp hi hl => exact .badChild bit hm hr hp hi hl
  · exact .atRoot rfl
  · exact .of_mem_dec rfl rfl

/-! ### R42 (e), and the position as a node reached from the root -/

theorem positionInternal_of_at_root {s : State P} (h : s.dec.mid = false) : PositionInternal s :=
  fun hm => absurd (h.symm.trans hm) Bool.false_ne_true

theorem positionReached_of_at_root {s : State P} (h : s.dec.mid = false) : PositionReached s :=
  fun hm => absurd (h.symm.trans hm) Bool.false_ne_true

theorem PositionInternal.congr {s t : State P} (h : PositionInternal s) (hn : ∀ k, tnRead t.mem k = tnRead s.mem k)
    (hc : t.dec.cur = s.dec.cur) (hm : t.dec.mid = s.dec.mid) : PositionInternal t := by
  unfold PositionInternal
  rw [hn, hc, hm]
  exact h

/-- Paths depend on the contents of the node store and the root only. -/
theorem node_congr {m m' : Memory P} (hn : ∀ k, tnRead m' k = tnRead m k) (hr : m'.root = m.root) (p : Bits) :
    node m' p = node m p := by
  rw [node, node, hr, nodeFrom_congr hn]

theorem PositionReached.congr {s t : State P} (h : PositionReached s) (hn : ∀ k, tnRead t.mem k = tnRead s.mem k)
    (hr : t.mem.root = s.mem.root) (hc : t.dec.cur = s.dec.cur) (hm : t.dec.mid = s.dec.mid) : PositionReached t := by
  unfold PositionReached
  simp only [node_congr hn hr, hc, hm]
  exact h

/-- The decoder's position is a node reached from the root (R38). -/
theorem PositionReached.position {s : State P} (h : PositionReached s) : ∃ p, node s.mem p = some (decPosition s) := by
  cases hm : s.dec.mid with
  | false => exact ⟨[], by rw [decPosition_of_root hm]; rfl⟩
  | true =>
    obtain ⟨p, -, hp⟩ := h hm
    exact ⟨p, by rw [decPosition_of_mid hm]; exact hp⟩

/-- R42 (e) is kept by a step that is not answered `ERR_BAD_TREE`. -/
theorem PositionStep.keeps_internal {s t : State P} (h : PositionStep s t) (hs : PositionInternal s)
    (hresp : t.resp ≠ .code .errBadTree) : PositionInternal t := by
  cases h with
  | atRoot hmid => exact positionInternal_of_at_root hmid
  | stays hnodes _ hcur hmid => exact hs.congr hnodes hcur hmid
  | descends _ hmem _ _ hchild => exact fun _ => by rw [hmem]; exact hchild
  | badPosition _ hr _ => exact absurd hr hresp
  | badChild _ _ hr _ _ _ => exact absurd hr hresp

/-! ### Over a well-formed tree (R29) -/

/-- No node below the root of the one-symbol form is INTERNAL (R31). -/
theorem OneSymbolForm.not_internal {m : Memory P} (hm : OneSymbolForm m) {p : Bits} {h : Handle P} (hp : p ≠ [])
    (hn : node m p = some h) : (tnRead m h).kind ≠ .internal := by
  obtain ⟨hroot, hleft, hright, -⟩ := hm
  cases p with
  | nil => exact absurd rfl hp
  | cons b q =>
    have hchild : (tnRead m ((tnRead m m.root).child b)).kind ≠ .internal := by
      cases b <;> simp [TreeNode.child, hleft, hright]
    rw [node, nodeFrom, if_pos hroot] at hn
    by_cases hq : q = []
    · subst hq
      exact Option.some.inj hn ▸ hchild
    · rw [nodeFrom_of_not_internal hchild hq] at hn
      cases hn

/-- Below the root of a well-formed tree both children of an INTERNAL node are INTERNAL or LEAF (R29 (c), R31). -/
theorem WfTree.child_usable {m : Memory P} (hm : WfTree m) {p : Bits} {h : Handle P} (hp : p ≠ []) (hn : node m p = some h)
    (hk : (tnRead m h).kind = .internal) (b : Bool) :
    (tnRead m ((tnRead m h).child b)).kind = .internal ∨ (tnRead m ((tnRead m h).child b)).kind = .leaf := by
  obtain ⟨-, -, hform, -⟩ := hm
  rcases hform with hgen | hone
  · exact hgen _ _ (node_append_singleton b hn hk)
  · exact absurd hk (hone.not_internal hp hn)

/-- Where R42 (e) holds, a position that is not INTERNAL is the root. -/
theorem PositionInternal.at_root {s : State P} (h : PositionInternal s) (hpos : (tnRead s.mem (decPosition s)).kind ≠ .internal) :
    s.dec.mid = false := by
  by_contra hm
  rw [Bool.not_eq_false] at hm
  exact hpos (by rw [decPosition_of_mid hm]; exact h hm)

/-- Over a well-formed tree an INTERNAL position with a child that cannot be used is the root (of the one-symbol form). -/
theorem PositionReached.at_root {s : State P} (h : PositionReached s) (hm : WfTree s.mem) (bit : Bool)
    (hpos : (tnRead s.mem (decPosition s)).kind = .internal)
    (hinternal : (tnRead s.mem ((tnRead s.mem (decPosition s)).child bit)).kind ≠ .internal)
    (hleaf : (tnRead s.mem ((tnRead s.mem (decPosition s)).child bit)).kind ≠ .leaf) : s.dec.mid = false := by
  by_contra hmid
  rw [Bool.not_eq_false] at hmid
  rw [decPosition_of_mid hmid] at hpos hinternal hleaf
  obtain ⟨p, hp, hn⟩ := h hmid
  rcases hm.child_usable hp hn hpos bit with hk | hk
  · exact hinternal hk
  · exact hleaf hk

/-- Over a well-formed tree every step keeps R42 (e) as written, and the position a node reached from the root. -/
theorem PositionStep.keeps_internal_and_reached {s t : State P} (h : PositionStep s t) (hi : PositionInternal s)
    (hr : PositionReached s) (hm : WfTree s.mem) : PositionInternal t ∧ PositionReached t := by
  have of_at_root (hmid : t.dec.mid = false) : PositionInternal t ∧ PositionReached t :=
    ⟨positionInternal_of_at_root hmid, positionReached_of_at_root hmid⟩
  cases h with
  | atRoot hmid => exact of_at_root hmid
  | stays hnodes hroot hcur hmid => exact ⟨hi.congr hnodes hcur hmid, hr.congr hnodes hroot hcur hmid⟩
  | descends bit hmem hpos hcur hchild =>
    obtain ⟨p, hp⟩ := hr.position
    exact ⟨fun _ => by rw [hmem]; exact hchild,
      fun _ => ⟨p ++ [bit], by simp, by rw [hmem, hcur]; exact node_append_singleton bit hp hpos⟩⟩
  | badPosition hmid _ hpos => exact of_at_root (hmid.trans (hi.at_root hpos))
  | badChild bit hmid _ hpos hinternal hleaf => exact of_at_root (hmid.trans (hr.at_root hm bit hpos hinternal hleaf))

/-- Settles O40: the invariant is kept by every step (as at every parameter choice), and what a step does to the position keeps R42
(e) as written. -/
theorem everyStepKeepsInvariants : Obligations.EveryStepKeepsInvariants := by
  unfold Obligations.EveryStepKeepsInvariants
  simp only [step_eq_stepOf]
  refine ⟨fun s t hinv hstep => stepOf_keeps_stateInv hinv hstep, fun s t hinv hi hstep hresp => ?_,
    fun s t hinv hi hr hm hstep => ?_⟩
  · obtain ⟨-, -, -, hdec, -⟩ := hinv
    exact (stepOf_positionStep hdec hstep).keeps_internal hi hresp
  · obtain ⟨-, -, -, hdec, -⟩ := hinv
    exact (stepOf_positionStep hdec hstep).keeps_internal_and_reached hi hr hm

end Sys2Proof.Machine
end


section
/-! PROOFS. How a bit sequence splits into root-to-leaf paths and a remainder (R28, R164): the split as a walk, bit by bit, which
over the general form of a well-formed tree (R29) is always there, and always only one. -/

namespace Sys2Proof.Machine

open Sys2Proof

variable {P : Params} {m : Memory P} {p q bits rest : Bits} {b : Bool} {x : Symbol P} {paths : List (Bits × Symbol P)}

/-! ### Paths -/

/-- The path leads to an INTERNAL node: it is a proper part of a path, or empty (R28). -/
def AtInternal (m : Memory P) (p : Bits) : Prop := ∃ h, node m p = some h ∧ (tnRead m h).kind = .internal

/-- A path goes on from INTERNAL nodes only. -/
theorem atInternal_of_node_append {h : Handle P} (hn : node m (p ++ q) = some h) (hq : q ≠ []) : AtInternal m p := by
  rw [node, nodeFrom_append] at hn
  obtain ⟨k, hk, hrest⟩ := Option.bind_eq_some_iff.1 hn
  refine ⟨k, hk, ?_⟩
  by_contra hi
  rw [nodeFrom_of_not_internal hi hq] at hrest
  cases hrest

/-- The last step of a path. -/
theorem node_child {h k : Handle P} (hh : node m p = some h) (hk : node m (p ++ [b]) = some k) : k = (tnRead m h).child b := by
  obtain ⟨h', hn, hi⟩ := atInternal_of_node_append hk (List.cons_ne_nil b [])
  obtain rfl : h = h' := Option.some.inj (hh.symm.trans hn)
  exact Option.some.inj (hk.symm.trans (node_append_singleton b hh hi))

theorem AtInternal.of_append (h : AtInternal m (p ++ q)) : AtInternal m p := by
  by_cases hq : q = []
  · rwa [hq, List.append_nil] at h
  · obtain ⟨k, hk, -⟩ := h
    exact atInternal_of_node_append hk hq

theorem LeafPath.atInternal (h : LeafPath m (p ++ q) x) (hq : q ≠ []) : AtInternal m p := by
  obtain ⟨k, hk, -⟩ := h
  exact atInternal_of_node_append hk hq

theorem AtInternal.root (h : AtInternal m p) : AtInternal m [] := AtInternal.of_append (p := []) h

/-- An INTERNAL node is no leaf. -/
theorem AtInternal.not_leafPath (h : AtInternal m p) : ¬ LeafPath m p x := by
  rintro ⟨k, hk, hleaf, -⟩
  obtain ⟨k', hk', hi⟩ := h
  obtain rfl : k = k' := Option.some.inj (hk.symm.trans hk')
  rw [hleaf] at hi
  cases hi

theorem LeafPath.sym_unique {y : Symbol P} (h : LeafPath m p x) (h' : LeafPath m p y) : x = y :=
  (h.eq_of_prefix h' (List.prefix_refl p)).2

/-! ### The split as a walk -/

/-- The walk over `bits` of a decoder that has taken the path `p` since the last leaf: the paths it completes, the first of them
begun by `p`, and the path it ends on (R161). -/
inductive Walk (m : Memory P) : Bits → Bits → List (Bits × Symbol P) → Bits → Prop where
  /-- No bit is left. -/
  | stop {p : Bits} (h : AtInternal m p) : Walk m p [] [] p
  /-- The next bit reaches a leaf; the walk goes on from the root. -/
  | leaf {p bits rest : Bits} {b : Bool} {x : Symbol P} {paths : List (Bits × Symbol P)}
      (h : LeafPath m (p ++ [b]) x) (hw : Walk m [] bits paths rest) : Walk m p (b :: bits) ((p ++ [b], x) :: paths) rest
  /-- The next bit reaches an INTERNAL node. -/
  | down {p bits rest : Bits} {b : Bool} {paths : List (Bits × Symbol P)}
      (h : AtInternal m (p ++ [b])) (hw : Walk m (p ++ [b]) bits paths rest) : Walk m p (b :: bits) paths rest

/-- What a walk completes are root-to-leaf paths, it ends at an INTERNAL node, and it loses no bit. -/
theorem Walk.splits (h : Walk m p bits paths rest) :
    (∀ q ∈ paths, LeafPath m q.1 q.2) ∧ AtInternal m rest ∧ p ++ bits = paths.flatMap Prod.fst ++ rest := by
  induction h with
  | stop h => exact ⟨fun _ hq => absurd hq List.not_mem_nil, h, by simp⟩
  | leaf h _ ih =>
    obtain ⟨hpaths, hrest, heq⟩ := ih
    refine ⟨List.forall_mem_cons.2 ⟨h, hpaths⟩, hrest, ?_⟩
    rw [List.flatMap_cons, List.append_assoc, ← heq]
    simp
  | down _ _ ih =>
    obtain ⟨hpaths, hrest, heq⟩ := ih
    exact ⟨hpaths, hrest, by rw [← heq]; simp⟩

/-- A walk that stays on INTERNAL nodes. -/
theorem walk_of_atInternal (h : AtInternal m (p ++ bits)) : Walk m p bits [] (p ++ bits) := by
  induction bits generalizing p with
  | nil => rw [List.append_nil] at h ⊢; exact .stop h
  | cons b bits ih =>
    rw [List.append_cons] at h ⊢
    exact .down h.of_append (ih h)

/-- A walk to a leaf and on from the root. -/
theorem walk_of_leafPath (h : LeafPath m (p ++ b :: q) x) (hw : Walk m [] bits paths rest) :
    Walk m p (b :: q ++ bits) ((p ++ b :: q, x) :: paths) rest := by
  induction q generalizing p b with
  | nil => exact .leaf h hw
  | cons c q ih =>
    rw [List.append_cons p b (c :: q)] at h ⊢
    exact .down (h.atInternal (List.cons_ne_nil c q)) (ih h)

/-- Root-to-leaf paths and a remainder that ends at an INTERNAL node are a walk from the root. -/
theorem walk_of_splits (hpaths : ∀ q ∈ paths, LeafPath m q.1 q.2) (hrest : AtInternal m rest) :
    Walk m [] (paths.flatMap Prod.fst ++ rest) paths rest := by
  induction paths with
  | nil => exact walk_of_atInternal hrest
  | cons e paths ih =>
    obtain ⟨q, x⟩ := e
    obtain ⟨he, htail⟩ := List.forall_mem_cons.1 hpaths
    rw [List.flatMap_cons, List.append_assoc]
    cases q with
    | nil => exact absurd he hrest.root.not_leafPath
    | cons b q => exact walk_of_leafPath (p := []) he (ih htail)

/-- A walk is determined by its bits. -/
theorem Walk.unique {paths' : List (Bits × Symbol P)} {rest' : Bits} (h : Walk m p bits paths rest)
    (h' : Walk m p bits paths' rest') : paths = paths' ∧ rest = rest' := by
  induction h generalizing paths' rest' with
  | stop _ => cases h'; exact ⟨rfl, rfl⟩
  | leaf hl _ ih =>
    cases h' with
    | leaf hl' hw' =>
      obtain ⟨rfl, rfl⟩ := ih hw'
      exact ⟨by rw [hl.sym_unique hl'], rfl⟩
    | down hi _ => exact absurd hl hi.not_leafPath
  | down hi _ ih =>
    cases h' with
    | leaf hl _ => exact absurd hl hi.not_leafPath
    | down _ hw' => exact ih hw'

/-- In the general form every walk goes on (R29 (c)). -/
theorem GeneralForm.exists_walk (hm : GeneralForm m) (h : AtInternal m p) (bits : Bits) :
    ∃ paths rest, Walk m p bits paths rest := by
  induction bits generalizing p with
  | nil => exact ⟨[], p, .stop h⟩
  | cons b bits ih =>
    obtain ⟨k, hk, hi⟩ := h
    have hchild := node_append_singleton b hk hi
    rcases hm _ _ hchild with hc | hc
    · obtain ⟨paths, rest, hw⟩ := ih ⟨_, hchild, hc⟩
      exact ⟨paths, rest, .down ⟨_, hchild, hc⟩ hw⟩
    · obtain ⟨paths, rest, hw⟩ := ih (p := []) (AtInternal.root ⟨k, hk, hi⟩)
      exact ⟨_, rest, .leaf ⟨_, hchild, hc, rfl⟩ hw⟩

/-- Settles O52: the walk from the root over the bits is there in the general form, and it is the only one. -/
theorem bitsSplitIntoPaths : Obligations.BitsSplitIntoPaths := by
  unfold Obligations.BitsSplitIntoPaths
  intro m ⟨hroot, _⟩ hm b
  obtain ⟨paths, rest, hw⟩ := hm.exists_walk (p := []) ⟨m.root, rfl, hroot⟩ b
  refine ⟨(paths, rest), hw.splits, ?_⟩
  rintro ⟨paths', rest'⟩ ⟨hpaths, hrest, rfl⟩
  obtain ⟨rfl, rfl⟩ := hw.unique (walk_of_splits hpaths hrest)
  rfl

end Sys2Proof.Machine
end


section
/-! PROOFS. Single operations of the decoder (R161, R162) as later proofs about whole streams need them: an accepted DEC_BIT that
reaches a leaf or an INTERNAL node, an accepted DEC_END; and no operation reads the model's own fields (R20, R206). -/

namespace Sys2Proof.Machine

open Sys2Proof

variable {P : Params}

/-! ### DEC_BIT and DEC_END (R161, R162) -/

section DecBit

variable {bit : Bool} {s : State P}

/-- DEC_BIT that reaches a leaf (R161 lines 12 to 16). -/
theorem decBit_of_leaf (hf : s.dec.fault = .none) (hroom : s.dec.q.length ≠ P.DQ_DEPTH)
    (hpos : (tnRead s.mem (decPosition s)).kind = .internal)
    (hleaf : (tnRead s.mem ((tnRead s.mem (decPosition s)).child bit)).kind = .leaf) :
    applyOp (.decBit bit) s =
      emitSymbol (tnRead s.mem ((tnRead s.mem (decPosition s)).child bit)).sym (openDec s) := by
  rcases decBit_cases bit s with ⟨hf', -⟩ | ⟨-, hq, -⟩ | ⟨-, -, hpos', -⟩ | ⟨-, -, -, he⟩
  · exact absurd hf hf'
  · exact absurd hq hroom
  · exact absurd hpos hpos'
  · rw [he, enterChild, openDec_mem, hleaf]

/-- DEC_BIT that reaches an INTERNAL node (R161 lines 18 to 20). -/
theorem decBit_of_internal (hf : s.dec.fault = .none) (hroom : s.dec.q.length ≠ P.DQ_DEPTH)
    (hpos : (tnRead s.mem (decPosition s)).kind = .internal)
    (hchild : (tnRead s.mem ((tnRead s.mem (decPosition s)).child bit)).kind = .internal) :
    applyOp (.decBit bit) s = descend ((tnRead s.mem (decPosition s)).child bit) (openDec s) := by
  rcases decBit_cases bit s with ⟨hf', -⟩ | ⟨-, hq, -⟩ | ⟨-, -, hpos', -⟩ | ⟨-, -, -, he⟩
  · exact absurd hf hf'
  · exact absurd hq hroom
  · exact absurd hpos hpos'
  · rw [he, enterChild, openDec_mem, hchild]

/-- DEC_END closes the unit at the root, and mid-path it takes the fault (R162). -/
theorem decEnd_of_room (hf : s.dec.fault = .none) (hroom : s.dec.q.length ≠ P.DQ_DEPTH) :
    applyOp .decEnd s = if s.dec.mid then truncateDecStream s else endDecStream s := by
  rcases decEnd_cases s with ⟨hf', -⟩ | ⟨-, hq, -⟩ | ⟨-, -, hm, he⟩ | ⟨-, -, hm, he⟩
  · exact absurd hf hf'
  · exact absurd hq hroom
  · rw [he, hm, if_pos rfl]
  · rw [he, hm, if_neg Bool.false_ne_true]

end DecBit

/-- A state is what its fields are. -/
theorem State.ext_fields {s t : State P} (hm : s.mem = t.mem) (he : s.enc = t.enc) (hd : s.dec = t.dec)
    (hn : s.resets = t.resets) (hev : s.events = t.events) (hr : s.resp = t.resp) : s = t := by
  cases s; cases t; simp_all

/-- Settles O29: the emission at a leaf, by an opened unit, field by field. -/
theorem decBitEmitsLeafSymbol : Obligations.DecBitEmitsLeafSymbol := by
  unfold Obligations.DecBitEmitsLeafSymbol
  rintro bit s hf hroom hpos c rfl hleaf
  rw [exec_eq_applyOp, decBit_of_leaf hf hroom hpos hleaf]
  refine congrArg _ (State.ext_fields (openDec_mem s) (openDec_enc s) ?_ (openDec_resets s) (openDec_events s) rfl)
  rw [emitSymbol_dec, openDec_dec]
  rfl

/-- Settles O30: the step down to an INTERNAL node, by an opened unit, field by field. -/
theorem decBitDescends : Obligations.DecBitDescends := by
  unfold Obligations.DecBitDescends
  rintro bit s hf hroom hpos c rfl hchild
  rw [exec_eq_applyOp, decBit_of_internal hf hroom hpos hchild]
  refine congrArg _ (State.ext_fields (openDec_mem s) (openDec_enc s) ?_ (openDec_resets s) (openDec_events s) rfl)
  rw [descend_dec, openDec_dec]
  rfl

/-! ### The model's own fields (R20, R206) -/

/-- The two states hold the same configuration and units, and the last step was answered alike. -/
def SameOutcome (s t : State P) : Prop := s.mem = t.mem ∧ s.enc = t.enc ∧ s.dec = t.dec ∧ s.resp = t.resp

section Own

variable {s t : State P} (hm : s.mem = t.mem) (he : s.enc = t.enc) (hd : s.dec = t.dec)

include hm hd in
theorem decPosition_congr : decPosition s = decPosition t := by rw [decPosition, decPosition, hm, hd]

include he in
theorem wordsCompleted_congr (len : Nat) : wordsCompleted s len = wordsCompleted t len := by
  rw [wordsCompleted, wordsCompleted, he]

include hm he hd

theorem statusRead_congr (idx : BitVec 4) : statusRead idx s = statusRead idx t := by
  simp only [statusRead, hm, he, hd]

theorem enterChild_congr (c : Handle P) : SameOutcome (enterChild c s) (enterChild c t) := by
  unfold SameOutcome enterChild
  rw [hm]
  cases (tnRead t.mem c).kind <;> simp [hm, he, hd]

/-- No operation reads the model's own fields: which of its branches it takes, and what that branch writes and answers, are said of
the configuration and the units. -/
theorem applyOp_congr (i : Instr P) : SameOutcome (applyOp i s) (applyOp i t) := by
  have hpos := decPosition_congr hm hd
  have hwords := wordsCompleted_congr he
  cases i with
  | ctrlNop | encClr | decClr | allClr =>
    simp [SameOutcome, applyOp_ctrlNop, applyOp_encClr, applyOp_decClr, applyOp_allClr, hm, he, hd]
  | statRd idx => simp [SameOutcome, applyOp_statRd, statusRead_congr hm he hd, hm, he, hd]
  | cfgClear =>
    simp only [applyOp, perform, execCfgClear, he, hd]
    split <;> simp [SameOutcome, hm, he, hd]
  | cfgCode sym len code =>
    simp only [applyOp, perform, execCfgCode, he, hm]
    split <;> simp [SameOutcome, hm, he, hd]
  | cfgNode h kind left right sym =>
    simp only [applyOp, perform, execCfgNode, hd, hm]
    split <;> simp [SameOutcome, hm, he, hd]
  | cfgRoot h =>
    simp only [applyOp, perform, execCfgRoot, hd, hm]
    split <;> simp [SameOutcome, hm, he, hd]
  | encPut sym =>
    simp only [applyOp, perform, execEncPut, he, hm, hwords]
    split_ifs <;> simp [SameOutcome, hm, he, hd, hwords]
  | encEnd =>
    simp only [applyOp, perform, execEncEnd, he]
    split_ifs <;> simp [SameOutcome, hm, he, hd]
  | encPop =>
    simp only [applyOp, perform, execEncPop, he]
    split <;> simp [SameOutcome, hm, he, hd]
  | decBit bit =>
    simp only [applyOp, perform, execDecBit, hd, hm, hpos]
    split_ifs
    · simp [SameOutcome, hm, he, hd]
    · simp [SameOutcome, hm, he, hd]
    · simp [SameOutcome, hm, he, hd]
    · exact enterChild_congr (by simp [hm]) (by simp [he]) (by simp [hd]) _
  | decEnd =>
    simp only [applyOp, perform, execDecEnd, hd]
    split_ifs <;> simp [SameOutcome, hm, he, hd]
  | decPop =>
    simp only [applyOp, perform, execDecPop, hd]
    split <;> simp [SameOutcome, hm, he, hd]

end Own

/-- Settles O42: no operation reads the model's own fields. -/
theorem operationsDependOnBlockStateOnly : Obligations.OperationsDependOnBlockStateOnly := by
  unfold Obligations.OperationsDependOnBlockStateOnly
  intro i s s' t t' hm he hd ht ht'
  rw [exec_eq_next_iff] at ht ht'
  rw [← ht, ← ht']
  exact applyOp_congr hm he hd i

end Sys2Proof.Machine
end


section
/-! PROOFS. A decoder stream in a run (R164, R200): between two accepted port-4 operations nothing of the decoder but the head of its
queue changes, so a run is its accepted operations, and those take the walk that splits the bits into paths. -/

namespace Sys2Proof.Machine

open Sys2Proof

variable {P : Params}

/-! ### Operations that leave a decoder stream alone -/

/-- The host's side of a decoder run (R200): no clear of the decoder, and no write to the tree that is answered `OK`. -/
def DecUndisturbed (s : State P) (ops : List (Instr P)) : Prop :=
  ∀ r ∈ trace ops s, r.op ≠ .decClr ∧ r.op ≠ .allClr ∧ (writesTree r.op = true → r.after.resp ≠ .code .ok)

theorem decUndisturbed_cons {s : State P} {i : Instr P} {ops : List (Instr P)} :
    DecUndisturbed s (i :: ops) ↔
      (i ≠ .decClr ∧ i ≠ .allClr ∧ (writesTree i = true → (applyOp i s).resp ≠ .code .ok)) ∧
        DecUndisturbed (applyOp i s) ops := by
  simp only [DecUndisturbed, trace, List.forall_mem_cons]

/-- From `s` to `t` the tree and the decoder stand, but for entries taken off the decoder's queue. -/
structure DecQuiet (s t : State P) : Prop where
  nodes : ∀ k, tnRead t.mem k = tnRead s.mem k
  root : t.mem.root = s.mem.root
  dec : ∃ q, t.dec = { s.dec with q := q }

theorem DecQuiet.of_mem_dec {s t : State P} (hm : t.mem = s.mem) (hd : t.dec = s.dec) : DecQuiet s t :=
  ⟨fun _ => by rw [hm], by rw [hm], ⟨s.dec.q, by rw [hd]⟩⟩

theorem DecQuiet.refl (s : State P) : DecQuiet s s := .of_mem_dec rfl rfl

theorem DecQuiet.trans {s t u : State P} (h : DecQuiet s t) (h' : DecQuiet t u) : DecQuiet s u := by
  obtain ⟨q, hq⟩ := h.dec
  obtain ⟨q', hq'⟩ := h'.dec
  exact ⟨fun k => (h'.nodes k).trans (h.nodes k), h'.root.trans h.root, ⟨q', by rw [hq', hq]⟩⟩

/-- An operation of another port that is no clear of the decoder and no accepted write to the tree. -/
theorem decQuiet_of_other_port {i : Instr P} {s : State P} (hi : isDecStream i = false) (hdc : i ≠ .decClr) (hac : i ≠ .allClr)
    (hw : writesTree i = true → (applyOp i s).resp ≠ .code .ok) : DecQuiet s (applyOp i s) := by
  cases i with
  | ctrlNop | encClr | statRd => exact .of_mem_dec rfl rfl
  | decClr => exact absurd rfl hdc
  | allClr => exact absurd rfl hac
  | cfgClear =>
    rcases cfgClear_cases s with ⟨-, he⟩ | ⟨-, -, he⟩
    · rw [he]
      exact .of_mem_dec rfl rfl
    · exact absurd (by rw [he]; rfl) (hw rfl)
  | cfgCode sym len code =>
    rcases cfgCode_cases sym len code s with ⟨-, he⟩ | ⟨-, he⟩ <;> rw [he]
    · exact .of_mem_dec rfl rfl
    · exact ⟨fun _ => rfl, rfl, s.dec.q, rfl⟩
  | cfgNode k kind left right sym =>
    rcases cfgNode_cases k kind left right sym s with ⟨-, he⟩ | ⟨-, he⟩
    · rw [he]
      exact .of_mem_dec rfl rfl
    · exact absurd (by rw [he]; rfl) (hw rfl)
  | cfgRoot r =>
    rcases cfgRoot_cases r s with ⟨-, he⟩ | ⟨-, he⟩
    · rw [he]
      exact .of_mem_dec rfl rfl
    · exact absurd (by rw [he]; rfl) (hw rfl)
  | encPut | encEnd | encPop =>
    exact .of_mem_dec (applyOp_mem (by simp [Instr.chan]) s) (applyOp_dec (by simp [Instr.chan]) s)
  | decBit | decEnd => cases hi
  | decPop =>
    have hm : (applyOp .decPop s).mem = s.mem := applyOp_mem (by simp [Instr.chan]) s
    exact ⟨fun _ => by rw [hm], by rw [hm], s.dec.q.tail, applyOp_decPop_dec s⟩

/-! ### A run as its accepted operations -/

section Trace

variable {i : Instr P} {s : State P} {ops : List (Instr P)}

/-- The answer tells whether an operation was ready (R11). -/
theorem accepted_eq_ready (i : Instr P) (s : State P) : (OpRecord.mk i s (applyOp i s)).accepted = ready i s := by
  unfold OpRecord.accepted
  cases h : ready i s with
  | true => simpa using applyOp_resp_of_ready h
  | false => simp [applyOp_of_not_ready h]

theorem decAccepted_cons_of_accepted (hi : isDecStream i = true) (hr : ready i s = true) :
    decAccepted (trace (i :: ops) s) = ⟨i, s, applyOp i s⟩ :: decAccepted (trace ops (applyOp i s)) :=
  List.filter_cons_of_pos (by rw [accepted_eq_ready, hi, hr]; rfl)

theorem decAccepted_cons_of_not_accepted (h : isDecStream i = false ∨ ready i s = false) :
    decAccepted (trace (i :: ops) s) = decAccepted (trace ops (applyOp i s)) :=
  List.filter_cons_of_neg (by rw [accepted_eq_ready, Bool.and_eq_true]; rintro ⟨h1, h2⟩; simp [h1, h2] at h)

theorem decOut_cons_of_stream (hi : isDecStream i = true) :
    decOut (trace (i :: ops) s) = (applyOp i s).dec.q.drop s.dec.q.length ++ decOut (trace ops (applyOp i s)) := by
  simp only [decOut, trace]
  rw [List.filter_cons_of_pos (by exact hi), List.flatMap_cons]

theorem decOut_cons_of_other (hi : isDecStream i = false) :
    decOut (trace (i :: ops) s) = decOut (trace ops (applyOp i s)) := by
  simp only [decOut, trace]
  rw [List.filter_cons_of_neg (by simp [hi])]

/-- An operation of an undisturbed run that is no accepted port-4 operation leaves the stream alone and pushes nothing. -/
theorem not_accepted_quiet (h : isDecStream i = false ∨ ready i s = false) (hu : DecUndisturbed s (i :: ops)) :
    DecQuiet s (applyOp i s) ∧ decOut (trace (i :: ops) s) = decOut (trace ops (applyOp i s)) := by
  obtain ⟨⟨hdc, hac, hw⟩, -⟩ := decUndisturbed_cons.1 hu
  cases hi : isDecStream i with
  | false => exact ⟨decQuiet_of_other_port hi hdc hac hw, decOut_cons_of_other hi⟩
  | true =>
    have hr : applyOp i s = notReady s := applyOp_of_not_ready (by simpa [hi] using h)
    refine ⟨by rw [hr]; exact .of_mem_dec rfl rfl, ?_⟩
    rw [decOut_cons_of_stream hi, hr, notReady_dec, List.drop_length, List.nil_append]

/-- A run with no accepted port-4 operation. -/
theorem decRun_of_none_accepted (hu : DecUndisturbed s ops) (h : decAccepted (trace ops s) = []) :
    DecQuiet s (runOps ops s) ∧ decOut (trace ops s) = [] := by
  induction ops generalizing s with
  | nil => exact ⟨.refl s, rfl⟩
  | cons j ops ih =>
    by_cases hj : isDecStream j = true ∧ ready j s = true
    · rw [decAccepted_cons_of_accepted hj.1 hj.2] at h
      cases h
    · rw [not_and_or, Bool.not_eq_true, Bool.not_eq_true] at hj
      obtain ⟨hquiet, hout⟩ := not_accepted_quiet hj hu
      rw [decAccepted_cons_of_not_accepted hj] at h
      obtain ⟨hrest, hnil⟩ := ih (decUndisturbed_cons.1 hu).2 h
      exact ⟨hquiet.trans hrest, hout.trans hnil⟩

/-- Up to its first accepted port-4 operation, which is `i` in the state `u`, a run leaves the stream alone; `ops'` come after it. -/
structure DecFirst (i : Instr P) (s : State P) (ops : List (Instr P)) (u : State P) (ops' : List (Instr P)) : Prop where
  quiet : DecQuiet s u
  ready : ready i u = true
  undisturbed : DecUndisturbed (applyOp i u) ops'
  accepted : decAccepted (trace ops s) = ⟨i, u, applyOp i u⟩ :: decAccepted (trace ops' (applyOp i u))
  out : decOut (trace ops s) = (applyOp i u).dec.q.drop u.dec.q.length ++ decOut (trace ops' (applyOp i u))
  run : runOps ops s = runOps ops' (applyOp i u)

theorem exists_decFirst {is : List (Instr P)} (hu : DecUndisturbed s ops)
    (h : (decAccepted (trace ops s)).map OpRecord.op = i :: is) : ∃ u ops', DecFirst i s ops u ops' := by
  induction ops generalizing s with
  | nil => cases h
  | cons j ops ih =>
    by_cases hj : isDecStream j = true ∧ ready j s = true
    · obtain ⟨hdec, hready⟩ := hj
      have hacc := decAccepted_cons_of_accepted (ops := ops) hdec hready
      rw [hacc, List.map_cons, List.cons.injEq] at h
      obtain ⟨rfl, -⟩ := h
      exact ⟨s, ops, .refl s, hready, (decUndisturbed_cons.1 hu).2, hacc, decOut_cons_of_stream hdec, rfl⟩
    · rw [not_and_or, Bool.not_eq_true, Bool.not_eq_true] at hj
      obtain ⟨hquiet, hout⟩ := not_accepted_quiet hj hu
      rw [decAccepted_cons_of_not_accepted hj] at h
      obtain ⟨u, ops', hf⟩ := ih (decUndisturbed_cons.1 hu).2 h
      exact ⟨u, ops', hquiet.trans hf.quiet, hf.ready, hf.undisturbed, (decAccepted_cons_of_not_accepted hj).trans hf.accepted,
        hout.trans hf.out, hf.run⟩

/-- The accepted operations after the first one. -/
theorem DecFirst.rest {is ops' : List (Instr P)} {u : State P} (hf : DecFirst i s ops u ops')
    (h : (decAccepted (trace ops s)).map OpRecord.op = i :: is) :
    (decAccepted (trace ops' (applyOp i u))).map OpRecord.op = is := by
  rw [hf.accepted, List.map_cons, List.cons.injEq] at h
  exact h.2

end Trace

/-! ### The decoder on its walk -/

/-- The decoder is in a stream over the tree of `m`, `p` the path it has taken since the last leaf (R38). -/
structure DecStands (m : Memory P) (p : Bits) (s : State P) : Prop where
  nodes : ∀ k, tnRead s.mem k = tnRead m k
  root : s.mem.root = m.root
  fault : s.dec.fault = .none
  mid : s.dec.mid = decide (p ≠ [])
  position : node m p = some (decPosition s)

/-- What `dec_bits` counts on from: its value, or 0 in a new stream (R41). -/
def DecUnit.startBits (u : DecUnit P) : Count P := if u.isOpen then u.bits else 0

/-- What `dec_syms` counts on from: its value, or 0 in a new stream (R41). -/
def DecUnit.startSyms (u : DecUnit P) : Count P := if u.isOpen then u.syms else 0

section Stream

variable {m : Memory P} {p bits rest : Bits} {b : Bool} {x : Symbol P} {paths : List (Bits × Symbol P)} {s t u : State P}

/-- A closed decoder over the tree stands at its root. -/
theorem decStands_of_closed (h : s.dec.Inv) (hc : s.dec.isOpen = false) : DecStands s.mem [] s := by
  obtain ⟨-, hclosed, -⟩ := h
  obtain ⟨hm, hf⟩ := hclosed hc
  exact ⟨fun _ => rfl, rfl, hf, by simp [hm], by rw [decPosition_of_root hm]; rfl⟩

theorem DecStands.of_quiet (h : DecStands m p s) (hq : DecQuiet s t) : DecStands m p t := by
  obtain ⟨q, hd⟩ := hq.dec
  have hpos : decPosition t = decPosition s := by rw [decPosition, decPosition, hd, hq.root]
  exact ⟨fun k => (hq.nodes k).trans (h.nodes k), hq.root.trans h.root, by rw [hd]; exact h.fault, by rw [hd]; exact h.mid,
    by rw [hpos]; exact h.position⟩

theorem DecQuiet.counters (hq : DecQuiet s t) : t.dec.startBits = s.dec.startBits ∧ t.dec.startSyms = s.dec.startSyms ∧
    t.dec.bits = s.dec.bits ∧ t.dec.syms = s.dec.syms := by
  obtain ⟨q, hd⟩ := hq.dec
  rw [hd]
  exact ⟨rfl, rfl, rfl, rfl⟩

/-- A unit with no fault whose DEC_BIT or DEC_END is ready has room (R160). -/
theorem DecStands.room (h : DecStands m p u) {i : Instr P} (hi : isDecStream i = true) (hr : ready i u = true) :
    u.dec.q.length ≠ P.DQ_DEPTH := by
  cases i with
  | decBit | decEnd => simpa [ready, DecUnit.qFull, h.fault] using hr
  | _ => cases hi

/-- Where the path goes on by a bit, the position is INTERNAL and the bit selects the child the path goes on to. -/
theorem DecStands.child (h : DecStands m p u) {k : Handle P} (hk : node m (p ++ [b]) = some k) :
    (tnRead u.mem (decPosition u)).kind = .internal ∧ (tnRead u.mem (decPosition u)).child b = k := by
  obtain ⟨c, hc, hi⟩ := atInternal_of_node_append hk (List.cons_ne_nil b [])
  obtain rfl : decPosition u = c := Option.some.inj (h.position.symm.trans hc)
  rw [h.nodes]
  exact ⟨hi, (node_child hc hk).symm⟩

/-- A bit answered `OK` takes the unit from `u` to `t` and pushes the symbols `es` (none, or one). -/
structure DecBitOk (u t : State P) (es : List (DecEntry P)) : Prop where
  resp : t.resp = .code .ok
  q : t.dec.q = u.dec.q ++ es
  bits : t.dec.startBits = u.dec.startBits + 1
  syms : t.dec.startSyms = u.dec.startSyms + BitVec.ofNat P.CNT_W es.length

/-- A ready DEC_BIT to a leaf. -/
theorem DecStands.decBit_leaf (h : DecStands m p u) (hr : ready (.decBit b) u = true) (hl : LeafPath m (p ++ [b]) x) :
    DecBitOk u (applyOp (.decBit b) u) [symEntry x] ∧ DecStands m [] (applyOp (.decBit b) u) := by
  obtain ⟨k, hk, hleaf, rfl⟩ := hl
  obtain ⟨hi, rfl⟩ := h.child hk
  rw [← h.nodes] at hleaf ⊢
  rw [decBit_of_leaf h.fault (h.room rfl hr) hi hleaf]
  exact ⟨⟨rfl, by simp, by simp [DecUnit.startBits], by simp [DecUnit.startSyms]⟩,
    ⟨by simpa using h.nodes, by simpa using h.root, by simpa using h.fault, by simp,
      by simp [node, nodeFrom, decPosition, h.root]⟩⟩

/-- A ready DEC_BIT to an INTERNAL node. -/
theorem DecStands.decBit_down (h : DecStands m p u) (hr : ready (.decBit b) u = true) (hi : AtInternal m (p ++ [b])) :
    DecBitOk u (applyOp (.decBit b) u) [] ∧ DecStands m (p ++ [b]) (applyOp (.decBit b) u) := by
  obtain ⟨k, hk, hki⟩ := hi
  obtain ⟨hpos, rfl⟩ := h.child hk
  rw [← h.nodes] at hki
  rw [decBit_of_internal h.fault (h.room rfl hr) hpos hki]
  exact ⟨⟨rfl, by simp, by simp [DecUnit.startBits], by simp [DecUnit.startSyms]⟩,
    ⟨by simpa using h.nodes, by simpa using h.root, by simpa using h.fault, by simp, by simpa [decPosition] using hk⟩⟩

/-- A ready DEC_END. -/
theorem DecStands.decEnd (h : DecStands m p u) (hr : ready .decEnd u = true) :
    (applyOp .decEnd u).resp = (if p = [] then .code .ok else .code .errTruncatedStream) ∧
    (applyOp .decEnd u).dec.q = u.dec.q ++ [endEntry (decide (p ≠ []))] ∧
    (applyOp .decEnd u).dec.bits = u.dec.startBits ∧ (applyOp .decEnd u).dec.syms = u.dec.startSyms := by
  rw [decEnd_of_room h.fault (h.room rfl hr), h.mid]
  by_cases hp : p = [] <;> simp [hp, DecUnit.startBits, DecUnit.startSyms]

/-! ### The stream in a run (R164) -/

/-- What the host sees of a decoder stream of `n` bits whose walk completes `paths` and ends on `rest`. -/
structure DecStream (n : Nat) (paths : List (Bits × Symbol P)) (rest : Bits) (s : State P) (ops : List (Instr P)) : Prop where
  answers : (decAccepted (trace ops s)).map (fun r => r.after.resp) =
    List.replicate n (.code .ok) ++ [if rest = [] then .code .ok else .code .errTruncatedStream]
  out : decOut (trace ops s) = paths.map (fun e => symEntry e.2) ++ [endEntry (decide (rest ≠ []))]
  syms : (runOps ops s).dec.syms = s.dec.startSyms + BitVec.ofNat P.CNT_W paths.length
  bits : (runOps ops s).dec.bits = s.dec.startBits + BitVec.ofNat P.CNT_W n

variable {ops ops' : List (Instr P)}

/-- A stream with no bit left: its one accepted operation is DEC_END. -/
theorem DecFirst.stream_of_end (hf : DecFirst .decEnd s ops u ops') (hst : DecStands m p u)
    (hlast : (decAccepted (trace ops' (applyOp .decEnd u))).map OpRecord.op = []) : DecStream 0 [] p s ops := by
  have hnone := List.map_eq_nil_iff.1 hlast
  obtain ⟨hquiet, hout⟩ := decRun_of_none_accepted hf.undisturbed hnone
  obtain ⟨hresp, hq, hbits, hsyms⟩ := hst.decEnd hf.ready
  obtain ⟨hsb, hss, -, -⟩ := hf.quiet.counters
  obtain ⟨-, -, hb, hs⟩ := hquiet.counters
  constructor
  · rw [hf.accepted, hnone]
    simp [hresp]
  · rw [hf.out, hout, hq, List.drop_left]
    simp
  · rw [hf.run, hs, hsyms, hss]
    simp
  · rw [hf.run, hb, hbits, hsb]
    simp

/-- One bit more in front of a stream. -/
theorem DecFirst.stream_of_bit {es : List (DecEntry P)} {n : Nat} {paths' : List (Bits × Symbol P)}
    (hf : DecFirst (.decBit b) s ops u ops') (hbit : DecBitOk u (applyOp (.decBit b) u) es)
    (htail : DecStream n paths rest (applyOp (.decBit b) u) ops')
    (hpaths : paths'.map (fun e => symEntry e.2) = es ++ paths.map (fun e => symEntry e.2)) :
    DecStream (n + 1) paths' rest s ops := by
  obtain ⟨hsb, hss, -, -⟩ := hf.quiet.counters
  have hlen : paths'.length = es.length + paths.length := by simpa using congrArg List.length hpaths
  constructor
  · rw [hf.accepted, List.map_cons, htail.answers, hbit.resp]
    rfl
  · rw [hf.out, hbit.q, List.drop_left, htail.out, hpaths, List.append_assoc]
  · rw [hf.run, htail.syms, hbit.syms, hss, hlen, BitVec.ofNat_add, BitVec.add_assoc]
  · rw [hf.run, htail.bits, hbit.bits, hsb, Nat.add_comm n 1, BitVec.ofNat_add, BitVec.add_assoc]
    rfl

/-- A stream takes the walk of its bits: by induction on the walk, each of its steps the next accepted operation. -/
theorem decStream_of_walk (hw : Walk m p bits paths rest) (hst : DecStands m p s) (hu : DecUndisturbed s ops)
    (hacc : (decAccepted (trace ops s)).map OpRecord.op = decodeOps bits) : DecStream bits.length paths rest s ops := by
  induction hw generalizing s ops with
  | stop _ =>
    obtain ⟨u, ops', hf⟩ := exists_decFirst hu hacc
    exact hf.stream_of_end (hst.of_quiet hf.quiet) (hf.rest hacc)
  | leaf hl _ ih =>
    obtain ⟨u, ops', hf⟩ := exists_decFirst hu hacc
    obtain ⟨hbit, hst'⟩ := (hst.of_quiet hf.quiet).decBit_leaf hf.ready hl
    exact hf.stream_of_bit hbit (ih hst' hf.undisturbed (hf.rest hacc)) rfl
  | down hi _ ih =>
    obtain ⟨u, ops', hf⟩ := exists_decFirst hu hacc
    obtain ⟨hbit, hst'⟩ := (hst.of_quiet hf.quiet).decBit_down hf.ready hi
    exact hf.stream_of_bit hbit (ih hst' hf.undisturbed (hf.rest hacc)) rfl

/-- What the host sees of a decoder run whose bits are root-to-leaf paths and a remainder that ends at an INTERNAL node. -/
theorem decStream_of_decRun (hinv : s.dec.Inv) (hpaths : ∀ q ∈ paths, LeafPath s.mem q.1 q.2) (hrest : AtInternal s.mem rest)
    (hrun : DecRun s (paths.flatMap Prod.fst ++ rest) ops) :
    DecStream (paths.flatMap Prod.fst ++ rest).length paths rest s ops := by
  obtain ⟨hclosed, hacc, hundisturbed⟩ := hrun
  exact decStream_of_walk (walk_of_splits hpaths hrest) (decStands_of_closed hinv hclosed) hundisturbed hacc

end Stream

/-- Settles O51, by the walk of the bits from the root; a closed unit counts from 0. -/
theorem decodedStreamFollowsPaths : Obligations.DecodedStreamFollowsPaths := by
  unfold Obligations.DecodedStreamFollowsPaths
  intro s paths rest ops hinv hpaths hrest hrun
  have hstream := decStream_of_decRun hinv hpaths hrest hrun
  obtain ⟨hclosed, -⟩ := hrun
  refine ⟨hstream.answers, hstream.out, ?_, ?_⟩
  · rw [hstream.syms]
    simp [DecUnit.startSyms, hclosed]
  · rw [hstream.bits]
    simp [DecUnit.startBits, hclosed]

end Sys2Proof.Machine
end


section
/-! PROOFS. The STATUS registers field by field (R45 to R54), and what a hard reset leaves (R57). -/

namespace Sys2Proof.Machine

open Sys2Proof

variable {P : Params}

/-! ### STATUS (R45 to R54) -/

/-- The fields of ENC_STATUS at the defaults (R47). -/
theorem encStatus_fields (u : EncUnit) :
    (encStatus u).getLsbD 0 = u.isOpen ∧ (encStatus u).extractLsb' 1 2 = u.fault.toBits ∧
    (encStatus u).getLsbD 3 = u.qEmpty ∧ (encStatus u).getLsbD 4 = u.qFull ∧ (encStatus u).extractLsb' 5 3 = 0#3 ∧
    (encStatus u).extractLsb' 8 8 = BitVec.ofNat 8 u.acc.length ∧ (encStatus u).extractLsb' 16 8 = u.errsym ∧
    (encStatus u).extractLsb' 24 8 = 0#8 := by
  unfold encStatus
  simp (disch := omega) only [append_extract_low, append_extract_high, append_getLsbD_low, append_getLsbD_high, extract_whole,
    ofBool_getLsbD_zero]
  simp

/-- The fields of a word laid out as DEC_STATUS is at the defaults, with the zeros above `dec_cur` written out (R50). -/
theorem decStatusWord_fields (cur : BitVec 9) (fault : BitVec 2) (mid full empty isOpen : Bool) {w : BitVec 32}
    (hw : w = 0#15 ++ (cur ++ 0#2 ++ BitVec.ofBool mid ++ BitVec.ofBool full ++ BitVec.ofBool empty ++ fault ++
      BitVec.ofBool isOpen)) :
    w.getLsbD 0 = isOpen ∧ w.extractLsb' 1 2 = fault ∧ w.getLsbD 3 = empty ∧ w.getLsbD 4 = full ∧ w.getLsbD 5 = mid ∧
    w.extractLsb' 6 2 = 0#2 ∧ w.extractLsb' 8 9 = cur ∧ w.extractLsb' 17 15 = 0#15 := by
  subst hw
  simp (disch := omega) only [append_extract_low, append_extract_high, append_getLsbD_low, append_getLsbD_high, extract_whole,
    ofBool_getLsbD_zero]
  simp

/-- The fields of DEC_STATUS at the defaults (R50). -/
theorem decStatus_fields (u : DecUnit) :
    (decStatus u).getLsbD 0 = u.isOpen ∧ (decStatus u).extractLsb' 1 2 = u.fault.toBits ∧
    (decStatus u).getLsbD 3 = u.qEmpty ∧ (decStatus u).getLsbD 4 = u.qFull ∧ (decStatus u).getLsbD 5 = u.mid ∧
    (decStatus u).extractLsb' 6 2 = 0#2 ∧ (decStatus u).extractLsb' 8 NODE_W = u.cur ∧
    (decStatus u).extractLsb' 17 15 = 0#15 :=
  decStatusWord_fields u.cur u.fault.toBits u.mid u.qFull u.qEmpty u.isOpen (BitVec.setWidth_eq_append (by decide))

/-- The two registers of a 64-bit counter are the counter (R49, R52, R64). -/
theorem countHi_append_countLo (c : Count) : countHi c ++ countLo c = c := by
  rw [countHi, countLo, extract_append_extract _ 0 32 32]
  exact (extract_whole _ _ rfl).trans (BitVec.setWidth_eq c)

/-- Settles O36: the registers that are read whole by definition, the two status words and the counters by their fields. -/
theorem statusRegisterLayouts : Obligations.StatusRegisterLayouts := by
  unfold Obligations.StatusRegisterLayouts
  intro s
  obtain ⟨hopen, hfault, hempty, hfull, hzero, hacc, herr, htop⟩ := encStatus_fields s.enc
  obtain ⟨dopen, dfault, dempty, dfull, dmid, dzero, dcur, dtop⟩ := decStatus_fields s.dec
  refine ⟨rfl, rfl, hopen, hfault.trans ?_, hempty.trans ?_, hfull.trans ?_, hzero, hacc, herr, htop, rfl,
    countHi_append_countLo _, countHi_append_countLo _, dopen, dfault.trans ?_, dempty.trans ?_, dfull.trans ?_, dmid, dzero,
    dcur, dtop, rfl, countHi_append_countLo _, countHi_append_countLo _, rfl, rfl⟩
  · cases s.enc.fault <;> rfl
  · rfl
  · rfl
  · cases s.dec.fault <;> rfl
  · rfl
  · rfl

/-! ### Reset (R57) -/

/-- What the STATUS registers read when the units and `ROOT` have their reset values. -/
theorem statusRead_of_reset {s : State} (hr : s.mem.root = 0) (he : s.enc = EncUnit.reset) (hd : s.dec = DecUnit.reset)
    (idx : BitVec 4) :
    statusRead idx s = if idx = 0 then 0x48434401 else if idx = 1 then 0x08090808 else if idx = 2 then 0x00000008
      else if idx = 8 then 0x00000008 else 0 := by
  rw [statusRead, hr, he, hd]
  revert idx
  decide

/-- Settles O37. -/
theorem hardResetValues : Obligations.HardResetValues := by
  unfold Obligations.HardResetValues
  intro s rest hev
  have hstep : step s = .next (hardReset (s.withEvents rest)) := by simp only [step, stepWith, hev]; rfl
  exact ⟨_, hstep, rfl, rfl, rfl, rfl, rfl, rfl, rfl, statusRead_of_reset rfl rfl rfl⟩

/-- Settles O39: the reset state of every parameter choice, at the defaults, and with `dec_mid = 0`. -/
theorem invariantsHoldAfterReset : Obligations.InvariantsHoldAfterReset := by
  unfold Obligations.InvariantsHoldAfterReset
  exact ⟨resetOf_stateInv Params.default, positionInternal_of_at_root rfl, positionReached_of_at_root rfl⟩

end Sys2Proof.Machine
end


section
/-! PROOFS. The state a stream runs over: what an operation can write to the configuration (R66, R74, R121) and to the two queues
(R68, R73), and what a step and a run of operations therefore leave. -/

namespace Sys2Proof.Machine

open Sys2Proof

variable {P : Params}

/-! ### What an operation writes to the configuration (R66, R121 to R125) -/

/-- What the operation `i` can do to the configuration of `s`, which `m` is afterwards. -/
inductive ConfigWrite (i : Instr P) (s : State P) (m : Memory P) : Prop where
  /-- Nothing is written: the operation is not of port 1, or it is refused (R121). -/
  | unchanged (hm : m = s.mem)
  /-- R122. -/
  | clear (hi : i = .cfgClear) (henc : s.enc.isOpen = false) (hdec : s.dec.isOpen = false) (hm : m = Memory.cleared)
  /-- R123. -/
  | code (sym : Symbol P) (len : CodeLen P) (code : CodeInt P) (hi : i = .cfgCode sym len code) (henc : s.enc.isOpen = false)
      (hm : m = ctWrite s.mem sym (storedCode len code))
  /-- R124. -/
  | node (h : Handle P) (n : TreeNode P) (hi : i = cfgNodeOf h n) (hdec : s.dec.isOpen = false) (hm : m = tnWrite s.mem h n)
  /-- R125. -/
  | root (r : Handle P) (hi : i = .cfgRoot r) (hdec : s.dec.isOpen = false) (hm : m = { s.mem with root := r })

theorem applyOp_configWrite (i : Instr P) (s : State P) : ConfigWrite i s (applyOp i s).mem := by
  cases i with
  | cfgClear =>
    rcases cfgClear_cases s with ⟨-, he⟩ | ⟨henc, hdec, he⟩ <;> rw [he]
    · exact .unchanged rfl
    · exact .clear rfl henc hdec rfl
  | cfgCode sym len code =>
    rcases cfgCode_cases sym len code s with ⟨-, he⟩ | ⟨henc, he⟩ <;> rw [he]
    · exact .unchanged rfl
    · exact .code sym len code rfl henc rfl
  | cfgNode h kind left right sym =>
    rcases cfgNode_cases h kind left right sym s with ⟨-, he⟩ | ⟨hdec, he⟩ <;> rw [he]
    · exact .unchanged rfl
    · exact .node h ⟨kind, left, right, sym⟩ rfl hdec rfl
  | cfgRoot r =>
    rcases cfgRoot_cases r s with ⟨-, he⟩ | ⟨hdec, he⟩ <;> rw [he]
    · exact .unchanged rfl
    · exact .root r rfl hdec rfl
  | ctrlNop | encClr | decClr | allClr | encPut | encEnd | encPop | decBit | decEnd | decPop | statRd =>
    exact .unchanged (applyOp_mem (by simp [Instr.chan]) s)

section ConfigWrite

variable {i : Instr P} {s : State P} {m : Memory P}

/-- A code survives what is no CFG_CLEAR and no CFG_CODE of its symbol. -/
theorem ConfigWrite.keeps_code (h : ConfigWrite i s m) (sym : Symbol P) (hclear : i ≠ .cfgClear)
    (hcode : ∀ len code, i ≠ .cfgCode sym len code) : ctRead m sym = ctRead s.mem sym := by
  cases h with
  | unchanged hm => rw [hm]
  | clear hi => exact absurd hi hclear
  | code sym' len code hi _ hm =>
    have hne : sym' ≠ sym := fun heq => hcode len code (heq ▸ hi)
    rw [hm, ctRead_ctWrite, if_neg hne]
  | node _ _ _ _ hm => rw [hm, ctRead_tnWrite]
  | root _ _ _ hm => rw [hm, ctRead_withRoot]

/-- A node survives what is no CFG_CLEAR and no CFG_NODE of its handle. -/
theorem ConfigWrite.keeps_node (h : ConfigWrite i s m) (k : Handle P) (hclear : i ≠ .cfgClear)
    (hnode : ∀ kind left right sym, i ≠ .cfgNode k kind left right sym) : tnRead m k = tnRead s.mem k := by
  cases h with
  | unchanged hm => rw [hm]
  | clear hi => exact absurd hi hclear
  | code _ _ _ _ _ hm => rw [hm, tnRead_ctWrite]
  | node k' n hi _ hm =>
    have hne : k' ≠ k := fun heq => hnode n.kind n.left n.right n.sym (heq ▸ hi)
    rw [hm, tnRead_tnWrite, if_neg hne]
  | root _ _ _ hm => rw [hm, tnRead_withRoot]

/-- `ROOT` survives what is no CFG_CLEAR and no CFG_ROOT. -/
theorem ConfigWrite.keeps_root (h : ConfigWrite i s m) (hclear : i ≠ .cfgClear) (hroot : ∀ r, i ≠ .cfgRoot r) :
    m.root = s.mem.root := by
  cases h with
  | unchanged hm => rw [hm]
  | clear hi => exact absurd hi hclear
  | code _ _ _ _ _ hm => rw [hm, ctWrite_root]
  | node _ _ _ _ hm => rw [hm, tnWrite_root]
  | root r hi => exact absurd hi (hroot r)

/-- While the encoder is open no code is written (R121). -/
theorem ConfigWrite.keeps_codes_of_open (h : ConfigWrite i s m) (hopen : s.enc.isOpen = true) (sym : Symbol P) :
    ctRead m sym = ctRead s.mem sym := by
  have not_closed : s.enc.isOpen ≠ false := by simp [hopen]
  cases h with
  | unchanged hm => rw [hm]
  | clear _ henc => exact absurd henc not_closed
  | code _ _ _ _ henc => exact absurd henc not_closed
  | node _ _ _ _ hm => rw [hm, ctRead_tnWrite]
  | root _ _ _ hm => rw [hm, ctRead_withRoot]

/-- While the decoder is open neither `ROOT` nor a node is written (R121). -/
theorem ConfigWrite.keeps_tree_of_open (h : ConfigWrite i s m) (hopen : s.dec.isOpen = true) :
    m.root = s.mem.root ∧ ∀ k, tnRead m k = tnRead s.mem k := by
  have not_closed : s.dec.isOpen ≠ false := by simp [hopen]
  cases h with
  | unchanged hm => exact hm ▸ ⟨rfl, fun _ => rfl⟩
  | clear _ _ hdec => exact absurd hdec not_closed
  | code _ _ _ _ _ hm => exact hm ▸ ⟨ctWrite_root _ _ _, tnRead_ctWrite _ _ _⟩
  | node _ _ _ hdec => exact absurd hdec not_closed
  | root _ _ hdec => exact absurd hdec not_closed

end ConfigWrite

/-- What every operation of a list keeps, the list keeps. -/
theorem runOps_keeps {α : Type} {f : State P → α} {ops : List (Instr P)} (h : ∀ i ∈ ops, ∀ s, f (applyOp i s) = f s)
    (s : State P) : f (runOps ops s) = f s := by
  induction ops generalizing s with
  | nil => rfl
  | cons i ops ih =>
    obtain ⟨hi, hops⟩ := List.forall_mem_cons.1 h
    exact (ih hops (applyOp i s)).trans (hi s)

/-- Settles O19: no operation of the list is one of those that write the entry. -/
theorem configurationChangesOnlyWhereWritten : Obligations.ConfigurationChangesOnlyWhereWritten := by
  unfold Obligations.ConfigurationChangesOnlyWhereWritten
  intro ops s hclear
  refine ⟨fun sym hcode => ?_, fun k hnode => ?_, fun hroot => ?_⟩
  · refine runOps_keeps (f := fun u => ctRead u.mem sym) (fun i hi u => ?_) s
    exact (applyOp_configWrite i u).keeps_code sym (ne_of_mem_of_not_mem hi hclear)
      fun len code => ne_of_mem_of_not_mem hi (hcode len code)
  · refine runOps_keeps (f := fun u => tnRead u.mem k) (fun i hi u => ?_) s
    exact (applyOp_configWrite i u).keeps_node k (ne_of_mem_of_not_mem hi hclear)
      fun kind left right sym => ne_of_mem_of_not_mem hi (hnode kind left right sym)
  · refine runOps_keeps (f := fun u => u.mem.root) (fun i hi u => ?_) s
    exact (applyOp_configWrite i u).keeps_root (ne_of_mem_of_not_mem hi hclear)
      fun r => ne_of_mem_of_not_mem hi (hroot r)

/-- Settles O46: the step is an operation, which writes no configuration that an open unit reads, or it writes none at all. -/
theorem configurationFixedWhileOpen : Obligations.ConfigurationFixedWhileOpen := by
  unfold Obligations.ConfigurationFixedWhileOpen
  intro s t hstep hreset
  rw [step_eq_stepOf] at hstep
  rcases stepOf_cases hstep with ⟨-, rfl⟩ | ⟨w, rest, i, -, -, rfl⟩ | ⟨rest, hev, -⟩ | ⟨sig, hold, rest, -, rfl⟩
  · exact ⟨fun _ _ => rfl, fun _ => ⟨rfl, fun _ => rfl⟩⟩
  · have hwrite := applyOp_configWrite i (s.withEvents rest)
    exact ⟨hwrite.keeps_codes_of_open, hwrite.keeps_tree_of_open⟩
  · exact absurd hev (hreset rest)
  · exact ⟨fun _ _ => rfl, fun _ => ⟨rfl, fun _ => rfl⟩⟩

/-! ### What an operation does to the queues (R68, R73) -/

/-- Short of a clear, an operation adds entries at the tail of the encoder FIFO, or it is the pop that answers its head. -/
theorem applyOp_encQueue {i : Instr P} (henc : i ≠ .encClr) (hall : i ≠ .allClr) (s : State P) :
    (∃ new, (applyOp i s).enc.q = s.enc.q ++ new) ∨
      ∃ e, i = .encPop ∧ s.enc.q = e :: (applyOp i s).enc.q ∧ (applyOp i s).resp = .word e := by
  have of_same {t : State P} (h : t.enc.q = s.enc.q) : ∃ new, t.enc.q = s.enc.q ++ new := ⟨[], by rw [h, List.append_nil]⟩
  cases i with
  | encClr => exact absurd rfl henc
  | allClr => exact absurd rfl hall
  | ctrlNop | decClr | statRd => exact .inl (of_same rfl)
  | cfgClear | cfgCode | cfgNode | cfgRoot | decBit | decEnd | decPop =>
    exact .inl (of_same (by rw [applyOp_enc (by simp [Instr.chan])]))
  | encPut sym =>
    rcases encPut_cases sym s with ⟨-, he⟩ | ⟨-, -, he⟩ | ⟨-, -, -, he⟩ | ⟨-, -, -, he⟩ <;> rw [he]
    · exact .inl (of_same rfl)
    · refine .inl (of_same ?_)
      cases h : s.enc.isOpen <;> simp [h]
    · exact .inl (of_same rfl)
    · exact .inl ⟨_, by rw [appendCode_enc]⟩
  | encEnd =>
    rcases encEnd_cases s with ⟨-, he⟩ | ⟨-, -, he⟩ | ⟨-, -, he⟩ <;> rw [he]
    · exact .inl (of_same rfl)
    · exact .inl (of_same rfl)
    · exact .inl ⟨_, by rw [endEncStream_enc]⟩
  | encPop =>
    rcases encPop_cases s with ⟨-, he⟩ | ⟨e, rest, hq, he⟩ <;> rw [he]
    · exact .inl (of_same rfl)
    · exact .inr ⟨e, rfl, hq, rfl⟩

/-- The step down to a child adds its symbol at the tail of the decoder's queue, or nothing. -/
theorem enterChild_decQueue (c : Handle P) (s : State P) : ∃ new, (enterChild c s).dec.q = s.dec.q ++ new := by
  rcases enterChild_cases c s with ⟨-, he⟩ | ⟨-, he⟩ | ⟨-, he⟩ <;> rw [he]
  · exact ⟨_, by rw [emitSymbol_dec]⟩
  · exact ⟨[], by simp⟩
  · exact ⟨[], by simp⟩

/-- Short of a clear, an operation adds entries at the tail of the decoder's queue, or it is the pop that answers its head. -/
theorem applyOp_decQueue {i : Instr P} (hdec : i ≠ .decClr) (hall : i ≠ .allClr) (s : State P) :
    (∃ new, (applyOp i s).dec.q = s.dec.q ++ new) ∨
      ∃ e, i = .decPop ∧ s.dec.q = e :: (applyOp i s).dec.q ∧ (applyOp i s).resp = .symbol e := by
  have of_same {t : State P} (h : t.dec.q = s.dec.q) : ∃ new, t.dec.q = s.dec.q ++ new := ⟨[], by rw [h, List.append_nil]⟩
  cases i with
  | decClr => exact absurd rfl hdec
  | allClr => exact absurd rfl hall
  | ctrlNop | encClr | statRd => exact .inl (of_same rfl)
  | cfgClear | cfgCode | cfgNode | cfgRoot | encPut | encEnd | encPop =>
    exact .inl (of_same (by rw [applyOp_dec (by simp [Instr.chan])]))
  | decBit bit =>
    rcases decBit_cases bit s with ⟨-, he⟩ | ⟨-, -, he⟩ | ⟨-, -, -, he⟩ | ⟨-, -, -, he⟩ <;> rw [he]
    · exact .inl (of_same rfl)
    · exact .inl (of_same rfl)
    · exact .inl (of_same (by simp))
    · obtain ⟨new, hq⟩ := enterChild_decQueue ((tnRead s.mem (decPosition s)).child bit) (openDec s)
      exact .inl ⟨new, by rw [hq, openDec_dec]⟩
  | decEnd =>
    rcases decEnd_cases s with ⟨-, he⟩ | ⟨-, -, he⟩ | ⟨-, -, -, he⟩ | ⟨-, -, -, he⟩ <;> rw [he]
    · exact .inl (of_same rfl)
    · exact .inl (of_same rfl)
    · exact .inl ⟨_, by rw [truncateDecStream_dec]⟩
    · exact .inl ⟨_, by rw [endDecStream_dec]⟩
  | decPop =>
    rcases decPop_cases s with ⟨-, he⟩ | ⟨e, rest, hq, he⟩ <;> rw [he]
    · exact .inl (of_same rfl)
    · exact .inr ⟨e, rfl, hq, rfl⟩

/-- Settles O47: a step that is no operation and no hard reset leaves the queues, and an operation adds at a tail or pops. -/
theorem queuesAreFirstInFirstOut : Obligations.QueuesAreFirstInFirstOut := by
  unfold Obligations.QueuesAreFirstInFirstOut
  intro s t hstep hreset hclear
  rw [step_eq_stepOf] at hstep
  rcases stepOf_cases hstep with ⟨-, rfl⟩ | ⟨w, rest, i, hev, hi, rfl⟩ | ⟨rest, hev, -⟩ | ⟨sig, hold, rest, -, rfl⟩
  · exact ⟨.inl ⟨[], (List.append_nil _).symm⟩, .inl ⟨[], (List.append_nil _).symm⟩⟩
  · obtain ⟨henc, hdec, hall⟩ := hclear w rest i hev hi
    constructor
    · rcases applyOp_encQueue henc hall (s.withEvents rest) with hnew | ⟨e, rfl, hq, hresp⟩
      · exact .inl hnew
      · exact .inr ⟨e, w, rest, hq, hev, hi, hresp⟩
    · rcases applyOp_decQueue hdec hall (s.withEvents rest) with hnew | ⟨e, rfl, hq, hresp⟩
      · exact .inl hnew
      · exact .inr ⟨e, w, rest, hq, hev, hi, hresp⟩
  · exact absurd hev (hreset rest)
  · exact ⟨.inl ⟨[], (List.append_nil _).symm⟩, .inl ⟨[], (List.append_nil _).symm⟩⟩

end Sys2Proof.Machine
end


section
/-! PROOFS. What one clock edge accepts (R70, R91, R93): which ports are open at it, when the block answers a driven transfer and
with what, and the mask of the accepted ports. -/

namespace Sys2Proof.Machine

open Sys2Proof

variable {P : Params} {sig : PortSignals P} {hold : BitVec 7} {s : State P}

/-! ### The words of one port (R94) -/

/-- Words of different ports are different. -/
theorem wordOf_ne {w v : Nat} {p : BitVec w} {q : BitVec v} {c d : BitVec 3} (h : c ≠ d) :
    (wordOf p c : TWord P) ≠ wordOf q d := by
  intro heq
  have hchan := congrArg chanOf heq
  rw [chanOf_wordOf, chanOf_wordOf] at hchan
  exact h hchan

/-- A driven word is the request its own port carries. -/
theorem wordOf_mem_drivenTransfers (sig : PortSignals P) :
    (∀ d, wordOf d 0 ∈ drivenTransfers sig ↔ sig.ctrl = some d) ∧
    (∀ d, wordOf d 1 ∈ drivenTransfers sig ↔ sig.cfg = some d) ∧
    (∀ d, wordOf d 2 ∈ drivenTransfers sig ↔ sig.symIn = some d) ∧
    (wordOf 0#0 3 ∈ drivenTransfers sig ↔ sig.wordOut = true) ∧
    (∀ d, wordOf d 4 ∈ drivenTransfers sig ↔ sig.bitIn = some d) ∧
    (wordOf 0#0 5 ∈ drivenTransfers sig ↔ sig.symOut = true) ∧
    (∀ d, wordOf d 6 ∈ drivenTransfers sig ↔ sig.stat = some d) := by
  have hfit := P.formats_fit
  have request {n : Nat} (hn : n + 3 ≤ P.T_W) (o : Option (BitVec n)) (c : BitVec 3) (d : BitVec n) :
      (∃ e, o = some e ∧ (wordOf d c : TWord P) = wordOf e c) ↔ o = some d :=
    ⟨fun ⟨_, ho, hw⟩ => wordOf_injective hn hw ▸ ho, fun ho => ⟨d, ho, rfl⟩⟩
  simp [mem_drivenTransfers, wordOf_ne, request (show 2 + 3 ≤ P.T_W by omega), request (show P.CFG_W + 3 ≤ P.T_W from le_rfl),
    request (show 1 + P.SYM_W + 3 ≤ P.T_W by omega), request (show 4 + 3 ≤ P.T_W by omega)]

/-! ### Open ports (R70, R91) -/

/-- Which port is alone at an edge: CTRL, or CFG where CTRL is absent or held, or none where both are. -/
theorem solePort_cases (sig : PortSignals P) (hold : BitVec 7) :
    (solePort sig hold = some 0 ∧ (∃ d, sig.ctrl = some d) ∧ hold.getLsbD 0 = false) ∨
    (solePort sig hold = some 1 ∧ (∃ d, sig.cfg = some d) ∧ hold.getLsbD 1 = false ∧
      (sig.ctrl = none ∨ hold.getLsbD 0 = true)) ∨
    (solePort sig hold = none ∧ (sig.ctrl = none ∨ hold.getLsbD 0 = true) ∧ (sig.cfg = none ∨ hold.getLsbD 1 = true)) := by
  unfold solePort
  cases sig.ctrl <;> cases sig.cfg <;> cases hold.getLsbD 0 <;> cases hold.getLsbD 1 <;> simp

/-- An open port is not held. -/
theorem not_held_of_open {c : BitVec 3} (h : portOpen sig hold c = true) : hold.getLsbD c.toNat = false := by
  by_contra hheld
  rw [Bool.not_eq_false] at hheld
  exact Bool.false_ne_true ((portOpen_of_held hheld).symm.trans h)

theorem portOpen_of_sole {c : BitVec 3} (h : solePort sig hold = some c) (hheld : hold.getLsbD c.toNat = false) :
    portOpen sig hold c = true := by
  simp [portOpen, h, hheld]

theorem portOpen_of_sole_ne {c d : BitVec 3} (h : solePort sig hold = some c) (hne : d ≠ c) : portOpen sig hold d = false := by
  simp [portOpen, h, hne.symm]

theorem portOpen_of_no_sole {c : BitVec 3} (h : solePort sig hold = none) (hheld : hold.getLsbD c.toNat = false) :
    portOpen sig hold c = true := by
  simp [portOpen, h, hheld]

/-- A port with a request that is not held is neither absent nor held. -/
theorem not_absent_or_held {α : Type} {o : Option α} {d : α} {held : Bool} (hd : o = some d) (hheld : held = false) :
    ¬ (o = none ∨ held = true) := by
  rw [hd, hheld]
  simp

/-- A CTRL request that is not held is alone. -/
theorem solePort_of_ctrl {d : BitVec 2} (hd : sig.ctrl = some d) (hheld : hold.getLsbD 0 = false) :
    solePort sig hold = some 0 := by
  have hpresent := not_absent_or_held hd hheld
  rcases solePort_cases sig hold with ⟨h, -⟩ | ⟨-, -, -, h⟩ | ⟨-, h, -⟩
  · exact h
  · exact absurd h hpresent
  · exact absurd h hpresent

/-- A CFG request that is not held is alone where CTRL is absent or held. -/
theorem solePort_of_cfg {d : BitVec P.CFG_W} (hd : sig.cfg = some d) (hheld : hold.getLsbD 1 = false)
    (hctrl : sig.ctrl = none ∨ hold.getLsbD 0 = true) : solePort sig hold = some 1 := by
  rcases solePort_cases sig hold with ⟨-, ⟨e, he⟩, h⟩ | ⟨h, -⟩ | ⟨-, -, h⟩
  · exact absurd hctrl (not_absent_or_held he h)
  · exact h
  · exact absurd h (not_absent_or_held hd hheld)

/-- Where CTRL and CFG are each absent or held, no port is alone. -/
theorem solePort_of_neither (hctrl : sig.ctrl = none ∨ hold.getLsbD 0 = true)
    (hcfg : sig.cfg = none ∨ hold.getLsbD 1 = true) : solePort sig hold = none := by
  rcases solePort_cases sig hold with ⟨-, ⟨e, he⟩, h⟩ | ⟨-, ⟨e, he⟩, h, -⟩ | ⟨h, -⟩
  · exact absurd hctrl (not_absent_or_held he h)
  · exact absurd hcfg (not_absent_or_held he h)
  · exact h

/-- An open CFG port with a request is alone. -/
theorem solePort_of_cfg_open {d : BitVec P.CFG_W} (hd : sig.cfg = some d) (hopen : portOpen sig hold 1 = true) :
    solePort sig hold = some 1 := by
  rcases solePort_cases sig hold with ⟨h, -⟩ | ⟨h, -⟩ | ⟨-, -, h⟩
  · exact absurd hopen (by rw [portOpen_of_sole_ne h (by decide)]; exact Bool.false_ne_true)
  · exact h
  · exact absurd h (not_absent_or_held hd (not_held_of_open hopen))

/-! ### The answer of a ready operation (R181 to R185, R120, R141 to R143, R161 to R163) -/

theorem applyOp_ctrl_resp {i : Instr P} (h : i.chan = 0) (s : State P) : (applyOp i s).resp = .code .ok := by
  cases i with
  | ctrlNop | encClr | decClr | allClr => rfl
  | cfgClear | cfgCode | cfgNode | cfgRoot | encPut | encEnd | encPop | decBit | decEnd | decPop | statRd =>
    simp [Instr.chan] at h

theorem encPut_resp_of_ready {sym : Symbol P} (h : ready (.encPut sym) s = true) :
    (applyOp (.encPut sym) s).resp = .code (if s.enc.fault ≠ .none then .errFaulted
      else if (ctRead s.mem sym).len = 0#P.LEN_W then .errUnknownSymbol else .ok) := by
  rcases encPut_cases sym s with ⟨hf, he⟩ | ⟨hf, hl, he⟩ | ⟨-, -, -, he⟩ | ⟨hf, hl, -, he⟩
  · simp [he, hf]
  · simp [he, hf, hl]
  · exact absurd (by rw [he]; rfl) (applyOp_resp_of_ready h)
  · simp [he, hf, hl]

theorem encEnd_resp_of_ready (h : ready .encEnd s = true) :
    (applyOp .encEnd s).resp = .code (if s.enc.fault ≠ .none then .errFaulted else .ok) := by
  rcases encEnd_cases s with ⟨hf, he⟩ | ⟨-, -, he⟩ | ⟨hf, -, he⟩
  · simp [he, hf]
  · exact absurd (by rw [he]; rfl) (applyOp_resp_of_ready h)
  · simp [he, hf]

theorem enterChild_resp (c : Handle P) (s : State P) :
    (enterChild c s).resp =
      .code (if (tnRead s.mem c).kind = .leaf ∨ (tnRead s.mem c).kind = .internal then .ok else .errBadTree) := by
  rcases enterChild_cases c s with ⟨hk, he⟩ | ⟨hk, he⟩ | ⟨hk | hk, he⟩ <;> simp [he, hk]

theorem decBit_resp_of_ready {bit : Bool} (h : ready (.decBit bit) s = true) :
    (applyOp (.decBit bit) s).resp = .code (if s.dec.fault ≠ .none then .errFaulted
      else if (tnRead s.mem (decPosition s)).kind ≠ .internal then .errBadTree
      else if (tnRead s.mem ((tnRead s.mem (decPosition s)).child bit)).kind = .leaf ∨
        (tnRead s.mem ((tnRead s.mem (decPosition s)).child bit)).kind = .internal then .ok else .errBadTree) := by
  rcases decBit_cases bit s with ⟨hf, he⟩ | ⟨-, -, he⟩ | ⟨hf, -, hk, he⟩ | ⟨hf, -, hk, he⟩
  · simp [he, hf]
  · exact absurd (by rw [he]; rfl) (applyOp_resp_of_ready h)
  · simp [he, hf, hk]
  · rw [he, enterChild_resp, openDec_mem, if_neg (not_not.2 hf), if_neg (not_not.2 hk)]

theorem decEnd_resp_of_ready (h : ready .decEnd s = true) :
    (applyOp .decEnd s).resp = .code (if s.dec.fault ≠ .none then .errFaulted
      else if s.dec.mid then .errTruncatedStream else .ok) := by
  rcases decEnd_cases s with ⟨hf, he⟩ | ⟨-, -, he⟩ | ⟨hf, -, hm, he⟩ | ⟨hf, -, hm, he⟩
  · simp [he, hf]
  · exact absurd (by rw [he]; rfl) (applyOp_resp_of_ready h)
  · simp [he, hf, hm]
  · simp [he, hf, hm]

/-- The operations of the ports that carry `resp` are answered with a response code (R91). -/
theorem applyOp_resp_code {i : Instr P} (hi : i.chan = 0 ∨ i.chan = 1 ∨ i.chan = 2 ∨ i.chan = 4) (h : ready i s = true) :
    ∃ c, (applyOp i s).resp = .code c := by
  cases i with
  | ctrlNop | encClr | decClr | allClr => exact ⟨.ok, rfl⟩
  | cfgClear => rcases cfgClear_cases s with ⟨-, he⟩ | ⟨-, -, he⟩ <;> exact ⟨_, by rw [he]; rfl⟩
  | cfgCode sym len code => rcases cfgCode_cases sym len code s with ⟨-, he⟩ | ⟨-, he⟩ <;> exact ⟨_, by rw [he]; rfl⟩
  | cfgNode k kind left right sym =>
    rcases cfgNode_cases k kind left right sym s with ⟨-, he⟩ | ⟨-, he⟩ <;> exact ⟨_, by rw [he]; rfl⟩
  | cfgRoot r => rcases cfgRoot_cases r s with ⟨-, he⟩ | ⟨-, he⟩ <;> exact ⟨_, by rw [he]; rfl⟩
  | encPut sym => exact ⟨_, encPut_resp_of_ready h⟩
  | encEnd => exact ⟨_, encEnd_resp_of_ready h⟩
  | decBit bit => exact ⟨_, decBit_resp_of_ready h⟩
  | decEnd => exact ⟨_, decEnd_resp_of_ready h⟩
  | encPop | decPop | statRd => simp [Instr.chan] at hi

theorem Response.respBits_eq_some {r : Response P} {v : BitVec 3} : r.respBits = some v ↔ ∃ c, r = .code c ∧ v = c.toBits := by
  cases r <;> simp [Response.respBits, eq_comm]

/-! ### What is accepted, and what the block drives (R91, R93) -/

/-- A transfer is accepted when the host drives it, its port is open and its operation is ready. -/
theorem mem_acceptedAtEdge_iff {t : TWord P} :
    t ∈ acceptedAtEdge sig hold s ↔ t ∈ drivenTransfers sig ∧
      ∃ i, decode t = .ok i ∧ portOpen sig hold (chanOf t) = true ∧ ready i s = true := by
  simp only [mem_acceptedAtEdge, Option.isSome_iff_exists, answerAtEdge_eq_some]
  constructor
  · rintro ⟨hd, r, i, hi, hopen, hr, -⟩
    exact ⟨hd, i, hi, hopen, hr⟩
  · rintro ⟨hd, i, hi, hopen, hr⟩
    exact ⟨hd, _, i, hi, hopen, hr, rfl⟩

section Request

variable {n : Nat} {o : Option (BitVec n)} {c : BitVec 3} {β : Type} {f : Response P → Option β}

/-- What the block drives on an input port that carries the request `o`: what `f` reads off its answer. -/
theorem request_answered {v : β} :
    ((o.bind fun d => answerAtEdge sig hold s (wordOf d c)).bind f = some v) ↔
      ∃ d i, o = some d ∧ decode (wordOf d c : TWord P) = .ok i ∧ portOpen sig hold c = true ∧ ready i s = true ∧
        f (applyOp i s).resp = some v := by
  simp only [Option.bind_eq_some_iff, answerAtEdge_eq_some, chanOf_wordOf]
  constructor
  · rintro ⟨r, ⟨d, ho, i, hi, hopen, hr, rfl⟩, hf⟩
    exact ⟨d, i, ho, hi, hopen, hr, hf⟩
  · rintro ⟨d, i, ho, hi, hopen, hr, hf⟩
    exact ⟨_, ⟨d, ho, i, hi, hopen, hr, rfl⟩, hf⟩

/-- The block's side of the handshake of a closed input port is 0. -/
theorem request_of_closed (h : portOpen sig hold c = false) :
    (o.bind fun d => answerAtEdge sig hold s (wordOf d c)).bind f = none := by
  rw [Option.eq_none_iff_forall_ne_some]
  intro v hv
  obtain ⟨-, -, -, -, hopen, -⟩ := request_answered.1 hv
  exact Bool.false_ne_true (h.symm.trans hopen)

/-- On an input port a request is accepted exactly when both sides of its handshake are 1. -/
theorem request_accepted_iff (hdriven : ∀ d, wordOf d c ∈ drivenTransfers sig ↔ o = some d)
    (hanswer : ∀ i, i.chan = c → ready i s = true → ∃ v, f (applyOp i s).resp = some v) (d : BitVec n) :
    wordOf d c ∈ acceptedAtEdge sig hold s ↔
      o = some d ∧ (o.bind fun d => answerAtEdge sig hold s (wordOf d c)).bind f ≠ none := by
  rw [mem_acceptedAtEdge_iff, hdriven, chanOf_wordOf, Option.ne_none_iff_exists']
  simp only [request_answered]
  constructor
  · rintro ⟨ho, i, hi, hopen, hr⟩
    obtain ⟨v, hv⟩ := hanswer i ((chan_of_decode hi).trans (chanOf_wordOf _ _)) hr
    exact ⟨ho, v, d, i, ho, hi, hopen, hr, hv⟩
  · rintro ⟨ho, -, e, i, ho', hi, hopen, hr, -⟩
    obtain rfl := Option.some.inj (ho.symm.trans ho')
    exact ⟨ho, i, hi, hopen, hr⟩

/-- On a port that carries `resp`, a request is accepted exactly when both sides of its handshake are 1. -/
theorem codeRequest_accepted_iff (hdriven : ∀ d, wordOf d c ∈ drivenTransfers sig ↔ o = some d)
    (hc : c = 0 ∨ c = 1 ∨ c = 2 ∨ c = 4) (d : BitVec n) :
    wordOf d c ∈ acceptedAtEdge sig hold s ↔
      o = some d ∧ (o.bind fun d => answerAtEdge sig hold s (wordOf d c)).bind Response.respBits ≠ none := by
  refine request_accepted_iff hdriven (fun i hi hr => ?_) d
  obtain ⟨code, hcode⟩ := applyOp_resp_code (hi ▸ hc) hr
  exact ⟨code.toBits, by rw [hcode]; rfl⟩

/-- On such a port the block drives the response code of the request's operation. -/
theorem codeRequest_value {d : BitVec n} {i : Instr P} {v : BitVec 3} (ho : o = some d)
    (hi : decode (wordOf d c : TWord P) = .ok i)
    (hv : (o.bind fun d => answerAtEdge sig hold s (wordOf d c)).bind Response.respBits = some v) :
    ∃ code, (applyOp i s).resp = .code code ∧ v = code.toBits := by
  obtain ⟨e, j, ho', hj, -, -, hresp⟩ := request_answered.1 hv
  obtain rfl := Option.some.inj (ho.symm.trans ho')
  obtain rfl := Except.ok.inj (hi.symm.trans hj)
  exact Response.respBits_eq_some.1 hresp

end Request

/-- STAT_RD is ready and answered with the register in every state (R185). -/
theorem statRequest_accepted_iff (d : BitVec 4) :
    wordOf d 6 ∈ acceptedAtEdge sig hold s ↔ sig.stat = some d ∧ (portOutputs sig hold s).stat ≠ none := by
  obtain ⟨-, -, -, -, -, -, hdriven⟩ := wordOf_mem_drivenTransfers sig
  refine request_accepted_iff hdriven (fun i hi _ => ?_) d
  cases i with
  | statRd idx => exact ⟨_, rfl⟩
  | ctrlNop | encClr | decClr | allClr | cfgClear | cfgCode | cfgNode | cfgRoot | encPut | encEnd | encPop | decBit | decEnd
  | decPop => simp [Instr.chan] at hi

/-- A pop is accepted exactly when the host takes a word and the block offers the head of the FIFO. -/
theorem encPop_accepted_iff :
    wordOf 0#0 3 ∈ acceptedAtEdge sig hold s ↔ sig.wordOut = true ∧ (portOutputs sig hold s).wordOut ≠ none := by
  obtain ⟨-, -, -, hdriven, -⟩ := wordOf_mem_drivenTransfers sig
  rw [mem_acceptedAtEdge_iff, hdriven, chanOf_wordOf, decode_wordOf_encPop]
  simp [portOutputs, wordOutData, ready, EncUnit.qEmpty]

/-- A pop is accepted exactly when the host takes a symbol and the block offers the head of the decoder's queue. -/
theorem decPop_accepted_iff :
    wordOf 0#0 5 ∈ acceptedAtEdge sig hold s ↔ sig.symOut = true ∧ (portOutputs sig hold s).symOut ≠ none := by
  obtain ⟨-, -, -, -, -, hdriven, -⟩ := wordOf_mem_drivenTransfers sig
  rw [mem_acceptedAtEdge_iff, hdriven, chanOf_wordOf, decode_wordOf_decPop]
  simp [portOutputs, symOutData, ready, DecUnit.qEmpty]

theorem wordOut_value {v : BitVec (1 + P.VB_W + P.WORD_W)} (h : (portOutputs sig hold s).wordOut = some v) :
    ∃ e, s.enc.q.head? = some e ∧ v = e.toBits := by
  simp only [portOutputs, wordOutData, Option.ite_none_right_eq_some, Option.map_eq_some_iff] at h
  obtain ⟨-, e, he, hv⟩ := h
  exact ⟨e, he, hv.symm⟩

theorem symOut_value {v : BitVec (1 + 1 + P.SYM_W)} (h : (portOutputs sig hold s).symOut = some v) :
    ∃ e, s.dec.q.head? = some e ∧ v = e.toBits := by
  simp only [portOutputs, symOutData, Option.ite_none_right_eq_some, Option.map_eq_some_iff] at h
  obtain ⟨-, e, he, hv⟩ := h
  exact ⟨e, he, hv.symm⟩

/-- The block's side of the handshake is 0 on every closed port. -/
theorem portOutputs_of_closed (sig : PortSignals P) (hold : BitVec 7) (s : State P) :
    (portOpen sig hold 0 = false → (portOutputs sig hold s).ctrl = none) ∧
    (portOpen sig hold 1 = false → (portOutputs sig hold s).cfg = none) ∧
    (portOpen sig hold 2 = false → (portOutputs sig hold s).symIn = none) ∧
    (portOpen sig hold 3 = false → (portOutputs sig hold s).wordOut = none) ∧
    (portOpen sig hold 4 = false → (portOutputs sig hold s).bitIn = none) ∧
    (portOpen sig hold 5 = false → (portOutputs sig hold s).symOut = none) ∧
    (portOpen sig hold 6 = false → (portOutputs sig hold s).stat = none) :=
  ⟨request_of_closed, request_of_closed, request_of_closed, fun h => if_neg (ne_true_of_eq_false h),
    request_of_closed, fun h => if_neg (ne_true_of_eq_false h), request_of_closed⟩

/-- What is driven is equal when it is on every port. -/
theorem PortOutputs.ext_fields {a b : PortOutputs P} (hctrl : a.ctrl = b.ctrl) (hcfg : a.cfg = b.cfg)
    (hsymIn : a.symIn = b.symIn) (hwordOut : a.wordOut = b.wordOut) (hbitIn : a.bitIn = b.bitIn)
    (hsymOut : a.symOut = b.symOut) (hstat : a.stat = b.stat) : a = b := by
  cases a
  cases b
  simp_all

/-- While CTRL is answered the block's side of every other handshake is 0 (R70). -/
theorem portOutputs_of_ctrl (h : (portOutputs sig hold s).ctrl ≠ none) :
    portOutputs sig hold s = ⟨(portOutputs sig hold s).ctrl, none, none, none, none, none, none⟩ := by
  obtain ⟨v, hv⟩ := Option.ne_none_iff_exists'.1 h
  obtain ⟨d, -, hd, -, hopen, -⟩ := request_answered.1 hv
  have closed (c : BitVec 3) (hne : c ≠ 0) := portOpen_of_sole_ne (solePort_of_ctrl hd (not_held_of_open hopen)) hne
  obtain ⟨-, hcfg, hsymIn, hwordOut, hbitIn, hsymOut, hstat⟩ := portOutputs_of_closed sig hold s
  exact PortOutputs.ext_fields rfl (hcfg (closed 1 (by decide))) (hsymIn (closed 2 (by decide)))
    (hwordOut (closed 3 (by decide))) (hbitIn (closed 4 (by decide))) (hsymOut (closed 5 (by decide)))
    (hstat (closed 6 (by decide)))

/-- While CFG is answered the block's side of every other handshake is 0 (R70). -/
theorem portOutputs_of_cfg (h : (portOutputs sig hold s).cfg ≠ none) :
    portOutputs sig hold s = ⟨none, (portOutputs sig hold s).cfg, none, none, none, none, none⟩ := by
  obtain ⟨v, hv⟩ := Option.ne_none_iff_exists'.1 h
  obtain ⟨d, -, hd, -, hopen, -⟩ := request_answered.1 hv
  have closed (c : BitVec 3) (hne : c ≠ 1) := portOpen_of_sole_ne (solePort_of_cfg_open hd hopen) hne
  obtain ⟨hctrl, -, hsymIn, hwordOut, hbitIn, hsymOut, hstat⟩ := portOutputs_of_closed sig hold s
  exact PortOutputs.ext_fields (hctrl (closed 0 (by decide))) rfl (hsymIn (closed 2 (by decide)))
    (hwordOut (closed 3 (by decide))) (hbitIn (closed 4 (by decide))) (hsymOut (closed 5 (by decide)))
    (hstat (closed 6 (by decide)))

/-! ### The mask of the accepted ports -/

theorem foldl_portMask_getLsbD {ts : List (TWord P)} (h : ∀ w ∈ ts, (chanOf w).toNat < 7) (m : BitVec 7) (p : Nat) :
    (ts.foldl (fun m t => m ||| BitVec.ofNat 7 (2 ^ (chanOf t).toNat)) m).getLsbD p = true ↔
      m.getLsbD p = true ∨ ∃ w ∈ ts, (chanOf w).toNat = p := by
  induction ts generalizing m with
  | nil => simp
  | cons w ts ih =>
    obtain ⟨hw, hts⟩ := List.forall_mem_cons.1 h
    have hbit : (BitVec.ofNat 7 (2 ^ (chanOf w).toNat)).getLsbD p = true ↔ (chanOf w).toNat = p := by
      rw [BitVec.getLsbD_ofNat, Nat.testBit_two_pow, Bool.and_eq_true, decide_eq_true_iff, decide_eq_true_iff]
      omega
    rw [List.foldl_cons, ih hts, BitVec.getLsbD_or, Bool.or_eq_true, hbit, or_assoc, List.exists_mem_cons_iff]

theorem portMask_getLsbD {ts : List (TWord P)} (h : ∀ w ∈ ts, (chanOf w).toNat < 7) (p : Nat) :
    (portMask ts).getLsbD p = true ↔ ∃ w ∈ ts, (chanOf w).toNat = p := by
  rw [portMask, foldl_portMask_getLsbD h]
  simp

theorem decode_of_accepted {w : TWord P} (h : w ∈ acceptedAtEdge sig hold s) : ∃ i, decode w = .ok i := by
  obtain ⟨-, i, hi, -⟩ := mem_acceptedAtEdge_iff.1 h
  exact ⟨i, hi⟩

/-- The mask of an edge has exactly the accepted ports. -/
theorem acceptedMask_getLsbD (p : Nat) :
    (portMask (acceptedAtEdge sig hold s)).getLsbD p = true ↔ ∃ w ∈ acceptedAtEdge sig hold s, (chanOf w).toNat = p := by
  refine portMask_getLsbD (fun w hw => ?_) p
  obtain ⟨i, hi⟩ := decode_of_accepted hw
  exact chanOf_toNat_lt hi

/-! ### The step of an edge -/

/-- An edge puts the accepted transfers before what the host does next, and answers what the block drove. -/
theorem step_edge {sig : PortSignals} {s : State} {rest : List HostEvent} (hev : s.events = .edge sig hold :: rest) :
    step s = .next ((edgeStart sig hold s).withEvents ((acceptedAtEdge sig hold s).map HostEvent.offer ++ rest)) := by
  have hstep : step s = .next (clockEdge sig hold (s.withEvents rest)) := by
    simp only [step, stepWith, hev]
    rfl
  rw [hstep, clockEdge, acceptedAtEdge_withEvents, portOutputs_withEvents]
  rfl

/-- Settles O59: port by port, what `portOutputs` drives is there exactly for the accepted transfers. -/
theorem transferIsValidAndReady : Obligations.TransferIsValidAndReady := by
  unfold Obligations.TransferIsValidAndReady
  intro sig hold s rest hev
  obtain ⟨hctrl, hcfg, hsymIn, -, hbitIn, -⟩ := wordOf_mem_drivenTransfers sig
  obtain ⟨cctrl, ccfg, csymIn, cwordOut, cbitIn, csymOut, cstat⟩ := portOutputs_of_closed sig hold s
  have of_code {n : Nat} {o : Option (BitVec n)} {c : BitVec 3} (d : BitVec n) (i : Instr) (u : State) (v : BitVec 3)
      (ho : o = some d) (hi : decode (wordOf d c) = .ok i) (hu : exec i s = .next u)
      (hv : (o.bind fun d => answerAtEdge sig hold s (wordOf d c)).bind Response.respBits = some v) :
      ∃ code, u.resp = .code code ∧ v = code.toBits := by
    rw [← exec_eq_next_iff.1 hu]
    exact codeRequest_value ho hi hv
  refine ⟨_, portOutputs sig hold s, portMask (acceptedAtEdge sig hold s), step_edge hev, rfl, acceptedMask_getLsbD,
    ⟨codeRequest_accepted_iff hctrl (by simp), codeRequest_accepted_iff hcfg (by simp),
      codeRequest_accepted_iff hsymIn (by simp), encPop_accepted_iff, codeRequest_accepted_iff hbitIn (by simp),
      decPop_accepted_iff, statRequest_accepted_iff⟩,
    ⟨fun v hv => ?_, of_code, of_code, fun _ => wordOut_value, of_code, fun _ => symOut_value, fun d v hd hv => ?_⟩,
    ⟨fun h => cctrl (portOpen_of_held h), fun h => ccfg (portOpen_of_held h), fun h => csymIn (portOpen_of_held h),
      fun h => cwordOut (portOpen_of_held h), fun h => cbitIn (portOpen_of_held h), fun h => csymOut (portOpen_of_held h),
      fun h => cstat (portOpen_of_held h)⟩, portOutputs_of_ctrl, portOutputs_of_cfg⟩
  · obtain ⟨d, i, -, hi, -, -, hresp⟩ := request_answered.1 hv
    rw [applyOp_ctrl_resp ((chan_of_decode hi).trans (chanOf_wordOf _ _))] at hresp
    exact (Option.some.inj hresp).symm
  · obtain ⟨e, i, he, hi, -, -, hresp⟩ := request_answered.1 hv
    obtain rfl := Option.some.inj (hd.symm.trans he)
    obtain rfl := Except.ok.inj ((decode_encode (.statRd d)).symm.trans hi)
    exact (Option.some.inj hresp).symm

end Sys2Proof.Machine
end


section
/-! PROOFS. The transfers of one edge as operations performed one after another (R70): CTRL or CFG alone, the others in an order in
which no operation takes readiness or its answer from a later one. -/

namespace Sys2Proof.Machine

open Sys2Proof

variable {P : Params} {sig : PortSignals P} {hold : BitVec 7} {s t : State P} {i j : Instr P}

/-! ### The order of the accepted transfers (R70) -/

/-- The driven transfers stand in the order CTRL, CFG, STATUS, WORD_OUT, SYM_OUT, SYM_IN, BIT_IN. -/
theorem chanOf_drivenTransfers_sublist (sig : PortSignals P) :
    ((drivenTransfers sig).map chanOf).Sublist [0, 1, 6, 3, 5, 2, 4] := by
  have request {n : Nat} (o : Option (BitVec n)) (c : BitVec 3) :
      ((o.map fun d => (wordOf d c : TWord P)).toList.map chanOf).Sublist [c] := by
    cases o <;> simp
  have pop (b : Bool) (c : BitVec 3) : ((if b then [(wordOf 0#0 c : TWord P)] else []).map chanOf).Sublist [c] := by
    cases b <;> simp
  simp only [drivenTransfers, List.map_append]
  exact ((((((request _ 0).append (request _ 1)).append (request _ 6)).append (pop _ 3)).append (pop _ 5)).append
    (request _ 2)).append (request _ 4)

theorem chanOf_acceptedAtEdge_sublist (sig : PortSignals P) (hold : BitVec 7) (s : State P) :
    ((acceptedAtEdge sig hold s).map chanOf).Sublist [0, 1, 6, 3, 5, 2, 4] :=
  (List.filter_sublist.map chanOf).trans (chanOf_drivenTransfers_sublist sig)

theorem acceptedAtEdge_nodup (sig : PortSignals P) (hold : BitVec 7) (s : State P) : (acceptedAtEdge sig hold s).Nodup :=
  ((chanOf_acceptedAtEdge_sublist sig hold s).nodup (by decide)).of_map

/-- The transfer of the port that is alone is accepted alone. -/
theorem acceptedAtEdge_of_sole {w : TWord P} (hsole : solePort sig hold = some (chanOf w)) (hw : w ∈ acceptedAtEdge sig hold s) :
    acceptedAtEdge sig hold s = [w] := by
  have only {v : TWord P} (hv : v ∈ acceptedAtEdge sig hold s) : v = w := by
    obtain ⟨hdv, -, -, hopen, -⟩ := mem_acceptedAtEdge_iff.1 hv
    refine drivenTransfers_unique hdv (mem_acceptedAtEdge_iff.1 hw).1 ?_
    by_contra hne
    exact Bool.false_ne_true ((portOpen_of_sole_ne hsole hne).symm.trans hopen)
  refine List.perm_singleton.1 ((List.perm_ext_iff_of_nodup (acceptedAtEdge_nodup sig hold s) (List.nodup_singleton w)).2 ?_)
  exact fun v => ⟨fun hv => List.mem_singleton.2 (only hv), fun hv => List.mem_singleton.1 hv ▸ hw⟩

/-- A CTRL or CFG operation is ready in every state (R120, R180). -/
theorem ready_of_ctrl_or_cfg (h : i.chan = 0 ∨ i.chan = 1) (s : State P) : ready i s = true := by
  cases i with
  | ctrlNop | encClr | decClr | allClr | cfgClear | cfgCode | cfgNode | cfgRoot => rfl
  | encPut | encEnd | encPop | decBit | decEnd | decPop | statRd => simp [Instr.chan] at h

/-- A driven CTRL or CFG transfer whose port is alone and not held is the one accepted. -/
theorem acceptedAtEdge_of_ctrl_or_cfg {w : TWord P} (hdec : decode w = .ok i) (hchan : chanOf w = 0 ∨ chanOf w = 1)
    (hdriven : w ∈ drivenTransfers sig) (hsole : solePort sig hold = some (chanOf w))
    (hheld : hold.getLsbD (chanOf w).toNat = false) : acceptedAtEdge sig hold s = [w] := by
  rw [← chan_of_decode hdec] at hchan
  exact acceptedAtEdge_of_sole hsole
    (mem_acceptedAtEdge_iff.2 ⟨hdriven, i, hdec, portOpen_of_sole hsole hheld, ready_of_ctrl_or_cfg hchan s⟩)

/-- A CTRL transfer that is not held is accepted alone. -/
theorem acceptedAtEdge_of_ctrl {d : BitVec 2} (hd : sig.ctrl = some d) (hheld : hold.getLsbD 0 = false) :
    acceptedAtEdge sig hold s = [wordOf d 0] := by
  obtain ⟨hdriven, -⟩ := wordOf_mem_drivenTransfers sig
  refine acceptedAtEdge_of_ctrl_or_cfg (decode_wordOf_ctrl d) (.inl (chanOf_wordOf d 0)) ((hdriven d).2 hd) ?_ ?_ <;>
    rw [chanOf_wordOf]
  · exact solePort_of_ctrl hd hheld
  · exact hheld

/-- A CFG transfer that is not held is accepted alone where CTRL is absent or held. -/
theorem acceptedAtEdge_of_cfg {d : BitVec P.CFG_W} (hd : sig.cfg = some d) (hheld : hold.getLsbD 1 = false)
    (hctrl : sig.ctrl = none ∨ hold.getLsbD 0 = true) : acceptedAtEdge sig hold s = [wordOf d 1] := by
  obtain ⟨-, hdriven, -⟩ := wordOf_mem_drivenTransfers sig
  refine acceptedAtEdge_of_ctrl_or_cfg (decode_wordOf_cfg d) (.inr (chanOf_wordOf d 1)) ((hdriven d).2 hd) ?_ ?_ <;>
    rw [chanOf_wordOf]
  · exact solePort_of_cfg hd hheld hctrl
  · exact hheld

/-- With CTRL and CFG each absent or held, the accepted transfers are of the other five ports, in their order. -/
theorem chanOf_acceptedAtEdge_of_no_sole (hsole : solePort sig hold = none) :
    ((acceptedAtEdge sig hold s).map chanOf).Sublist [6, 3, 5, 2, 4] := by
  have shared {c : BitVec 3} (hc : c ∈ (acceptedAtEdge sig hold s).map chanOf) : (c != 0 && c != 1) = true := by
    obtain ⟨w, hw, rfl⟩ := List.mem_map.1 hc
    obtain ⟨hdriven, i, -, hopen, -⟩ := mem_acceptedAtEdge_iff.1 hw
    rw [mem_drivenTransfers] at hdriven
    rcases hdriven with ⟨d, hd, rfl⟩ | ⟨d, hd, rfl⟩ | ⟨d, -, rfl⟩ | ⟨-, rfl⟩ | ⟨-, rfl⟩ | ⟨d, -, rfl⟩ | ⟨d, -, rfl⟩ <;>
      rw [chanOf_wordOf] at *
    · cases hsole.symm.trans (solePort_of_ctrl hd (not_held_of_open hopen))
    · cases hsole.symm.trans (solePort_of_cfg_open hd hopen)
    all_goals rfl
  have h := (chanOf_acceptedAtEdge_sublist sig hold s).filter (fun c => c != 0 && c != 1)
  rwa [List.filter_eq_self.2 fun c => shared] at h

/-- The accepted transfers are one of CTRL, one of CFG, or some of the other five ports, in their order. -/
theorem chanOf_acceptedAtEdge_cases (sig : PortSignals P) (hold : BitVec 7) (s : State P) :
    (acceptedAtEdge sig hold s).map chanOf = [0] ∨ (acceptedAtEdge sig hold s).map chanOf = [1] ∨
      ((acceptedAtEdge sig hold s).map chanOf).Sublist [6, 3, 5, 2, 4] := by
  rcases solePort_cases sig hold with ⟨-, ⟨d, hd⟩, hheld⟩ | ⟨-, ⟨d, hd⟩, hheld, hctrl⟩ | ⟨hsole, -⟩
  · exact .inl (by rw [acceptedAtEdge_of_ctrl hd hheld, List.map_singleton, chanOf_wordOf])
  · exact .inr (.inl (by rw [acceptedAtEdge_of_cfg hd hheld hctrl, List.map_singleton, chanOf_wordOf]))
  · exact .inr (.inr (chanOf_acceptedAtEdge_of_no_sole hsole))

/-! ### An operation after those before it in the order (R70) -/

/-- The port `c` stands before the port `d` in the order of the ports that share an edge. -/
abbrev Before (c d : BitVec 3) : Prop := [c, d].Sublist [6, 3, 5, 2, 4]

/-- Which ports stand before which. -/
theorem before_iff {c d : BitVec 3} :
    Before c d ↔ (d = 3 ∧ c = 6) ∨ (d = 5 ∧ (c = 6 ∨ c = 3)) ∨ (d = 2 ∧ (c = 6 ∨ c = 3 ∨ c = 5)) ∨
      (d = 4 ∧ (c = 6 ∨ c = 3 ∨ c = 5 ∨ c = 2)) := by
  revert c d
  decide

theorem acceptedAtEdge_pairwise_before (sig : PortSignals P) (hold : BitVec 7) (s : State P) :
    ((acceptedAtEdge sig hold s).map chanOf).Pairwise Before := by
  rcases chanOf_acceptedAtEdge_cases sig hold s with h | h | h
  · rw [h]
    exact List.pairwise_singleton _ _
  · rw [h]
    exact List.pairwise_singleton _ _
  · exact List.pairwise_iff_forall_sublist.2 fun hcd => hcd.trans h

/-- In `t` the operation `i` is ready and answered as in `s`. -/
def AnsweredAlike (i : Instr P) (s t : State P) : Prop := ready i t = true ∧ (applyOp i t).resp = (applyOp i s).resp

/-- A port-2 operation is answered alike after entries have left the FIFO. -/
theorem symIn_answeredAlike (hi : i.chan = 2) (hr : ready i s = true) (hinv : s.enc.Inv) (hm : t.mem = s.mem)
    (he : t.enc = { s.enc with q := t.enc.q }) (hle : t.enc.q.length ≤ s.enc.q.length) : AnsweredAlike i s t := by
  obtain ⟨-, hdepth, -⟩ := hinv
  have hf : t.enc.fault = s.enc.fault := by rw [he]
  have hacc : t.enc.acc = s.enc.acc := by rw [he]
  cases i with
  | encPut sym =>
    have hready : ready (.encPut sym) t = true := by
      simp only [ready, hf, hm, wordsCompleted, hacc, Bool.or_eq_true, decide_eq_true_iff] at hr ⊢
      exact hr.imp_right fun h => (of_decide_eq_true h).trans (Nat.sub_le_sub_left hle _)
    exact ⟨hready, by rw [encPut_resp_of_ready hready, encPut_resp_of_ready hr, hf, hm]⟩
  | encEnd =>
    have hready : ready .encEnd t = true := by
      simp only [ready, hf, EncUnit.qFull, Bool.or_eq_true, Bool.not_eq_true', beq_eq_false_iff_ne] at hr ⊢
      exact hr.imp_right fun h => by omega
    exact ⟨hready, by rw [encEnd_resp_of_ready hready, encEnd_resp_of_ready hr, hf]⟩
  | ctrlNop | encClr | decClr | allClr | cfgClear | cfgCode | cfgNode | cfgRoot | encPop | decBit | decEnd | decPop | statRd =>
    simp [Instr.chan] at hi

/-- A port-4 operation is answered alike after entries have left the decoder's queue. -/
theorem bitIn_answeredAlike (hi : i.chan = 4) (hr : ready i s = true) (hinv : s.dec.Inv) (hm : t.mem = s.mem)
    (hd : t.dec = { s.dec with q := t.dec.q }) (hle : t.dec.q.length ≤ s.dec.q.length) : AnsweredAlike i s t := by
  obtain ⟨hdepth, -⟩ := hinv
  have hf : t.dec.fault = s.dec.fault := by rw [hd]
  have hmid : t.dec.mid = s.dec.mid := by rw [hd]
  have hcur : t.dec.cur = s.dec.cur := by rw [hd]
  have hpos : decPosition t = decPosition s := by rw [decPosition, decPosition, hmid, hcur, hm]
  have room (hs : (s.dec.fault != .none || !s.dec.qFull) = true) : (t.dec.fault != .none || !t.dec.qFull) = true := by
    simp only [hf, DecUnit.qFull, Bool.or_eq_true, Bool.not_eq_true', beq_eq_false_iff_ne] at hs ⊢
    exact hs.imp_right fun h => by omega
  cases i with
  | decBit bit =>
    have hready : ready (.decBit bit) t = true := room hr
    exact ⟨hready, by rw [decBit_resp_of_ready hready, decBit_resp_of_ready hr, hf, hpos, hm]⟩
  | decEnd =>
    have hready : ready .decEnd t = true := room hr
    exact ⟨hready, by rw [decEnd_resp_of_ready hready, decEnd_resp_of_ready hr, hf, hmid]⟩
  | ctrlNop | encClr | decClr | allClr | cfgClear | cfgCode | cfgNode | cfgRoot | encPut | encEnd | encPop | decPop | statRd =>
    simp [Instr.chan] at hi

/-- A pop of the FIFO is answered alike while the encoder stands. -/
theorem encPop_answeredAlike (hi : i.chan = 3) (hr : ready i s = true) (he : t.enc = s.enc) : AnsweredAlike i s t := by
  cases i with
  | encPop =>
    refine ⟨by rw [← hr, ready, ready, he], ?_⟩
    simp only [applyOp, perform, execEncPop, he]
    cases s.enc.q <;> rfl
  | ctrlNop | encClr | decClr | allClr | cfgClear | cfgCode | cfgNode | cfgRoot | encPut | encEnd | decBit | decEnd | decPop
  | statRd => simp [Instr.chan] at hi

/-- A pop of the decoder's queue is answered alike while the decoder stands. -/
theorem decPop_answeredAlike (hi : i.chan = 5) (hr : ready i s = true) (hd : t.dec = s.dec) : AnsweredAlike i s t := by
  cases i with
  | decPop =>
    refine ⟨by rw [← hr, ready, ready, hd], ?_⟩
    simp only [applyOp, perform, execDecPop, hd]
    cases s.dec.q <;> rfl
  | ctrlNop | encClr | decClr | allClr | cfgClear | cfgCode | cfgNode | cfgRoot | encPut | encEnd | encPop | decBit | decEnd
  | statRd => simp [Instr.chan] at hi

/-- STAT_RD writes no unit (R185). -/
theorem applyOp_stat_units (h : i.chan = 6) (s : State P) : (applyOp i s).enc = s.enc ∧ (applyOp i s).dec = s.dec := by
  cases i with
  | statRd => exact ⟨rfl, rfl⟩
  | ctrlNop | encClr | decClr | allClr | cfgClear | cfgCode | cfgNode | cfgRoot | encPut | encEnd | encPop | decBit | decEnd
  | decPop => simp [Instr.chan] at h

/-- STATUS and the output ports write no more of the encoder than its queue. -/
theorem applyOp_enc_but_queue (h : i.chan = 6 ∨ i.chan = 3 ∨ i.chan = 5) (s : State P) :
    (applyOp i s).enc = { s.enc with q := (applyOp i s).enc.q } := by
  cases i with
  | statRd => rfl
  | encPop => rw [applyOp_encPop_enc]
  | decPop => rw [applyOp_enc (by simp [Instr.chan])]
  | ctrlNop | encClr | decClr | allClr | cfgClear | cfgCode | cfgNode | cfgRoot | encPut | encEnd | decBit | decEnd =>
    simp [Instr.chan] at h

/-- STATUS, the output ports and SYM_IN write no more of the decoder than its queue. -/
theorem applyOp_dec_but_queue (h : i.chan = 6 ∨ i.chan = 3 ∨ i.chan = 5 ∨ i.chan = 2) (s : State P) :
    (applyOp i s).dec = { s.dec with q := (applyOp i s).dec.q } := by
  cases i with
  | statRd => rfl
  | decPop => rw [applyOp_decPop_dec]
  | encPut | encEnd | encPop => rw [applyOp_dec (by simp [Instr.chan])]
  | ctrlNop | encClr | decClr | allClr | cfgClear | cfgCode | cfgNode | cfgRoot | decBit | decEnd =>
    simp [Instr.chan] at h

/-- A ready operation stays ready, with the same answer, when one before it in the order is performed first. -/
theorem answeredAlike_after (hord : Before j.chan i.chan) (henc : s.enc.Inv) (hdec : s.dec.Inv) (hr : ready i s = true) :
    AnsweredAlike i s (applyOp j s) := by
  rcases before_iff.1 hord with ⟨hi, hj⟩ | ⟨hi, hj⟩ | ⟨hi, hj⟩ | ⟨hi, hj⟩
  · exact encPop_answeredAlike hi hr (applyOp_stat_units hj s).1
  · refine decPop_answeredAlike hi hr ?_
    rcases hj with hj | hj
    · exact (applyOp_stat_units hj s).2
    · exact applyOp_dec (.inr (.inr hj)) s
  · have hne : j.chan ≠ 1 ∧ j.chan ≠ 2 := by rcases hj with h | h | h <;> rw [h] <;> decide
    exact symIn_answeredAlike hi hr henc (applyOp_mem hne.1 s) (applyOp_enc_but_queue hj s) (encQueue_le hne.2 s)
  · have hne : j.chan ≠ 1 ∧ j.chan ≠ 4 := by rcases hj with h | h | h | h <;> rw [h] <;> decide
    exact bitIn_answeredAlike hi hr hdec (applyOp_mem hne.1 s) (applyOp_dec_but_queue hj s) (decQueue_le hne.2 s)

/-- Ready operations of different ports, performed in the order of R70, are all accepted, and answered as they would be at first. -/
theorem trace_of_pairwise_before {ops : List (Instr P)} (hord : (ops.map Instr.chan).Pairwise Before) (henc : s.enc.Inv)
    (hdec : s.dec.Inv) (hready : ∀ i ∈ ops, ready i s = true) :
    (∀ r ∈ trace ops s, r.accepted = true) ∧
      (trace ops s).map (fun r => r.after.resp) = ops.map (fun i => (applyOp i s).resp) := by
  induction ops generalizing s with
  | nil => exact ⟨by simp [trace], rfl⟩
  | cons j ops ih =>
    rw [List.map_cons, List.pairwise_cons] at hord
    obtain ⟨hj, hord⟩ := hord
    obtain ⟨hrj, hrops⟩ := List.forall_mem_cons.1 hready
    have alike (i : Instr P) (hi : i ∈ ops) : AnsweredAlike i s (applyOp j s) :=
      answeredAlike_after (hj _ (List.mem_map_of_mem hi)) henc hdec (hrops i hi)
    obtain ⟨hacc, hresp⟩ := ih hord (applyOp_keeps_enc_inv j henc) (applyOp_keeps_dec_inv j hdec) fun i hi => (alike i hi).1
    refine ⟨List.forall_mem_cons.2 ⟨(accepted_eq_ready j s).trans hrj, hacc⟩, ?_⟩
    rw [trace, List.map_cons, List.map_cons, hresp, List.map_congr_left fun i hi => (alike i hi).2]

/-! ### The cycle of an edge (R10, R70) -/

/-- What is read off every word of a list is read off their operations. -/
theorem map_eq_map_opsOf {β : Type} {f : TWord P → β} {g : Instr P → β} {ts : List (TWord P)}
    (h : ∀ w ∈ ts, ∃ i, decode w = .ok i ∧ f w = g i) : ts.map f = (opsOf ts).map g := by
  induction ts with
  | nil => rfl
  | cons w ts ih =>
    obtain ⟨⟨i, hi, hf⟩, hts⟩ := List.forall_mem_cons.1 h
    have hops : opsOf (w :: ts) = i :: opsOf ts := by simp [opsOf, hi, Except.toOption]
    rw [hops, List.map_cons, List.map_cons, hf, ih hts]

/-- Offers that spell operations are performed one after another, before what else the host does. -/
theorem run_core_offers {ts : List TWord} (h : ∀ w ∈ ts, ∃ i, decode w = .ok i) (u : State) :
    Host.Core.run Sys2Proof.core ts.length (u.withEvents (ts.map HostEvent.offer ++ u.events)) = .next (runOps (opsOf ts) u) := by
  induction ts generalizing u with
  | nil => rfl
  | cons w ts ih =>
    obtain ⟨⟨i, hi⟩, hts⟩ := List.forall_mem_cons.1 h
    have hops : opsOf (w :: ts) = i :: opsOf ts := by simp [opsOf, hi, Except.toOption]
    have hstep : step (u.withEvents ((w :: ts).map HostEvent.offer ++ u.events)) =
        .next ((applyOp i u).withEvents (ts.map HostEvent.offer ++ (applyOp i u).events)) := by
      have hrun : step (u.withEvents ((w :: ts).map HostEvent.offer ++ u.events)) =
          exec i (u.withEvents (ts.map HostEvent.offer ++ u.events)) := stepWith_offer exec rfl hi
      rw [hrun, exec_eq_applyOp, applyOp_withEvents, applyOp_events]
    rw [hops]
    exact (run_core ts.length hstep).trans (ih hts (applyOp i u))

/-- The operations of the accepted transfers: what the words decode to, ready at the edge, of the same ports and with the answers
the block drives. -/
theorem opsOf_acceptedAtEdge (sig : PortSignals P) (hold : BitVec 7) (s : State P) :
    (acceptedAtEdge sig hold s).map decode = (opsOf (acceptedAtEdge sig hold s)).map Except.ok ∧
    (∀ i ∈ opsOf (acceptedAtEdge sig hold s), ready i s = true) ∧
    (acceptedAtEdge sig hold s).map chanOf = (opsOf (acceptedAtEdge sig hold s)).map Instr.chan ∧
    (acceptedAtEdge sig hold s).map (answerAtEdge sig hold s) =
      (opsOf (acceptedAtEdge sig hold s)).map (fun i => some (applyOp i s).resp) := by
  refine ⟨map_eq_map_opsOf fun w hw => ?_, fun i hi => ?_, map_eq_map_opsOf fun w hw => ?_, map_eq_map_opsOf fun w hw => ?_⟩
  · obtain ⟨i, hi⟩ := decode_of_accepted hw
    exact ⟨i, hi, hi⟩
  · obtain ⟨w, hw, hdec⟩ := mem_opsOf.1 hi
    obtain ⟨-, j, hj, -, hr⟩ := mem_acceptedAtEdge_iff.1 hw
    exact Except.ok.inj (hj.symm.trans hdec) ▸ hr
  · obtain ⟨i, hi⟩ := decode_of_accepted hw
    exact ⟨i, hi, (chan_of_decode hi).symm⟩
  · obtain ⟨-, i, hi, hopen, hr⟩ := mem_acceptedAtEdge_iff.1 hw
    exact ⟨i, hi, answerAtEdge_eq_some.2 ⟨i, hi, hopen, hr, rfl⟩⟩

/-- The state behind the edge answers an operation as the one before it: they differ in the model's own fields only. -/
theorem applyOp_edgeStart_resp (i : Instr P) (rest : List (HostEvent P)) :
    (applyOp i ((edgeStart sig hold s).withEvents rest)).resp = (applyOp i s).resp := by
  obtain ⟨-, -, -, hresp⟩ := applyOp_congr (s := (edgeStart sig hold s).withEvents rest) (t := s) rfl rfl rfl i
  exact hresp

/-- The step of an edge, and then one step for each accepted transfer. -/
theorem run_core_edge {sig : PortSignals} {s : State} {rest : List HostEvent} (hev : s.events = .edge sig hold :: rest) :
    Host.Core.run Sys2Proof.core ((acceptedAtEdge sig hold s).length + 1) s =
      .next (runOps (opsOf (acceptedAtEdge sig hold s)) ((edgeStart sig hold s).withEvents rest)) :=
  (run_core _ (step_edge hev)).trans
    (run_core_offers (fun _ => decode_of_accepted) ((edgeStart sig hold s).withEvents rest))

/-- Settles O10: the accepted transfers stand in the order of R70, in which they are performed one after another; each is ready and
answered then as at the edge. -/
theorem sameCycleTransfers : Obligations.SameCycleTransfers := by
  unfold Obligations.SameCycleTransfers
  intro sig hold s rest hev henc hdec
  obtain ⟨hdecode, hready, hchan, hanswer⟩ := opsOf_acceptedAtEdge sig hold s
  have hlen : (acceptedAtEdge sig hold s).length = (opsOf (acceptedAtEdge sig hold s)).length := by
    simpa using congrArg List.length hdecode
  have hord := acceptedAtEdge_pairwise_before sig hold s
  rw [hchan] at hord
  obtain ⟨hacc, hresp⟩ := trace_of_pairwise_before (s := (edgeStart sig hold s).withEvents rest) hord henc hdec hready
  refine ⟨fun w hw => (mem_acceptedAtEdge.1 hw).1, fun d => acceptedAtEdge_of_ctrl, fun d => acceptedAtEdge_of_cfg,
    fun hctrl hcfg w hw i hi hr hheld => ?_, chanOf_acceptedAtEdge_cases sig hold s,
    opsOf (acceptedAtEdge sig hold s), (edgeStart sig hold s).withEvents rest, hdecode, hready, rfl, ?_, hacc, ?_⟩
  · exact mem_acceptedAtEdge_iff.2 ⟨hw, i, hi, portOpen_of_no_sole (solePort_of_neither hctrl hcfg) hheld, hr⟩
  · rw [← hlen]
    exact run_core_edge hev
  · calc (trace _ _).map (fun r => some r.after.resp)
      _ = ((trace _ _).map fun r => r.after.resp).map some := by rw [List.map_map]; rfl
      _ = (opsOf (acceptedAtEdge sig hold s)).map (fun i => some (applyOp i s).resp) := by
        rw [hresp, List.map_map]
        exact List.map_congr_left fun i _ => congrArg some (applyOp_edgeStart_resp i rest)
      _ = _ := hanswer.symm

end Sys2Proof.Machine
end


section
/-! PROOFS. The words of each operation (R95 to R104): a word decodes to an operation exactly when its selecting bits have the
operation's value and its operand fields hold the operands. -/

namespace Sys2Proof

variable {P : Params}

/-! ### What a word holds when it spells an operation (R96 to R104) -/

/-- The selecting bits and the operand fields of the word `t` are those of an operation, format by format. -/
def ReadsAs (t : TWord P) : Instr P → Prop
  | .ctrlNop => t.extractLsb' 0 5 = 0b00000#5
  | .encClr => t.extractLsb' 0 5 = 0b01000#5
  | .decClr => t.extractLsb' 0 5 = 0b10000#5
  | .allClr => t.extractLsb' 0 5 = 0b11000#5
  | .cfgClear => t.extractLsb' 0 5 = 0b00001#5
  | .cfgCode sym len code => t.extractLsb' 0 5 = 0b01001#5 ∧ t.extractLsb' 5 P.SYM_W = sym ∧
      t.extractLsb' (5 + P.SYM_W) P.LEN_W = len ∧ t.extractLsb' (5 + P.SYM_W + P.LEN_W) P.MAXLEN = code
  | .cfgNode h kind left right sym => t.extractLsb' 0 5 = 0b10001#5 ∧ t.extractLsb' 5 P.NODE_W = h ∧
      t.extractLsb' (5 + P.NODE_W) 2 = kindToBits kind ∧ t.extractLsb' (7 + P.NODE_W) P.NODE_W = left ∧
      t.extractLsb' (7 + 2 * P.NODE_W) P.NODE_W = right ∧ t.extractLsb' (7 + 3 * P.NODE_W) P.SYM_W = sym
  | .cfgRoot h => t.extractLsb' 0 5 = 0b11001#5 ∧ t.extractLsb' 5 P.NODE_W = h
  | .encPut sym => t.extractLsb' 0 4 = 0b0010#4 ∧ t.extractLsb' 4 P.SYM_W = sym
  | .encEnd => t.extractLsb' 0 4 = 0b1010#4
  | .encPop => t.extractLsb' 0 3 = 0b011#3
  | .decBit bit => t.extractLsb' 0 4 = 0b0100#4 ∧ t.extractLsb' 4 1 = BitVec.ofBool bit
  | .decEnd => t.extractLsb' 0 4 = 0b1100#4
  | .decPop => t.extractLsb' 0 3 = 0b101#3
  | .statRd idx => t.extractLsb' 0 3 = 0b110#3 ∧ t.extractLsb' 3 4 = idx

section Words

variable {t u : TWord P} {i : Instr P}

/-! ### The selecting bits (R95 to R97, R101, R103) -/

/-- The port number and the two bits above it, as one field. -/
theorem extract_low_five {c : BitVec 3} {b₃ b₄ : Bool} (hc : t.extractLsb' 0 3 = c) (h₃ : t.getLsbD 3 = b₃)
    (h₄ : t.getLsbD 4 = b₄) : t.extractLsb' 0 5 = BitVec.ofBool b₄ ++ (BitVec.ofBool b₃ ++ c) := by
  rw [← hc, ← h₃, ← h₄, ← extract_one, ← extract_one]
  exact ((congrArg _ (extract_append_extract t 0 3 1)).trans (extract_append_extract t 0 4 1)).symm

/-- The port number and the bit above it, as one field. -/
theorem extract_low_four {c : BitVec 3} {b₃ : Bool} (hc : t.extractLsb' 0 3 = c) (h₃ : t.getLsbD 3 = b₃) :
    t.extractLsb' 0 4 = BitVec.ofBool b₃ ++ c := by
  rw [← hc, ← h₃, ← extract_one]
  exact (extract_append_extract t 0 3 1).symm

/-- A decoded word holds the operation it decodes to. -/
theorem readsAs_of_decode (h : decode t = .ok i) : ReadsAs t i := by
  rcases decode_ok_cases h with ⟨hc, rfl⟩ | ⟨hc, rfl⟩ | ⟨hc, rfl⟩ | ⟨hc, rfl⟩ | ⟨hc, rfl⟩ | ⟨hc, rfl⟩ | ⟨hc, rfl⟩
  · unfold decodeCtrl
    split <;> exact extract_low_five hc ‹_› ‹_›
  · unfold decodeCfg
    split <;> rename_i h₄ h₃
    · exact extract_low_five hc h₃ h₄
    · exact ⟨extract_low_five hc h₃ h₄, rfl, rfl, rfl⟩
    · exact ⟨extract_low_five hc h₃ h₄, rfl, (kindToBits_kindOfBits _).symm, rfl, rfl, rfl⟩
    · exact ⟨extract_low_five hc h₃ h₄, rfl⟩
  · unfold decodeSymIn
    split <;> rename_i h₃
    · exact extract_low_four hc h₃
    · exact ⟨extract_low_four hc (Bool.eq_false_of_not_eq_true h₃), rfl⟩
  · exact hc
  · unfold decodeBitIn
    split <;> rename_i h₃
    · exact extract_low_four hc h₃
    · exact ⟨extract_low_four hc (Bool.eq_false_of_not_eq_true h₃), extract_one t 4⟩
  · exact hc
  · exact ⟨hc, rfl⟩

theorem bits_of_low_five {v : Nat} (h : t.extractLsb' 0 5 = BitVec.ofNat 5 v) :
    t.extractLsb' 0 3 = BitVec.ofNat 3 v ∧ t.getLsbD 3 = v.testBit 3 ∧ t.getLsbD 4 = v.testBit 4 :=
  ⟨extract_low_of_extract_low h (by omega), getLsbD_of_extract_low h (by omega), getLsbD_of_extract_low h (by omega)⟩

theorem bits_of_low_four {v : Nat} (h : t.extractLsb' 0 4 = BitVec.ofNat 4 v) :
    t.extractLsb' 0 3 = BitVec.ofNat 3 v ∧ t.getLsbD 3 = v.testBit 3 :=
  ⟨extract_low_of_extract_low h (by omega), getLsbD_of_extract_low h (by omega)⟩

theorem decode_of_ctrl_port (hc : t.extractLsb' 0 3 = 0#3) : decode t = .ok (decodeCtrl t) := by rw [decode, hc]; rfl

theorem decode_of_cfg_port (hc : t.extractLsb' 0 3 = 1#3) : decode t = .ok (decodeCfg t) := by rw [decode, hc]; rfl

theorem decode_of_symIn_port (hc : t.extractLsb' 0 3 = 2#3) : decode t = .ok (decodeSymIn t) := by rw [decode, hc]; rfl

theorem decode_of_bitIn_port (hc : t.extractLsb' 0 3 = 4#3) : decode t = .ok (decodeBitIn t) := by rw [decode, hc]; rfl

/-- A word that holds an operation decodes to it. -/
theorem decode_of_readsAs (h : ReadsAs t i) : decode t = .ok i := by
  cases i with
  | ctrlNop | encClr | decClr | allClr =>
    obtain ⟨hc, h₃, h₄⟩ := bits_of_low_five h
    rw [decode_of_ctrl_port hc, decodeCtrl, h₃, h₄]
    rfl
  | cfgClear =>
    obtain ⟨hc, h₃, h₄⟩ := bits_of_low_five h
    rw [decode_of_cfg_port hc, decodeCfg, h₃, h₄]
    rfl
  | cfgCode sym len code =>
    obtain ⟨hop, rfl, rfl, rfl⟩ := h
    obtain ⟨hc, h₃, h₄⟩ := bits_of_low_five hop
    rw [decode_of_cfg_port hc, decodeCfg, h₃, h₄]
    rfl
  | cfgNode k kind left right sym =>
    obtain ⟨hop, rfl, hkind, rfl, rfl, rfl⟩ := h
    obtain ⟨hc, h₃, h₄⟩ := bits_of_low_five hop
    rw [decode_of_cfg_port hc, decodeCfg, h₃, h₄, hkind, kindOfBits_kindToBits]
    rfl
  | cfgRoot k =>
    obtain ⟨hop, rfl⟩ := h
    obtain ⟨hc, h₃, h₄⟩ := bits_of_low_five hop
    rw [decode_of_cfg_port hc, decodeCfg, h₃, h₄]
    rfl
  | encPut sym =>
    obtain ⟨hop, rfl⟩ := h
    obtain ⟨hc, h₃⟩ := bits_of_low_four hop
    rw [decode_of_symIn_port hc, decodeSymIn, h₃]
    rfl
  | encEnd =>
    obtain ⟨hc, h₃⟩ := bits_of_low_four h
    rw [decode_of_symIn_port hc, decodeSymIn, h₃]
    rfl
  | decBit bit =>
    obtain ⟨hop, hbit⟩ := h
    obtain ⟨hc, h₃⟩ := bits_of_low_four hop
    rw [extract_one, BitVec.ofBool_eq_iff_eq] at hbit
    rw [decode_of_bitIn_port hc, decodeBitIn, h₃, hbit]
    rfl
  | decEnd =>
    obtain ⟨hc, h₃⟩ := bits_of_low_four h
    rw [decode_of_bitIn_port hc, decodeBitIn, h₃]
    rfl
  | encPop | decPop =>
    rw [decode, show t.extractLsb' 0 3 = _ from h]
    rfl
  | statRd idx =>
    obtain ⟨hc, rfl⟩ := h
    rw [decode, hc]
    rfl

/-- Decoding, format by format (R95 to R104). -/
theorem decode_eq_ok_iff : decode t = .ok i ↔ ReadsAs t i := ⟨readsAs_of_decode, decode_of_readsAs⟩

/-! ### The ignored bits (R97, R108 (b)) -/

/-- Words that agree below bit `m` agree on every field there. -/
theorem extract_of_and_lowMask {m : Nat} (h : u &&& lowMask m = t &&& lowMask m) (hm : m ≤ P.T_W) {a n : Nat}
    (ha : a + n ≤ m) : u.extractLsb' a n = t.extractLsb' a n := by
  apply BitVec.eq_of_getLsbD_eq
  intro k hk
  have hbit := congrArg (fun w : TWord P => w.getLsbD (a + k)) h
  simp only [BitVec.getLsbD_and, lowMask_getLsbD, decide_eq_true (show a + k < m by omega),
    decide_eq_true (show a + k < P.T_W by omega), Bool.and_true] at hbit
  rw [BitVec.getLsbD_extractLsb', BitVec.getLsbD_extractLsb', hbit]

/-- The fields of an operation lie in the bits its format names. -/
theorem ReadsAs.congr (h : ReadsAs t i) (hu : u &&& namedBits i = t &&& namedBits i) : ReadsAs u i := by
  obtain ⟨hcode, hnode, hwide⟩ := P.formats_fit
  cases i <;> simp only [ReadsAs, namedBits] at h hu ⊢ <;>
    simpa (disch := omega) only [extract_of_and_lowMask hu (by omega)] using h

/-- Settles O3: a format's fields lie in its named bits, and they alone decide what the word decodes to. -/
theorem ignoredBitsDoNotMatter : Obligations.IgnoredBitsDoNotMatter := by
  unfold Obligations.IgnoredBitsDoNotMatter
  exact fun t u i h hu => decode_eq_ok_iff.2 ((decode_eq_ok_iff.1 h).congr hu)

/-! ### The fields of a word, side by side, are the word -/

theorem extract_join {a b k n : Nat} (h : b = a + k) :
    t.extractLsb' b n ++ t.extractLsb' a k = t.extractLsb' a (n + k) := h ▸ extract_append_extract t a k n

theorem extract_of_extract_low {m : Nat} {x : BitVec m} (h : t.extractLsb' 0 m = x) {a n : Nat} (ha : a + n ≤ m) :
    t.extractLsb' a n = x.extractLsb' a n := by
  rw [← h, BitVec.extractLsb'_extractLsb'_of_le ha]

/-- The word of a payload that lies in `t` is `t` under the mask that ends with the payload. -/
theorem wordOf_eq_and_lowMask {n m : Nat} {p : BitVec n} {c : BitVec 3} (hp : t.extractLsb' 3 n = p)
    (hc : t.extractLsb' 0 3 = c) (hm : n + 3 = m) : wordOf p c = t &&& lowMask m := by
  subst hp hc hm
  apply BitVec.eq_of_getLsbD_eq
  intro k hk
  rw [wordOf, extract_append_extract t 0 3 n]
  simp only [BitVec.getLsbD_setWidth, BitVec.getLsbD_extractLsb', BitVec.getLsbD_and, lowMask_getLsbD, hk, decide_true,
    Bool.true_and, Nat.zero_add, Bool.and_comm]

/-- Zeros above a payload leave its word as it is. -/
theorem wordOf_zeros_append {n w : Nat} (p : BitVec w) (c : BitVec 3) : (wordOf (0#n ++ p) c : TWord P) = wordOf p c := by
  apply BitVec.eq_of_toNat_eq
  simp [wordOf]

/-- A payload of selecting bits `op` and the operands above them. -/
theorem payload_above_op {k n : Nat} {op : BitVec k} (hop : t.extractLsb' 3 k = op) {b : Nat} (hb : b = 3 + k) :
    t.extractLsb' 3 (n + k) = t.extractLsb' b n ++ op := by
  rw [← hop, extract_join hb]

/-- The word of an operation is any word that holds it, under the mask of its named bits. -/
theorem encode_of_readsAs (h : ReadsAs t i) : encode i = t &&& namedBits i := by
  cases i with
  | ctrlNop | encClr | decClr | allClr | cfgClear =>
    exact wordOf_eq_and_lowMask (extract_of_extract_low h (by omega)) (extract_of_extract_low h (by omega)) rfl
  | cfgCode sym len code =>
    obtain ⟨hop, rfl, rfl, rfl⟩ := h
    refine wordOf_eq_and_lowMask ?_ (extract_of_extract_low hop (by omega)) (by omega)
    rw [extract_join, extract_join, payload_above_op (extract_of_extract_low hop (by omega)) rfl] <;> rfl
  | cfgNode k kind left right sym =>
    obtain ⟨hop, rfl, hkind, rfl, rfl, rfl⟩ := h
    refine wordOf_eq_and_lowMask ?_ (extract_of_extract_low hop (by omega)) (by omega)
    rw [← hkind, extract_join, extract_join, extract_join, extract_join,
      payload_above_op (extract_of_extract_low hop (by omega)) rfl]
    · rfl
    all_goals omega
  | cfgRoot k =>
    obtain ⟨hop, rfl⟩ := h
    refine wordOf_eq_and_lowMask ?_ (extract_of_extract_low hop (by omega)) (by omega)
    exact payload_above_op (extract_of_extract_low hop (by omega)) rfl
  | encPut sym =>
    obtain ⟨hop, rfl⟩ := h
    refine wordOf_eq_and_lowMask ?_ (extract_of_extract_low hop (by omega)) (by omega)
    exact payload_above_op (extract_of_extract_low hop (by omega)) rfl
  | encEnd | decEnd =>
    exact (wordOf_zeros_append _ _).trans
      (wordOf_eq_and_lowMask (extract_of_extract_low h (by omega)) (extract_of_extract_low h (by omega)) rfl)
  | encPop | decPop => exact wordOf_eq_and_lowMask BitVec.of_length_zero h rfl
  | decBit bit =>
    obtain ⟨hop, hbit⟩ := h
    refine wordOf_eq_and_lowMask ?_ (extract_of_extract_low hop (by omega)) (by omega)
    rw [← hbit]
    exact payload_above_op (extract_of_extract_low hop (by omega)) rfl
  | statRd idx =>
    obtain ⟨hc, rfl⟩ := h
    exact wordOf_eq_and_lowMask rfl hc rfl

end Words

/-- Settles O2: the fields that a word holds, side by side above its port number, are the word below the end of the last field. -/
theorem encodeOfDecodeKeepsNamedBits : Obligations.EncodeOfDecodeKeepsNamedBits := by
  unfold Obligations.EncodeOfDecodeKeepsNamedBits
  exact fun t i h => encode_of_readsAs (decode_eq_ok_iff.1 h)

/-- Settles O5, clause by clause: the word holds the operation. -/
theorem operandsAreReadAtTheirPositions : Obligations.OperandsAreReadAtTheirPositions := by
  unfold Obligations.OperandsAreReadAtTheirPositions
  intro t
  have hkindBits : ∀ kind v, (kind, v) ∈ [(NodeKind.empty, 0#2), (.internal, 1#2), (.leaf, 2#2), (.placeholder, 3#2)] →
      v = kindToBits kind := by
    intro kind v hv
    fin_cases hv <;> rfl
  exact
    ⟨fun hop => decode_of_readsAs hop,
     fun hop => decode_of_readsAs hop,
     fun hop => decode_of_readsAs hop,
     fun hop => decode_of_readsAs hop,
     fun hop => decode_of_readsAs hop,
     fun hop => decode_of_readsAs ⟨hop, rfl, rfl, rfl⟩,
     fun kind v hv hkind hop => decode_of_readsAs ⟨hop, rfl, hkind.trans (hkindBits kind v hv), rfl, rfl, rfl⟩,
     fun hop => decode_of_readsAs ⟨hop, rfl⟩,
     fun hop => decode_of_readsAs ⟨hop, rfl⟩,
     fun hop => decode_of_readsAs hop,
     fun hop => decode_of_readsAs hop,
     fun hop => decode_of_readsAs ⟨hop, extract_one t 4⟩,
     fun hop => decode_of_readsAs hop,
     fun hop => decode_of_readsAs hop,
     fun hop => decode_of_readsAs ⟨hop, rfl⟩⟩

/-- Settles O6, by evaluating the decoder on the eight words. -/
theorem specWordsDecode : Obligations.SpecWordsDecode := by
  unfold Obligations.SpecWordsDecode
  decide

/-! ### The operation table (R106) -/

/-- Every operation's word is selected by a row of its mnemonic. -/
theorem exists_row_of_encode (i : Instr) : Laws.TableRow.Statement i := by
  cases i with
  | ctrlNop => exact Laws.TableRow.ctrlNop
  | encClr => exact Laws.TableRow.encClr
  | decClr => exact Laws.TableRow.decClr
  | allClr => exact Laws.TableRow.allClr
  | cfgClear => exact Laws.TableRow.cfgClear
  | cfgCode sym len code => exact Laws.TableRow.cfgCode sym len code
  | cfgNode h kind left right sym => exact Laws.TableRow.cfgNode h kind left right sym
  | cfgRoot h => exact Laws.TableRow.cfgRoot h
  | encPut sym => exact Laws.TableRow.encPut sym
  | encEnd => exact Laws.TableRow.encEnd
  | encPop => exact Laws.TableRow.encPop
  | decBit bit => exact Laws.TableRow.decBit bit
  | decEnd => exact Laws.TableRow.decEnd
  | decPop => exact Laws.TableRow.decPop
  | statRd idx => exact Laws.TableRow.statRd idx

/-- An operation's format names the bits that its row looks at. -/
theorem namedBits_and_mask (i : Instr) : ∀ r ∈ opTable, r.mnemonic = i.mnemonic → namedBits i &&& r.mask = r.mask := by
  cases i <;> simp only [Instr.mnemonic, namedBits] <;> decide

/-- Two rows whose patterns agree where both look are one row. -/
theorem opTable_exclusive : ∀ r ∈ opTable (P := Params.default), ∀ r' ∈ opTable,
    r.pattern &&& r'.mask = r'.pattern &&& r.mask → r = r' := by
  decide

/-- Every row looks at the port number, and none has port 7. -/
theorem opTable_port : ∀ r ∈ opTable (P := Params.default), r.mask &&& lowMask 3 = lowMask 3 ∧
    r.pattern &&& lowMask 3 ≠ wordOf 0#0 7 := by
  decide

/-- The row that selects the word of an operation selects every word that decodes to it. -/
theorem exists_row_of_decode {t : TWord} {i : Instr} (h : decode t = .ok i) :
    ∃ r ∈ opTable, r.selects t = true ∧ r.mnemonic = i.mnemonic := by
  obtain ⟨r, hr, hm, hsel⟩ := exists_row_of_encode i
  refine ⟨r, hr, ?_, hm⟩
  rw [OpRow.selects, beq_iff_eq] at hsel ⊢
  rw [← hsel, encode_of_readsAs (decode_eq_ok_iff.1 h), BitVec.and_assoc, namedBits_and_mask i r hr hm]

theorem row_unique {t : TWord} {r r' : OpRow} (hr : r ∈ opTable) (hr' : r' ∈ opTable) (h : r.selects t = true)
    (h' : r'.selects t = true) : r' = r := by
  rw [OpRow.selects, beq_iff_eq] at h h'
  refine opTable_exclusive r' hr' r hr ?_
  rw [← h, ← h', BitVec.and_assoc, BitVec.and_assoc, BitVec.and_comm r.mask]

theorem no_row_of_port_seven {t : TWord} (ht : t.extractLsb' 0 3 = 7#3) {r : OpRow} (hr : r ∈ opTable) :
    r.selects t = false := by
  obtain ⟨hmask, hpattern⟩ := opTable_port r hr
  refine Bool.eq_false_of_not_eq_true fun h => hpattern ?_
  rw [OpRow.selects, beq_iff_eq] at h
  calc r.pattern &&& lowMask 3
    _ = t &&& lowMask 3 := by rw [← h, BitVec.and_assoc, hmask]
    _ = wordOf 0#0 7 := (wordOf_eq_and_lowMask BitVec.of_length_zero ht rfl).symm

/-- The verdict *invalid* (R95). -/
theorem decode_eq_error_iff {t : TWord P} : decode t = .error .invalidChan ↔ t.extractLsb' 0 3 = 7#3 := by
  unfold decode
  have hlt := (t.extractLsb' 0 3).isLt
  rw [← BitVec.toNat_inj, show (7#3).toNat = 7 from rfl]
  generalize (t.extractLsb' 0 3).toNat = port at hlt ⊢
  split
  case h_8 =>
    rw [iff_true_left rfl]
    simp only [imp_false] at *
    omega
  all_goals simp

/-- Settles O4: each operation's word has its row, whose mask its format names; two rows exclude one another, and each excludes
port 7. -/
theorem operationTableSelectsDecodedOperation : Obligations.OperationTableSelectsDecodedOperation := by
  unfold Obligations.OperationTableSelectsDecodedOperation
  intro t
  refine ⟨fun i hi => ?_, ⟨fun h r hr => no_row_of_port_seven (decode_eq_error_iff.1 h) hr, fun h => ?_⟩,
    decode_eq_error_iff⟩
  · obtain ⟨r, hr, hsel, hm⟩ := exists_row_of_decode hi
    exact ⟨r, hr, hsel, hm, fun r' hr' => row_unique hr hr' hsel⟩
  · cases hd : decode t with
    | error e => rfl
    | ok i =>
      obtain ⟨r, hr, hsel, -⟩ := exists_row_of_decode hd
      exact absurd hsel (Bool.eq_false_iff.1 (h r hr))

end Sys2Proof
end


section
/-! PROOFS. When the step stops (R95), and what LOAD leaves in the configuration (R111): with both units closed every port-1
operation is answered `OK`, and each part of the list writes its own store, one entry for each listed key. -/

namespace Sys2Proof.Machine

open Sys2Proof

variable {P : Params}

/-! ### Where the step stops (R95) -/

/-- Every word of a port decodes to an operation. -/
theorem exists_decode {t : TWord P} (h : chanOf t ≠ 7) : ∃ i, decode t = .ok i := by
  cases hd : decode t with
  | ok i => exact ⟨i, rfl⟩
  | error e => exact absurd (decode_eq_error_iff.1 hd) h

/-- Settles O8, by the next event. -/
theorem stepStopsOnlyOnInvalidChan : Obligations.StepStopsOnlyOnInvalidChan := by
  unfold Obligations.StepStopsOnlyOnInvalidChan
  intro s
  constructor
  · intro t rest hev hchan
    rw [step, stepWith, hev]
    simp only [decode_eq_error_iff.2 hchan]
  · intro hchan
    match hev : s.events with
    | [] => exact ⟨idleStep s, by rw [step, stepWith, hev]⟩
    | .offer t :: rest =>
      obtain ⟨i, hi⟩ := exists_decode (hchan t rest hev)
      exact ⟨_, (stepWith_offer exec hev hi).trans (exec_eq_applyOp i _)⟩
    | .hardReset :: rest => exact ⟨_, by rw [step, stepWith, hev]⟩
    | .edge sig hold :: rest => exact ⟨_, by rw [step, stepWith, hev]⟩

/-! ### Port-1 operations with both units closed (R121) -/

/-- No unit has a stream open. -/
def UnitsClosed (s : State P) : Prop := s.enc.isOpen = false ∧ s.dec.isOpen = false

section Closed

variable {s : State P} (h : UnitsClosed s)

include h

theorem UnitsClosed.after_op {i : Instr P} (hi : i.chan = 1) : UnitsClosed (applyOp i s) := by
  rw [UnitsClosed, applyOp_enc (.inl hi), applyOp_dec (.inl hi)]
  exact h

theorem UnitsClosed.after_run {ops : List (Instr P)} (hops : ∀ i ∈ ops, i.chan = 1) : UnitsClosed (runOps ops s) := by
  induction ops generalizing s with
  | nil => exact h
  | cons i ops ih =>
    obtain ⟨hi, hops⟩ := List.forall_mem_cons.1 hops
    exact ih (h.after_op hi) hops

theorem UnitsClosed.cfgClear_eq : applyOp .cfgClear s = respCode .ok { s with mem := Memory.cleared } := by
  obtain ⟨henc, hdec⟩ := h
  rcases cfgClear_cases s with ⟨hopen, -⟩ | ⟨-, -, he⟩
  · simp [henc, hdec] at hopen
  · exact he

theorem UnitsClosed.cfgCode_eq (sym : Symbol P) (len : CodeLen P) (code : CodeInt P) :
    applyOp (.cfgCode sym len code) s = respCode .ok { s with mem := ctWrite s.mem sym (storedCode len code) } := by
  rcases cfgCode_cases sym len code s with ⟨hopen, -⟩ | ⟨-, he⟩
  · simp [h.1] at hopen
  · exact he

theorem UnitsClosed.cfgNode_eq (k : Handle P) (n : TreeNode P) :
    applyOp (cfgNodeOf k n) s = respCode .ok { s with mem := tnWrite s.mem k n } := by
  rcases cfgNode_cases k n.kind n.left n.right n.sym s with ⟨hopen, -⟩ | ⟨-, he⟩
  · simp [h.2] at hopen
  · exact he

theorem UnitsClosed.cfgRoot_eq (r : Handle P) :
    applyOp (.cfgRoot r) s = respCode .ok { s with mem := { s.mem with root := r } } := by
  rcases cfgRoot_cases r s with ⟨hopen, -⟩ | ⟨-, he⟩
  · simp [h.2] at hopen
  · exact he

/-- R121: with both units closed no port-1 operation is refused. -/
theorem UnitsClosed.resp_ok {i : Instr P} (hi : i.chan = 1) : (applyOp i s).resp = .code .ok := by
  cases i with
  | cfgClear => rw [h.cfgClear_eq, respCode_resp]
  | cfgCode sym len code => rw [h.cfgCode_eq, respCode_resp]
  | cfgNode k kind left right sym => exact congrArg State.resp (h.cfgNode_eq k ⟨kind, left, right, sym⟩)
  | cfgRoot r => rw [h.cfgRoot_eq, respCode_resp]
  | ctrlNop | encClr | decClr | allClr | encPut | encEnd | encPop | decBit | decEnd | decPop | statRd =>
    simp [Instr.chan] at hi

/-- With both units closed a run of port-1 operations is answered `OK` throughout. -/
theorem UnitsClosed.trace_ok {ops : List (Instr P)} (hops : ∀ i ∈ ops, i.chan = 1) :
    ∀ r ∈ trace ops s, r.after.resp = .code .ok := by
  induction ops generalizing s with
  | nil => exact fun r hr => absurd hr List.not_mem_nil
  | cons i ops ih =>
    obtain ⟨hi, hops⟩ := List.forall_mem_cons.1 hops
    exact List.forall_mem_cons.2 ⟨h.resp_ok hi, ih (h.after_op hi) hops⟩

end Closed

/-! ### A store written from a list of keys -/

/-- One operation for each key that `find` has an entry for. -/
def listedOps {κ β : Type} (op : κ → β → Instr P) (find : κ → Option β) (keys : List κ) : List (Instr P) :=
  keys.filterMap fun k => (find k).map (op k)

theorem mem_listedOps {κ β : Type} {op : κ → β → Instr P} {find : κ → Option β} {keys : List κ} {i : Instr P}
    (h : i ∈ listedOps op find keys) : ∃ k b, i = op k b := by
  obtain ⟨k, -, hk⟩ := List.mem_filterMap.1 h
  obtain ⟨b, -, rfl⟩ := Option.map_eq_some_iff.1 hk
  exact ⟨k, b, rfl⟩

/-- Where `op k b` writes the value of `b` at `k` and nothing else of a store, the operations of a list of keys leave at a listed
key what `find` has for it, and every other entry as it was. -/
theorem read_runOps_listedOps {κ β ν : Type} [DecidableEq κ] {read : State P → κ → ν} {op : κ → β → Instr P}
    {val : β → ν} (hop : ∀ k b, (op k b).chan = 1)
    (hwrite : ∀ s, UnitsClosed s → ∀ k b k', read (applyOp (op k b) s) k' = if k = k' then val b else read s k')
    (find : κ → Option β) (keys : List κ) (k : κ) {s : State P} (hs : UnitsClosed s) :
    read (runOps (listedOps op find keys) s) k = if k ∈ keys then ((find k).map val).getD (read s k) else read s k := by
  induction keys generalizing s with
  | nil => simp [listedOps, runOps]
  | cons j keys ih =>
    cases hj : find j with
    | none =>
      have hskip : listedOps op find (j :: keys) = listedOps op find keys := List.filterMap_cons_none (by simp [hj])
      rw [hskip, ih hs]
      by_cases hkj : k = j
      · subst hkj
        simp [hj]
      · simp [hkj]
    | some b =>
      have htake : listedOps op find (j :: keys) = op j b :: listedOps op find keys := List.filterMap_cons_some (by simp [hj])
      rw [htake]
      show read (runOps _ (applyOp (op j b) s)) k = _
      rw [ih (hs.after_op (hop j b)), hwrite s hs]
      by_cases hkj : j = k
      · subst hkj
        simp [hj]
      · simp [hkj, Ne.symm hkj]

/-- Every value of a width, in ascending order. -/
def allWords (w : Nat) : List (BitVec w) := (List.range (2 ^ w)).map (BitVec.ofNat w)

theorem mem_allWords {w : Nat} (k : BitVec w) : k ∈ allWords w :=
  List.mem_map.2 ⟨k.toNat, List.mem_range.2 k.isLt, by simp⟩

/-! ### LOAD (R111) -/

section Load

variable (codes : List (Symbol P × Bits)) (nodes : List (Handle P × TreeNode P)) (root : Handle P)

/-- The entry that LOAD writes for a code given as its bit sequence (R110, R123). -/
def loadedCode (c : Bits) : CodeEntry P :=
  storedCode (BitVec.ofNat P.LEN_W c.length) (BitVec.ofNat P.MAXLEN (bitsToNat c))

/-- LOAD's CFG_CODE operations. -/
def codeOps : List (Instr P) := listedOps cfgCodeOf (codes.lookup ·) (allWords P.SYM_W)

/-- LOAD's CFG_NODE operations. -/
def nodeOps : List (Instr P) := listedOps cfgNodeOf (nodes.lookup ·) (allWords P.NODE_W)

/-- LOAD in its four parts. -/
theorem loadOps_eq : loadOps codes nodes root = .cfgClear :: (codeOps codes ++ (nodeOps nodes ++ [.cfgRoot root])) := by
  simp only [loadOps, codeOps, nodeOps, listedOps, allWords, List.filterMap_map, P.nsym_eq, P.nnode_eq, List.append_assoc]
  rfl

theorem codeOps_chan : ∀ i ∈ codeOps codes, i.chan = 1 := by
  intro i hi
  obtain ⟨sym, c, rfl⟩ := mem_listedOps hi
  rfl

theorem nodeOps_chan : ∀ i ∈ nodeOps nodes, i.chan = 1 := by
  intro i hi
  obtain ⟨k, n, rfl⟩ := mem_listedOps hi
  rfl

theorem loadOps_chan : ∀ i ∈ loadOps codes nodes root, i.chan = 1 := by
  simp only [loadOps_eq, List.forall_mem_cons, List.forall_mem_append]
  exact ⟨rfl, codeOps_chan codes, nodeOps_chan nodes, rfl, fun i hi => absurd hi List.not_mem_nil⟩

/-- The codes of LOAD: a listed symbol has its code, every other entry is as it was. -/
theorem ctRead_codeOps {s : State P} (h : UnitsClosed s) (sym : Symbol P) :
    ctRead (runOps (codeOps codes) s).mem sym = ((codes.lookup sym).map loadedCode).getD (ctRead s.mem sym) := by
  have hwrite : ∀ u : State P, UnitsClosed u → ∀ k c k',
      ctRead (applyOp (cfgCodeOf k c) u).mem k' = if k = k' then loadedCode c else ctRead u.mem k' := by
    intro u hu k c k'
    rw [cfgCodeOf, hu.cfgCode_eq, respCode_mem, ctRead_ctWrite]
    rfl
  have hread := read_runOps_listedOps (read := fun u => ctRead u.mem) (fun _ _ => rfl) hwrite (codes.lookup ·)
    (allWords P.SYM_W) sym h
  exact hread.trans (if_pos (mem_allWords sym))

/-- The nodes of LOAD: a listed handle has its node, every other slot is as it was. -/
theorem tnRead_nodeOps {s : State P} (h : UnitsClosed s) (k : Handle P) :
    tnRead (runOps (nodeOps nodes) s).mem k = (nodes.lookup k).getD (tnRead s.mem k) := by
  have hwrite : ∀ u : State P, UnitsClosed u → ∀ k n k', tnRead (applyOp (cfgNodeOf k n) u).mem k' =
      if k = k' then id n else tnRead u.mem k' := by
    intro u hu k n k'
    rw [hu.cfgNode_eq, respCode_mem, tnRead_tnWrite]
    rfl
  have hread := read_runOps_listedOps (read := fun u => tnRead u.mem) (fun _ _ => rfl) hwrite (nodes.lookup ·)
    (allWords P.NODE_W) k h
  rw [if_pos (mem_allWords k), Option.map_id] at hread
  exact hread

/-- The codes write no node. -/
theorem tnRead_keeps_codeOps (s : State P) (k : Handle P) : tnRead (runOps (codeOps codes) s).mem k = tnRead s.mem k := by
  refine runOps_keeps (f := fun u => tnRead u.mem k) (fun i hi u => ?_) s
  obtain ⟨sym, c, rfl⟩ := mem_listedOps hi
  exact (applyOp_configWrite _ u).keeps_node k nofun nofun

/-- The nodes write no code. -/
theorem ctRead_keeps_nodeOps (s : State P) (sym : Symbol P) : ctRead (runOps (nodeOps nodes) s).mem sym = ctRead s.mem sym := by
  refine runOps_keeps (f := fun u => ctRead u.mem sym) (fun i hi u => ?_) s
  obtain ⟨k, n, rfl⟩ := mem_listedOps hi
  exact (applyOp_configWrite _ u).keeps_code sym nofun nofun

/-- The configuration that LOAD leaves, part by part. -/
theorem runOps_loadOps_mem {s : State P} (h : UnitsClosed s) :
    (runOps (loadOps codes nodes root) s).mem =
      { (runOps (nodeOps nodes) (runOps (codeOps codes) (applyOp .cfgClear s))).mem with root := root } := by
  have hclosed := ((h.after_op (i := .cfgClear) rfl).after_run (codeOps_chan codes)).after_run (nodeOps_chan nodes)
  rw [loadOps_eq]
  show (runOps (codeOps codes ++ (nodeOps nodes ++ [.cfgRoot root])) (applyOp .cfgClear s)).mem = _
  rw [runOps, List.foldl_append, List.foldl_append]
  exact congrArg State.mem (hclosed.cfgRoot_eq root)

end Load

/-- Settles O20: CFG_CLEAR empties the configuration, the codes and the nodes write each its own store, and the root comes
last. -/
theorem loadInstallsConfiguration : Obligations.LoadInstallsConfiguration := by
  unfold Obligations.LoadInstallsConfiguration
  intro codes nodes root s henc hdec
  have hs : UnitsClosed s := ⟨henc, hdec⟩
  have hcleared : UnitsClosed (applyOp .cfgClear s) := hs.after_op rfl
  have hloaded := runOps_loadOps_mem codes nodes root hs
  refine ⟨hs.trace_ok (loadOps_chan codes nodes root), fun sym => ?_, fun k => ?_, congrArg Memory.root hloaded⟩
  · rw [hloaded, ctRead_withRoot, ctRead_keeps_nodeOps, ctRead_codeOps codes hcleared, hs.cfgClear_eq, respCode_mem,
      ctRead_cleared]
    cases codes.lookup sym <;> rfl
  · have hclosed : UnitsClosed (runOps (codeOps codes) (applyOp .cfgClear s)) := hcleared.after_run (codeOps_chan codes)
    rw [hloaded, tnRead_withRoot, tnRead_nodeOps nodes hclosed, tnRead_keeps_codeOps, hs.cfgClear_eq, respCode_mem,
      tnRead_cleared]
    rfl

end Sys2Proof.Machine
end

section
/-! PROOFS. The configuration operations (R120 to R125, R263): when each is refused and what it stores; and what an operation leaves
alone, because it belongs to another unit (R120, R140, R160, R180) or because it is refused (R220). -/

namespace Sys2Proof.Machine

open Sys2Proof

variable {P : Params}

/-! ### The busy rule (R121) -/

/-- A unit that reads what the operation would write is open (R121). -/
def CfgBusy (i : Instr P) (s : State P) : Prop :=
  (writesCt i = true ∧ s.enc.isOpen = true) ∨ (writesTree i = true ∧ s.dec.isOpen = true)

/-- A CFG operation is refused when it is busy and answered `OK` when it is not. -/
theorem cfg_outcome {i : Instr P} (hi : i.chan = 1) (s : State P) :
    (CfgBusy i s ∧ applyOp i s = respCode .errBusy s) ∨ (¬ CfgBusy i s ∧ (applyOp i s).resp = .code .ok) := by
  cases i with
  | cfgClear =>
    rcases cfgClear_cases s with ⟨hopen, he⟩ | ⟨henc, hdec, he⟩
    · exact .inl ⟨by simpa [CfgBusy, writesCt, writesTree] using hopen, he⟩
    · exact .inr ⟨by simp [CfgBusy, henc, hdec], by rw [he, respCode_resp]⟩
  | cfgCode sym len code =>
    rcases cfgCode_cases sym len code s with ⟨hopen, he⟩ | ⟨hclosed, he⟩
    · exact .inl ⟨.inl ⟨rfl, hopen⟩, he⟩
    · exact .inr ⟨by simp [CfgBusy, writesTree, hclosed], by rw [he, respCode_resp]⟩
  | cfgNode h kind left right sym =>
    rcases cfgNode_cases h kind left right sym s with ⟨hopen, he⟩ | ⟨hclosed, he⟩
    · exact .inl ⟨.inr ⟨rfl, hopen⟩, he⟩
    · exact .inr ⟨by simp [CfgBusy, writesCt, hclosed], by rw [he, respCode_resp]⟩
  | cfgRoot h =>
    rcases cfgRoot_cases h s with ⟨hopen, he⟩ | ⟨hclosed, he⟩
    · exact .inl ⟨.inr ⟨rfl, hopen⟩, he⟩
    · exact .inr ⟨by simp [CfgBusy, writesCt, hclosed], by rw [he, respCode_resp]⟩
  | ctrlNop | encClr | decClr | allClr | encPut | encEnd | encPop | decBit | decEnd | decPop | statRd =>
    simp [Instr.chan] at hi

/-- A faulted encoder is open (R37 (d)). -/
theorem EncUnit.Inv.open_of_fault {u : EncUnit P} (h : u.Inv) (hf : u.fault ≠ .none) : u.isOpen = true := by
  obtain ⟨-, -, -, hopen, -⟩ := h
  cases hfault : u.fault with
  | none => exact absurd hfault hf
  | unknown => exact hopen hfault

/-- A faulted decoder is open (R42 (c)). -/
theorem DecUnit.Inv.open_of_fault {u : DecUnit P} (h : u.Inv) (hf : u.fault ≠ .none) : u.isOpen = true := by
  obtain ⟨-, -, hopen, -⟩ := h
  exact hopen hf

/-- Settles O18: the operation is refused or answered `OK`, and a faulted unit is an open one. -/
theorem cfgBusyRule : Obligations.CfgBusyRule := by
  unfold Obligations.CfgBusyRule
  intro i s hi henc hdec
  refine ⟨_, exec_eq_applyOp i s, ?_⟩
  have hbusy : (applyOp i s).resp = .code .errBusy ↔ CfgBusy i s := by
    rcases cfg_outcome hi s with ⟨hbusy, he⟩ | ⟨hfree, hok⟩
    · simp [he, hbusy]
    · simp [hok, hfree]
  refine ⟨?_, hbusy, fun hf hct => hbusy.2 (.inl ⟨hct, henc.open_of_fault hf⟩),
    fun hf htree => hbusy.2 (.inr ⟨htree, hdec.open_of_fault hf⟩), fun hresp => ?_, applyOp_enc (.inl hi) s,
    applyOp_dec (.inl hi) s⟩
  · rcases cfg_outcome hi s with ⟨-, he⟩ | ⟨-, hok⟩
    · exact .inr (congrArg State.resp he)
    · exact .inl hok
  · rcases cfg_outcome hi s with ⟨-, he⟩ | ⟨hfree, -⟩
    · exact he
    · exact absurd (hbusy.1 hresp) hfree

/-! ### What each CFG operation stores (R122 to R125) -/

/-- The outcomes of an operation that tests one flag, as one implication per value of the flag. -/
theorem imp_and_imp_of_flag_cases {b : Bool} {p q : Prop} (h : (b = true ∧ p) ∨ (b = false ∧ q)) :
    (b = true → p) ∧ (b = false → q) := by
  cases b <;> simpa using h

/-- The stored code bit by bit (R123): the given code's bit below `len`, 0 at and above it. -/
theorem storedCode_getLsbD (len : CodeLen P) (code : CodeInt P) (i : Nat) :
    (storedCode len code).code.getLsbD i = (decide (i < len.toNat) && code.getLsbD i) := by
  by_cases hlen : len = 0#P.LEN_W
  · simp [storedCode, hlen, CodeEntry.absent]
  · rw [storedCode, if_neg hlen]
    simp only [BitVec.getLsbD_setWidth]
    by_cases hi : i < P.MAXLEN
    · rw [decide_eq_true hi, Bool.true_and]
    · simp [BitVec.getLsbD_of_ge code i (Nat.le_of_not_lt hi)]

/-- Settles O14: a unit is open, or CFG_CLEAR leaves the cleared configuration. -/
theorem cfgClearEmptiesConfiguration : Obligations.CfgClearEmptiesConfiguration := by
  unfold Obligations.CfgClearEmptiesConfiguration
  intro s
  refine ⟨fun hopen => ?_, fun henc hdec => ?_⟩
  · rcases cfgClear_cases s with ⟨-, he⟩ | ⟨henc, hdec, -⟩
    · exact exec_eq_next_iff.2 he
    · simp [henc, hdec] at hopen
  · exact ⟨_, exec_eq_next_iff.2 (UnitsClosed.cfgClear_eq ⟨henc, hdec⟩), rfl, ctRead_cleared, tnRead_cleared, rfl, rfl, rfl⟩

/-- Settles O15: read after write of the code table, and the stored code bit by bit. -/
theorem cfgCodeStoresMaskedCode : Obligations.CfgCodeStoresMaskedCode := by
  unfold Obligations.CfgCodeStoresMaskedCode
  intro sym len code s
  obtain ⟨hbusy, hok⟩ := imp_and_imp_of_flag_cases (cfgCode_cases sym len code s)
  refine ⟨fun hopen => exec_eq_next_iff.2 (hbusy hopen), fun hclosed => ⟨_, exec_eq_next_iff.2 (hok hclosed), rfl, ?_⟩⟩
  have hread := ctRead_ctWrite s.mem sym (e := storedCode len code)
  rw [respCode_mem, hread, if_pos rfl]
  exact ⟨storedCode_len len code, storedCode_getLsbD len code, fun sym' hne => (hread sym').trans (if_neg hne.symm),
    tnRead_ctWrite s.mem sym _, rfl, rfl, rfl⟩

/-- Settles O16: read after write of the node store. -/
theorem cfgNodeStoresAllFields : Obligations.CfgNodeStoresAllFields := by
  unfold Obligations.CfgNodeStoresAllFields
  intro h kind left right sym s
  obtain ⟨hbusy, hok⟩ := imp_and_imp_of_flag_cases (cfgNode_cases h kind left right sym s)
  refine ⟨fun hopen => exec_eq_next_iff.2 (hbusy hopen), fun hclosed => ⟨_, exec_eq_next_iff.2 (hok hclosed), rfl, ?_⟩⟩
  have hread := tnRead_tnWrite s.mem h (n := ⟨kind, left, right, sym⟩)
  exact ⟨(hread h).trans (if_pos rfl), fun h' hne => (hread h').trans (if_neg hne.symm), ctRead_tnWrite s.mem h _, rfl, rfl, rfl⟩

/-- Settles O17: the stores are not written, and STATUS index 14 is a view of `ROOT`. -/
theorem cfgRootSetsRoot : Obligations.CfgRootSetsRoot := by
  unfold Obligations.CfgRootSetsRoot
  intro h s
  obtain ⟨hbusy, hok⟩ := imp_and_imp_of_flag_cases (cfgRoot_cases h s)
  refine ⟨fun hopen => exec_eq_next_iff.2 (hbusy hopen), fun hclosed => ⟨_, exec_eq_next_iff.2 (hok hclosed), rfl, rfl, rfl, ?_⟩⟩
  exact ⟨ctRead_withRoot s.mem h, tnRead_withRoot s.mem h, rfl, rfl⟩

/-! ### Hard reset and ALL_CLR (R263) -/

/-- Settles O38: both leave the two units closed at their reset values, so that CFG_CLEAR is accepted and empties what is left of
the configuration. -/
theorem hardResetIsAllClearAndStoreLoss : Obligations.HardResetIsAllClearAndStoreLoss := by
  unfold Obligations.HardResetIsAllClearAndStoreLoss
  intro s
  have hreset : UnitsClosed (hardReset s) := ⟨rfl, rfl⟩
  have hclear : UnitsClosed (applyOp .allClr s) := ⟨rfl, rfl⟩
  simp only [runOps, List.foldl_cons, List.foldl_nil, hreset.cfgClear_eq, hclear.cfgClear_eq]
  exact ⟨rfl, rfl, rfl⟩

/-! ### Who may change what (R120, R140, R160, R180) -/

theorem enterChild_resets (c : Handle P) (s : State P) : (enterChild c s).resets = s.resets := by
  obtain ⟨-, -, hresets, -⟩ := enterChild_frame c s
  exact hresets

/-- No operation is a hard reset. -/
theorem applyOp_resets (i : Instr P) (s : State P) : (applyOp i s).resets = s.resets := by
  cases i with
  | ctrlNop | encClr | decClr | allClr | statRd => rfl
  | cfgClear => rcases cfgClear_cases s with ⟨-, he⟩ | ⟨-, -, he⟩ <;> rw [he] <;> rfl
  | cfgCode sym len code => rcases cfgCode_cases sym len code s with ⟨-, he⟩ | ⟨-, he⟩ <;> rw [he] <;> rfl
  | cfgNode h kind left right sym => rcases cfgNode_cases h kind left right sym s with ⟨-, he⟩ | ⟨-, he⟩ <;> rw [he] <;> rfl
  | cfgRoot h => rcases cfgRoot_cases h s with ⟨-, he⟩ | ⟨-, he⟩ <;> rw [he] <;> rfl
  | encPut sym =>
    rcases encPut_cases sym s with ⟨-, he⟩ | ⟨-, -, he⟩ | ⟨-, -, -, he⟩ | ⟨-, -, -, he⟩ <;> rw [he] <;> simp
  | encEnd => rcases encEnd_cases s with ⟨-, he⟩ | ⟨-, -, he⟩ | ⟨-, -, he⟩ <;> rw [he] <;> simp
  | encPop => rcases encPop_cases s with ⟨-, he⟩ | ⟨e, rest, -, he⟩ <;> rw [he] <;> rfl
  | decBit bit =>
    rcases decBit_cases bit s with ⟨-, he⟩ | ⟨-, -, he⟩ | ⟨-, -, -, he⟩ | ⟨-, -, -, he⟩ <;> rw [he] <;> simp [enterChild_resets]
  | decEnd =>
    rcases decEnd_cases s with ⟨-, he⟩ | ⟨-, -, he⟩ | ⟨-, -, -, he⟩ | ⟨-, -, -, he⟩ <;> rw [he] <;> simp
  | decPop => rcases decPop_cases s with ⟨-, he⟩ | ⟨e, rest, -, he⟩ <;> rw [he] <;> rfl

/-- Settles O41, port by port; the clears of port 0 and CTRL_NOP by their writes. -/
theorem operationsKeepToTheirUnit : Obligations.OperationsKeepToTheirUnit := by
  unfold Obligations.OperationsKeepToTheirUnit
  intro i s t hexec
  obtain rfl := exec_eq_next_iff.1 hexec
  refine ⟨?_, ?_, fun h => ⟨applyOp_enc (.inl h) s, applyOp_dec (.inl h) s⟩, fun h => applyOp_mem (by simp [h]) s, ?_,
    applyOp_resets i s, applyOp_events i s⟩
  · rintro (h | h | rfl)
    · exact ⟨applyOp_mem (by simp [h]) s, applyOp_dec (.inr (.inl h)) s⟩
    · exact ⟨applyOp_mem (by simp [h]) s, applyOp_dec (.inr (.inr h)) s⟩
    · exact ⟨rfl, rfl⟩
  · rintro (h | h | rfl)
    · exact ⟨applyOp_mem (by simp [h]) s, applyOp_enc (.inr (.inl h)) s⟩
    · exact ⟨applyOp_mem (by simp [h]) s, applyOp_enc (.inr (.inr h)) s⟩
    · exact ⟨rfl, rfl⟩
  · rintro (h | rfl)
    · exact ⟨applyOp_mem (by simp [h]) s, applyOp_stat_units h s⟩
    · exact ⟨rfl, rfl, rfl⟩

/-! ### Refusals (R220) -/

/-- The two answers of a refusal (R220): neither records a fault. -/
@[simp] def Response.IsRefusal (r : Response P) : Prop := r = .code .errFaulted ∨ r = .code .errBusy

/-- A CFG operation that is refused is busy, and writes its answer and nothing else (R121). -/
theorem cfg_of_refusal {i : Instr P} {s : State P} (hi : i.chan = 1) (h : (applyOp i s).resp.IsRefusal) :
    applyOp i s = respond (applyOp i s).resp s := by
  rcases cfg_outcome hi s with ⟨-, he⟩ | ⟨-, hok⟩
  · rw [he]; rfl
  · simp [hok] at h

/-- An operation that is refused writes its answer and nothing else: every outcome that writes more has another answer. -/
theorem applyOp_of_refusal {i : Instr P} {s : State P} (h : (applyOp i s).resp.IsRefusal) :
    applyOp i s = respond (applyOp i s).resp s := by
  cases i with
  | ctrlNop | statRd => rfl
  | encClr => simp [applyOp_encClr] at h
  | decClr => simp [applyOp_decClr] at h
  | allClr => simp [applyOp_allClr] at h
  | cfgClear | cfgCode | cfgNode | cfgRoot => exact cfg_of_refusal rfl h
  | encPut sym =>
    rcases encPut_cases sym s with ⟨-, he⟩ | ⟨-, -, he⟩ | ⟨-, -, -, he⟩ | ⟨-, -, -, he⟩
    · rw [he]; rfl
    · simp [he] at h
    · rw [he]; rfl
    · simp [he] at h
  | encEnd =>
    rcases encEnd_cases s with ⟨-, he⟩ | ⟨-, -, he⟩ | ⟨-, -, he⟩
    · rw [he]; rfl
    · rw [he]; rfl
    · simp [he] at h
  | encPop =>
    rcases encPop_cases s with ⟨-, he⟩ | ⟨e, rest, -, he⟩
    · rw [he]; rfl
    · simp [he] at h
  | decBit bit =>
    rcases decBit_cases bit s with ⟨-, he⟩ | ⟨-, -, he⟩ | ⟨-, -, -, he⟩ | ⟨-, -, -, he⟩
    · rw [he]; rfl
    · rw [he]; rfl
    · simp [he] at h
    · rw [he, enterChild_resp] at h
      split at h <;> simp at h
  | decEnd =>
    rcases decEnd_cases s with ⟨-, he⟩ | ⟨-, -, he⟩ | ⟨-, -, -, he⟩ | ⟨-, -, -, he⟩
    · rw [he]; rfl
    · rw [he]; rfl
    · simp [he] at h
    · simp [he] at h
  | decPop =>
    rcases decPop_cases s with ⟨-, he⟩ | ⟨e, rest, -, he⟩
    · rw [he]; rfl
    · simp [he] at h

/-- Settles O12: the state after a refusal is the state before it with the answer. -/
theorem refusalsChangeNothing : Obligations.RefusalsChangeNothing := by
  unfold Obligations.RefusalsChangeNothing
  intro i s t c hexec hresp hc
  obtain rfl := exec_eq_next_iff.1 hexec
  have hrefused : (applyOp i s).resp.IsRefusal := hresp ▸ hc.imp (congrArg _) (congrArg _)
  exact (applyOp_of_refusal hrefused).trans (congrArg (respond · s) hresp)

end Sys2Proof.Machine
end

section
/-! PROOFS. Single operations of the encoder (R141 to R143): which outcome of an ENC_PUT or ENC_END is answered `OK`, the end entry of
ENC_END, the head entry that ENC_POP answers; and no port-2 or port-3 operation reads the node store, `ROOT` or the decoder (R140). -/

namespace Sys2Proof.Machine

open Sys2Proof

variable {P : Params}

/-! ### The outcomes answered `OK` (R141, R142) -/

/-- An ENC_PUT answered `OK` appends the symbol's code. -/
theorem encPut_of_ok {sym : Symbol P} {s : State P} (h : (applyOp (.encPut sym) s).resp = .code .ok) :
    applyOp (.encPut sym) s = appendCode (ctRead s.mem sym) s := by
  rcases encPut_cases sym s with ⟨-, he⟩ | ⟨-, -, he⟩ | ⟨-, -, -, he⟩ | ⟨-, -, -, he⟩
  · simp [he] at h
  · simp [he] at h
  · simp [he] at h
  · exact he

/-- An ENC_END answered `OK` ends the stream. -/
theorem encEnd_of_ok {s : State P} (h : (applyOp .encEnd s).resp = .code .ok) : applyOp .encEnd s = endEncStream s := by
  rcases encEnd_cases s with ⟨-, he⟩ | ⟨-, -, he⟩ | ⟨-, -, he⟩
  · simp [he] at h
  · simp [he] at h
  · exact he

/-! ### ENC_END and ENC_POP (R142, R143) -/

/-- Settles O24, outcome by outcome; the end entry is that of `endWord`. -/
theorem encEndPushesEndEntry : Obligations.EncEndPushesEndEntry := by
  unfold Obligations.EncEndPushesEndEntry
  intro s hacc
  rcases encEnd_cases s with ⟨hf, he⟩ | ⟨hf, hq, he⟩ | ⟨hf, hq, he⟩
  · exact ⟨fun _ => exec_eq_next_iff.2 he, fun hf' => absurd hf' hf, fun hf' => absurd hf' hf⟩
  · exact ⟨fun hf' => absurd hf hf', fun _ _ => exec_eq_next_iff.2 he, fun _ hq' => absurd hq hq'⟩
  · have henc := endEncStream_enc s
    exact ⟨fun hf' => absurd hf hf', fun _ hq' => absurd hq' hq, fun _ _ =>
      ⟨endEncStream s, endWord s.enc.acc, exec_eq_next_iff.2 he, endEncStream_resp s, congrArg EncUnit.q henc, rfl,
        endWord_vbits _ hacc, unpackbits_endWord _ hacc, endWord_padding _ hacc, congrArg EncUnit.acc henc,
        congrArg EncUnit.isOpen henc, (congrArg EncUnit.fault henc).trans hf, (congrArg EncUnit.errsym henc).trans rfl,
        congrArg EncUnit.bits henc, congrArg EncUnit.syms henc, endEncStream_mem s, endEncStream_dec s⟩⟩

/-- Settles O25: the queue is empty, or its head is answered and offered with its fields at their places. -/
theorem encPopTakesHead : Obligations.EncPopTakesHead := by
  unfold Obligations.EncPopTakesHead
  intro s
  rcases encPop_cases s with ⟨hq, he⟩ | ⟨e, rest, hq, he⟩
  · exact ⟨fun e rest hq' => by simp [hq] at hq', fun _ => ⟨exec_eq_next_iff.2 he, by simp [wordOutData, hq]⟩⟩
  · refine ⟨fun e' rest' hq' => ?_, fun hq' => by simp [hq] at hq'⟩
    obtain ⟨rfl, rfl⟩ := List.cons.inj (hq.symm.trans hq')
    exact ⟨exec_eq_next_iff.2 he, e.toBits, by simp [wordOutData, hq], e.toBits_data, e.toBits_vbits, e.toBits_last⟩

/-! ### What a port-2 or port-3 operation reads (R140, R247) -/

/-- What an encoder operation writes to the encoder and answers is said of the codes and the encoder. -/
theorem encoderOp_congr {i : Instr P} {s t : State P} (hi : i.chan = 2 ∨ i.chan = 3)
    (hcodes : ∀ sym, ctRead s.mem sym = ctRead t.mem sym) (he : s.enc = t.enc) :
    (applyOp i s).enc = (applyOp i t).enc ∧ (applyOp i s).resp = (applyOp i t).resp := by
  cases i with
  | encPut sym =>
    have hwords := wordsCompleted_congr he
    simp only [applyOp, perform, execEncPut, he, hcodes, hwords]
    split_ifs <;> simp [he, hwords]
  | encEnd =>
    simp only [applyOp, perform, execEncEnd, he]
    split_ifs <;> simp [he]
  | encPop =>
    simp only [applyOp, perform, execEncPop, he]
    split <;> simp [he]
  | ctrlNop | encClr | decClr | allClr | cfgClear | cfgCode | cfgNode | cfgRoot | decBit | decEnd | decPop | statRd =>
    simp [Instr.chan] at hi

/-- Settles O43: each operation's tests and writes are said of the codes and the encoder. -/
theorem encoderDoesNotSeeDecoder : Obligations.EncoderDoesNotSeeDecoder := by
  unfold Obligations.EncoderDoesNotSeeDecoder
  intro i s s' t t' hi hcodes he ht ht'
  obtain rfl := exec_eq_next_iff.1 ht
  obtain rfl := exec_eq_next_iff.1 ht'
  exact encoderOp_congr hi hcodes he

end Sys2Proof.Machine
end

section
/-! PROOFS. An encoder stream in a run (R144, R200): between two accepted port-2 operations nothing of the encoder but its FIFO changes,
so a run is played by its accepted port-2 operations alone; those append the codes of the text to what waits, and end it. -/

namespace Sys2Proof.Machine

open Sys2Proof

variable {P : Params}

/-! ### Operations that leave an encoder stream alone -/

/-- The host's side of an encoder run (R200): no clear of the encoder, and no write to `CT` that is answered `OK`. -/
def EncUndisturbed (s : State P) (ops : List (Instr P)) : Prop :=
  ∀ r ∈ trace ops s, r.op ≠ .encClr ∧ r.op ≠ .allClr ∧ (writesCt r.op = true → r.after.resp ≠ .code .ok)

theorem encUndisturbed_cons {s : State P} {i : Instr P} {ops : List (Instr P)} :
    EncUndisturbed s (i :: ops) ↔
      (i ≠ .encClr ∧ i ≠ .allClr ∧ (writesCt i = true → (applyOp i s).resp ≠ .code .ok)) ∧
        EncUndisturbed (applyOp i s) ops := by
  simp only [EncUndisturbed, trace, List.forall_mem_cons]

/-- From `s` to `t` the codes and the encoder stand, but for its FIFO. -/
structure EncQuiet (s t : State P) : Prop where
  codes : ∀ sym, ctRead t.mem sym = ctRead s.mem sym
  enc : ∃ q, t.enc = { s.enc with q := q }

theorem EncQuiet.of_mem_enc {s t : State P} (hm : t.mem = s.mem) (he : t.enc = s.enc) : EncQuiet s t :=
  ⟨fun _ => by rw [hm], s.enc.q, by rw [he]⟩

theorem EncQuiet.trans {s t u : State P} (h : EncQuiet s t) (h' : EncQuiet t u) : EncQuiet s u := by
  obtain ⟨q, hq⟩ := h.enc
  obtain ⟨q', hq'⟩ := h'.enc
  exact ⟨fun sym => (h'.codes sym).trans (h.codes sym), q', by rw [hq', hq]⟩

/-- A CFG operation that is not answered `OK` is refused, so nothing is written. -/
theorem encQuiet_of_refused {i : Instr P} {s : State P} (hi : i.chan = 1) (hresp : (applyOp i s).resp ≠ .code .ok) :
    EncQuiet s (applyOp i s) := by
  rcases cfg_outcome hi s with ⟨-, he⟩ | ⟨-, hok⟩
  · rw [he]
    exact .of_mem_enc rfl rfl
  · exact absurd hok hresp

/-- An operation of another port that is no clear of the encoder and no accepted write to `CT`. -/
theorem encQuiet_of_other_port {i : Instr P} {s : State P} (hi : isEncStream i = false) (hec : i ≠ .encClr) (hac : i ≠ .allClr)
    (hw : writesCt i = true → (applyOp i s).resp ≠ .code .ok) : EncQuiet s (applyOp i s) := by
  cases i with
  | encClr => exact absurd rfl hec
  | allClr => exact absurd rfl hac
  | ctrlNop | decClr | statRd => exact .of_mem_enc rfl rfl
  | cfgClear | cfgCode => exact encQuiet_of_refused rfl (hw rfl)
  | cfgNode | cfgRoot =>
    exact ⟨fun sym => (applyOp_configWrite _ s).keeps_code sym (by simp) (by simp), s.enc.q, applyOp_enc (.inl rfl) s⟩
  | decBit | decEnd | decPop =>
    exact .of_mem_enc (applyOp_mem (by simp [Instr.chan]) s) (applyOp_enc (by simp [Instr.chan]) s)
  | encPut | encEnd => cases hi
  | encPop =>
    exact ⟨fun sym => by rw [applyOp_mem (by simp [Instr.chan])], s.enc.q.tail, applyOp_encPop_enc s⟩

/-! ### A run played by its accepted port-2 operations -/

/-- From `s` to `t` the accepted port-2 operations `rs` happen and push `out`; between them the stream is left alone. -/
inductive EncPlays : State P → List (OpRecord P) → List (EncEntry P) → State P → Prop
  | done {s t : State P} (hquiet : EncQuiet s t) : EncPlays s [] [] t
  | next {s u t : State P} {i : Instr P} {rs : List (OpRecord P)} {out : List (EncEntry P)} (hquiet : EncQuiet s u)
      (hstream : isEncStream i = true) (hready : ready i u = true) (hrest : EncPlays (applyOp i u) rs out t) :
      EncPlays s (⟨i, u, applyOp i u⟩ :: rs) ((applyOp i u).enc.q.drop u.enc.q.length ++ out) t

theorem EncPlays.of_quiet {s t v : State P} {rs : List (OpRecord P)} {out : List (EncEntry P)} (hq : EncQuiet s t)
    (h : EncPlays t rs out v) : EncPlays s rs out v := by
  cases h with
  | done hquiet => exact .done (hq.trans hquiet)
  | next hquiet hstream hready hrest => exact .next (hq.trans hquiet) hstream hready hrest

section Trace

variable {i : Instr P} {s : State P} {ops : List (Instr P)}

theorem encAccepted_cons : encAccepted (trace (i :: ops) s) =
    if isEncStream i && ready i s then ⟨i, s, applyOp i s⟩ :: encAccepted (trace ops (applyOp i s))
    else encAccepted (trace ops (applyOp i s)) := by
  rw [← accepted_eq_ready]
  exact List.filter_cons

theorem encOut_cons : encOut (trace (i :: ops) s) =
    (if isEncStream i then (applyOp i s).enc.q.drop s.enc.q.length else []) ++ encOut (trace ops (applyOp i s)) := by
  cases h : isEncStream i <;> simp [encOut, trace, h]

/-- An operation of an undisturbed run that is no accepted port-2 operation leaves the stream alone and pushes nothing. -/
theorem encQuiet_of_not_accepted (h : (isEncStream i && ready i s) = false) (hu : EncUndisturbed s (i :: ops)) :
    EncQuiet s (applyOp i s) ∧ encOut (trace (i :: ops) s) = encOut (trace ops (applyOp i s)) := by
  obtain ⟨⟨hec, hac, hw⟩, -⟩ := encUndisturbed_cons.1 hu
  rw [encOut_cons]
  cases hi : isEncStream i with
  | false => exact ⟨encQuiet_of_other_port hi hec hac hw, rfl⟩
  | true =>
    have hr : applyOp i s = notReady s := applyOp_of_not_ready (by simpa [hi] using h)
    rw [hr]
    exact ⟨.of_mem_enc rfl rfl, by simp⟩

/-- Every undisturbed run is played by its accepted port-2 operations: by induction on the run. -/
theorem encPlays_of_undisturbed (hu : EncUndisturbed s ops) :
    EncPlays s (encAccepted (trace ops s)) (encOut (trace ops s)) (runOps ops s) := by
  induction ops generalizing s with
  | nil => exact .done (.of_mem_enc rfl rfl)
  | cons i ops ih =>
    have hrest := ih (encUndisturbed_cons.1 hu).2
    rw [encAccepted_cons]
    cases h : isEncStream i && ready i s with
    | true =>
      obtain ⟨hi, hr⟩ := Bool.and_eq_true_iff.1 h
      rw [encOut_cons, if_pos hi, if_pos rfl]
      exact .next (.of_mem_enc rfl rfl) hi hr hrest
    | false =>
      obtain ⟨hquiet, hout⟩ := encQuiet_of_not_accepted h hu
      rw [hout]
      exact hrest.of_quiet hquiet

end Trace

/-! ### The bits of a text, and the entries that carry them (R35, R144) -/

/-- The codes of a text, one after another (R144). -/
def textBits (m : Memory P) (text : List (Symbol P)) : Bits := text.flatMap fun sym => codebits (ctRead m sym)

theorem textBits_cons (m : Memory P) (sym : Symbol P) (text : List (Symbol P)) :
    textBits m (sym :: text) = codebits (ctRead m sym) ++ textBits m text := rfl

theorem textBits_length (m : Memory P) (text : List (Symbol P)) :
    (textBits m text).length = (text.map fun sym => (ctRead m sym).len.toNat).sum := by
  simp [textBits, List.length_flatMap]

/-- Full words and then one end entry, which counts what `n` bits leave over (R144). -/
def EndsStream (n : Nat) (out : List (EncEntry P)) : Prop :=
  ∃ full e, out = full ++ [e] ∧ (∀ w ∈ full, w.last = false ∧ w.vbits.toNat = P.WORD_W) ∧ e.last = true ∧
    e.vbits.toNat = n % P.WORD_W

theorem endsStream_endWord {acc : Bits} (h : acc.length < P.WORD_W) : EndsStream acc.length [(endWord acc : EncEntry P)] :=
  ⟨[], endWord acc, rfl, by simp, rfl, by rw [endWord_vbits acc h, Nat.mod_eq_of_lt h]⟩

/-- Full words may stand before such entries. -/
theorem EndsStream.fullWords_append {n : Nat} {out : List (EncEntry P)} (h : EndsStream n out) (bits : Bits) (k : Nat) :
    EndsStream n (fullWords bits k ++ out) := by
  obtain ⟨full, e, rfl, hfull, hlast, hvbits⟩ := h
  refine ⟨fullWords bits k ++ full, e, (List.append_assoc ..).symm, fun w hw => ?_, hlast, hvbits⟩
  rcases List.mem_append.1 hw with hw | hw
  · exact (fullWords_full hw).symm
  · exact hfull w hw

/-! ### The stream in a run (R144) -/

/-- What `enc_bits` counts on from: its value, or 0 in a new stream (R36). -/
def EncUnit.startBits (u : EncUnit P) : Count P := if u.isOpen then u.bits else 0

/-- What `enc_syms` counts on from: its value, or 0 in a new stream (R36). -/
def EncUnit.startSyms (u : EncUnit P) : Count P := if u.isOpen then u.syms else 0

/-- What a stream of `text`, its codes those of `m`, pushes from the encoder `u`, and the counters of the encoder `v` it ends in. -/
structure EncStream (m : Memory P) (text : List (Symbol P)) (u : EncUnit P) (out : List (EncEntry P)) (v : EncUnit P) : Prop where
  bits : unpack out = u.acc ++ textBits m text
  form : EndsStream (u.acc.length + (textBits m text).length) out
  symCount : v.syms = u.startSyms + BitVec.ofNat P.CNT_W text.length
  bitCount : v.bits = u.startBits + BitVec.ofNat P.CNT_W (textBits m text).length

section Stream

variable {m : Memory P} {text : List (Symbol P)} {sym : Symbol P} {out : List (EncEntry P)} {s t : State P} {v : EncUnit P}

theorem EncQuiet.acc (h : EncQuiet s t) : t.enc.acc = s.enc.acc := by
  obtain ⟨q, he⟩ := h.enc
  rw [he]

theorem EncStream.of_quiet (hq : EncQuiet s t) (h : EncStream m text t.enc out v) : EncStream m text s.enc out v := by
  obtain ⟨q, he⟩ := hq.enc
  rw [he] at h
  exact ⟨h.bits, h.form, h.symCount, h.bitCount⟩

/-- A stream with no symbol left: the end entry carries what waits. -/
theorem encStream_of_end (hacc : s.enc.acc.length < P.WORD_W) (hq : EncQuiet (endEncStream s) t) :
    EncStream m [] s.enc [endWord s.enc.acc] t.enc := by
  obtain ⟨q, he⟩ := hq.enc
  rw [he, endEncStream_enc]
  refine ⟨?_, endsStream_endWord hacc, (BitVec.add_zero _).symm, (BitVec.add_zero _).symm⟩
  simpa [unpack, textBits] using unpackbits_endWord s.enc.acc hacc

/-- One symbol more in front of a stream: its code joins what waits. -/
theorem encStream_of_put (htail : EncStream m text (appendCode (ctRead m sym) s).enc out v) :
    EncStream m (sym :: text) s.enc
      (fullWords (s.enc.acc ++ codebits (ctRead m sym)) (wordsCompleted s (ctRead m sym).len.toNat) ++ out) v := by
  have hacc := appendCode_acc_length (ctRead m sym) s
  constructor
  · rw [unpack_append, htail.bits, ← List.append_assoc, unpack_appendCode, textBits_cons, List.append_assoc]
  · obtain ⟨full, e, hout, hfull, hlast, hvbits⟩ := htail.form.fullWords_append _ _
    refine ⟨full, e, hout, hfull, hlast, ?_⟩
    rw [hvbits, hacc, Nat.mod_add_mod, textBits_cons, List.length_append, codebits_length, Nat.add_assoc]
  · rw [htail.symCount, List.length_cons, Nat.add_comm, BitVec.ofNat_add, ← BitVec.add_assoc]
    simp [EncUnit.startSyms]
  · rw [htail.bitCount, textBits_cons, List.length_append, codebits_length, BitVec.ofNat_add, ← BitVec.add_assoc]
    simp [EncUnit.startBits]

/-- The puts of a text and one end, all answered `OK`, are a stream of the text: by induction on the text, each of its symbols the next
accepted operation. -/
theorem EncPlays.stream {rs : List (OpRecord P)} (h : EncPlays s rs out t) (hops : rs.map OpRecord.op = encodeOps text)
    (hok : ∀ r ∈ rs, r.after.resp = .code .ok) (hcodes : ∀ sym, ctRead s.mem sym = ctRead m sym)
    (hacc : s.enc.acc.length < P.WORD_W) : EncStream m text s.enc out t.enc := by
  induction text generalizing s rs out with
  | nil =>
    cases h with
    | done => cases hops
    | next hquiet _ _ hrest =>
      obtain ⟨rfl, hnil⟩ := List.cons.inj hops
      obtain rfl := List.map_eq_nil_iff.1 hnil
      have hend := encEnd_of_ok (hok _ List.mem_cons_self)
      rw [hend] at hrest ⊢
      cases hrest with
      | done hlast =>
        rw [endEncStream_enc, List.drop_left, List.append_nil]
        exact (encStream_of_end (hquiet.acc ▸ hacc) hlast).of_quiet hquiet
  | cons sym text ih =>
    cases h with
    | done => cases hops
    | next hquiet _ _ hrest =>
      obtain ⟨rfl, htops⟩ := List.cons.inj hops
      obtain ⟨hputOk, hoks⟩ := List.forall_mem_cons.1 hok
      have hput := encPut_of_ok hputOk
      rw [hquiet.codes, hcodes] at hput
      rw [hput] at hrest ⊢
      have htail := ih hrest htops hoks (fun x => by rw [appendCode_mem, hquiet.codes, hcodes])
        (by rw [appendCode_acc_length]; exact Nat.mod_lt _ P.wordW_pos)
      rw [appendCode_enc, List.drop_left]
      exact (encStream_of_put htail).of_quiet hquiet

end Stream

/-- Settles O49: the run is played by its accepted operations, which are a stream of the text; a closed unit has no bits waiting and
counts from 0. -/
theorem encodedStreamIsCodesInOrder : Obligations.EncodedStreamIsCodesInOrder := by
  unfold Obligations.EncodedStreamIsCodesInOrder
  intro s text ops hinv hrun hok
  obtain ⟨hclosed, hops, hundisturbed⟩ := hrun
  obtain ⟨hacc, -, hempty, -⟩ := hinv
  have hstream := (encPlays_of_undisturbed hundisturbed).stream hops hok (fun _ => rfl) hacc
  obtain ⟨hbits, hform, hsyms, hcount⟩ := hstream
  obtain ⟨hnone, -⟩ := hempty hclosed
  rw [← textBits_length]
  refine ⟨?_, ?_, ?_, ?_⟩
  · rw [hbits, hnone]
    rfl
  · rw [hnone, List.length_nil, Nat.zero_add] at hform
    exact hform
  · rw [hsyms]
    simp [EncUnit.startSyms, hclosed]
  · rw [hcount]
    simp [EncUnit.startBits, hclosed]

end Sys2Proof.Machine
end

section
/-! PROOFS. The operations of the decoder's two ports (R160 to R163): the outcomes of DEC_END, the head entry that DEC_POP answers; and
no port-4 or port-5 operation reads the code table or the encoder (R160, R247). -/

namespace Sys2Proof.Machine

open Sys2Proof

variable {P : Params}

/-! ### What a port-4 or port-5 operation reads (R160, R247) -/

section Reads

variable {s t : State P} (hnodes : ∀ h, tnRead s.mem h = tnRead t.mem h) (hd : s.dec = t.dec)

include hnodes hd

/-- What the step down to a child writes to the decoder and answers is said of the nodes and the decoder. -/
theorem enterChild_dec_congr (c : Handle P) :
    (enterChild c s).dec = (enterChild c t).dec ∧ (enterChild c s).resp = (enterChild c t).resp := by
  unfold enterChild
  rw [hnodes]
  cases (tnRead t.mem c).kind <;> simp [hd]

/-- What a decoder operation writes to the decoder and answers is said of the nodes, `ROOT` and the decoder. -/
theorem decoderOp_congr {i : Instr P} (hi : i.chan = 4 ∨ i.chan = 5) (hroot : s.mem.root = t.mem.root) :
    (applyOp i s).dec = (applyOp i t).dec ∧ (applyOp i s).resp = (applyOp i t).resp := by
  cases i with
  | decBit bit =>
    have hpos : decPosition s = decPosition t := by rw [decPosition, decPosition, hd, hroot]
    simp only [applyOp, perform, execDecBit, hd, hnodes, hpos]
    split_ifs
    · simp [hd]
    · simp [hd]
    · simp [hd]
    · exact enterChild_dec_congr (by simpa using hnodes) (by simp [hd]) _
  | decEnd =>
    simp only [applyOp, perform, execDecEnd, hd]
    split_ifs <;> simp [hd]
  | decPop =>
    simp only [applyOp, perform, execDecPop, hd]
    split <;> simp [hd]
  | ctrlNop | encClr | decClr | allClr | cfgClear | cfgCode | cfgNode | cfgRoot | encPut | encEnd | encPop | statRd =>
    simp [Instr.chan] at hi

end Reads

/-- Settles O44: each operation's tests and writes are said of the nodes, `ROOT` and the decoder. -/
theorem decoderDoesNotSeeEncoder : Obligations.DecoderDoesNotSeeEncoder := by
  unfold Obligations.DecoderDoesNotSeeEncoder
  intro i s s' t t' hi hnodes hroot hd ht ht'
  obtain rfl := exec_eq_next_iff.1 ht
  obtain rfl := exec_eq_next_iff.1 ht'
  exact decoderOp_congr hnodes hd hi hroot

/-! ### DEC_END (R162) -/

/-- DEC_END mid-path (R162 lines 3 to 7), as one update of the state. -/
theorem truncateDecStream_eq (s : State P) :
    truncateDecStream s =
      { s with
        dec := { s.dec with
          q := s.dec.q ++ [endEntry true]
          isOpen := true
          fault := .truncated
          bits := if s.dec.isOpen then s.dec.bits else 0
          syms := if s.dec.isOpen then s.dec.syms else 0 }
        resp := .code .errTruncatedStream } :=
  State.ext_fields (truncateDecStream_mem s) (truncateDecStream_enc s) (truncateDecStream_dec s) (truncateDecStream_resets s)
    (truncateDecStream_events s) (truncateDecStream_resp s)

/-- DEC_END at the root (R162 lines 3 and 8 to 10), as one update of the state. -/
theorem endDecStream_eq (s : State P) :
    endDecStream s =
      { s with
        dec := { s.dec with
          q := s.dec.q ++ [endEntry false]
          isOpen := false
          bits := if s.dec.isOpen then s.dec.bits else 0
          syms := if s.dec.isOpen then s.dec.syms else 0 }
        resp := .code .ok } :=
  State.ext_fields (endDecStream_mem s) (endDecStream_enc s) (endDecStream_dec s) (endDecStream_resets s)
    (endDecStream_events s) (endDecStream_resp s)

/-- Settles O32, outcome by outcome: each one's conditions exclude the other three clauses. -/
theorem decEndClosesOrTruncates : Obligations.DecEndClosesOrTruncates := by
  unfold Obligations.DecEndClosesOrTruncates
  intro s
  rcases decEnd_cases s with ⟨hf, he⟩ | ⟨hf, hq, he⟩ | ⟨hf, hq, hm, he⟩ | ⟨hf, hq, hm, he⟩
  · exact ⟨fun _ => exec_eq_next_iff.2 he, fun hf' => absurd hf' hf, fun hf' => absurd hf' hf, fun hf' => absurd hf' hf⟩
  · exact ⟨fun hf' => absurd hf hf', fun _ _ => exec_eq_next_iff.2 he, fun _ hq' => absurd hq hq', fun _ hq' => absurd hq hq'⟩
  · exact ⟨fun hf' => absurd hf hf', fun _ hq' => absurd hq' hq, fun _ _ hm' => by simp [hm] at hm',
      fun _ _ _ => exec_eq_next_iff.2 (he.trans (truncateDecStream_eq s))⟩
  · exact ⟨fun hf' => absurd hf hf', fun _ hq' => absurd hq' hq,
      fun _ _ _ => exec_eq_next_iff.2 (he.trans (endDecStream_eq s)), fun _ _ hm' => by simp [hm] at hm'⟩

/-! ### DEC_POP (R163) -/

/-- Settles O33: the queue is empty, or its head is answered and offered with its fields at their places. -/
theorem decPopTakesHead : Obligations.DecPopTakesHead := by
  unfold Obligations.DecPopTakesHead
  intro s
  rcases decPop_cases s with ⟨hq, he⟩ | ⟨e, rest, hq, he⟩
  · exact ⟨fun e rest hq' => by simp [hq] at hq', fun _ => ⟨exec_eq_next_iff.2 he, by simp [symOutData, hq]⟩⟩
  · refine ⟨fun e' rest' hq' => ?_, fun hq' => by simp [hq] at hq'⟩
    obtain ⟨rfl, rfl⟩ := List.cons.inj (hq.symm.trans hq')
    exact ⟨exec_eq_next_iff.2 he, e.toBits, by simp [symOutData, hq], e.toBits_sym, e.toBits_last, e.toBits_trunc⟩

end Sys2Proof.Machine
end

section
/-! PROOFS. The system operations (R181 to R185): what the clears leave, and that STAT_RD leaves what it reads. -/

namespace Sys2Proof.Machine

open Sys2Proof

variable {P : Params}

/-! ### The clears (R181 to R184) -/

/-- Settles O34: each clear is its unit's reset writes followed by the answer `OK`, whatever the state. -/
theorem clearsGiveResetValues : Obligations.ClearsGiveResetValues := by
  unfold Obligations.ClearsGiveResetValues
  intro s
  exact ⟨exec_eq_next_iff.2 (applyOp_ctrlNop s), exec_eq_next_iff.2 (applyOp_encClr s), exec_eq_next_iff.2 (applyOp_decClr s),
    exec_eq_next_iff.2 (applyOp_allClr s)⟩

/-! ### STAT_RD (R185) -/

/-- The answer of an operation is no part of what STATUS shows. -/
theorem statusRead_respond (idx : BitVec 4) (r : Response P) (s : State P) :
    statusRead idx (respond r s) = statusRead idx s :=
  statusRead_congr rfl rfl rfl idx

/-- A second STAT_RD of the same index leaves the state that the first one left. -/
theorem statRd_idempotent (idx : BitVec 4) (s : State P) :
    applyOp (.statRd idx) (applyOp (.statRd idx) s) = applyOp (.statRd idx) s := by
  simp only [applyOp_statRd, statusRead_respond]
  rfl

/-- Settles O35: the value is that of the state before, of which the answer is no part, so that the second read finds it again. -/
theorem statRdReadsWithoutEffect : Obligations.StatRdReadsWithoutEffect := by
  unfold Obligations.StatRdReadsWithoutEffect
  intro idx s
  exact ⟨_, exec_eq_applyOp (.statRd idx) s, applyOp_statRd idx s, exec_eq_next_iff.2 (statRd_idempotent idx s)⟩

end Sys2Proof.Machine
end

section
/-! PROOFS. The laws that join the two stores (R201 to R205): the code of a symbol in the alphabet is the path of its leaf, so no
code is the beginning of another, an encoded text is decoded to itself, and bits that stop inside a path are reported truncated. -/

namespace Sys2Proof.Machine

open Sys2Proof

variable {P : Params}

/-! ### Codes as paths (R30, R202) -/

section Codes

variable {m : Memory P} {A : Symbol P → Prop} {x : Symbol P} {p : Bits}

theorem WfTree.atInternal_root (h : WfTree m) : AtInternal m [] := ⟨m.root, rfl, h.1⟩

/-- The root is INTERNAL, so a leaf is at least one bit away from it (R29 (a)). -/
theorem WfTree.leafPath_ne_nil (h : WfTree m) (hp : LeafPath m p x) : p ≠ [] := by
  rintro rfl
  exact h.atInternal_root.not_leafPath hp

/-- The code of a symbol of the alphabet is the path of its leaf. -/
theorem ConsistentOn.leafPath_codebits (h : ConsistentOn m A) (hx : A x) : LeafPath m (codebits (ctRead m x)) x := by
  obtain ⟨⟨p, hp⟩, hcodes⟩ := h.2 x hx
  rw [(hcodes p hp).2]
  exact hp

/-- Every symbol of the alphabet has a code. -/
theorem ConsistentOn.len_ne_zero (h : ConsistentOn m A) (hx : A x) : (ctRead m x).len ≠ 0#P.LEN_W := by
  intro hlen
  refine h.1.leafPath_ne_nil (h.leafPath_codebits hx) (List.eq_nil_of_length_eq_zero ?_)
  rw [codebits_length, hlen, BitVec.toNat_zero]

/-- A consistent configuration is consistent on the symbols that have a code. -/
theorem Consistent.consistentOn (h : Consistent m) : ConsistentOn m fun sym => (ctRead m sym).len ≠ 0#P.LEN_W := by
  obtain ⟨hwf, hcodes, habsent⟩ := h
  refine ⟨hwf, fun sym hlen => ⟨?_, fun p => hcodes p sym⟩⟩
  by_contra hnone
  exact hlen (habsent sym (not_exists.1 hnone))

end Codes

/-- Settles O53: the two codes are the paths of two leaves, of which neither goes on through the other. -/
theorem consistentCodesArePrefixFree : Obligations.ConsistentCodesArePrefixFree := by
  unfold Obligations.ConsistentCodesArePrefixFree
  intro m hm a b hne ha hb hprefix
  have hon := hm.consistentOn
  exact hne ((hon.leafPath_codebits ha).eq_of_prefix (hon.leafPath_codebits hb) hprefix).2

/-! ### The length of a text's codes (R203) -/

theorem nodup_allWords (w : Nat) : (allWords w).Nodup := by
  refine List.Nodup.map_on (fun i hi j hj hij => ?_) List.nodup_range
  have := congrArg BitVec.toNat hij
  rwa [BitVec.toNat_ofNat, BitVec.toNat_ofNat, Nat.mod_eq_of_lt (List.mem_range.1 hi),
    Nat.mod_eq_of_lt (List.mem_range.1 hj)] at this

/-- A sum over the places of a list of words is a sum over all words, each as often as it occurs. -/
theorem sum_map_eq_sum_allWords {w : Nat} (text : List (BitVec w)) (f : BitVec w → Nat) :
    (text.map f).sum = ((allWords w).map fun x => text.count x * f x).sum := by
  calc (text.map f).sum
      = ∑ x ∈ text.toFinset, text.count x * f x := Finset.sum_list_map_count text f
    _ = ∑ x ∈ (allWords w).toFinset, text.count x * f x :=
        Finset.sum_subset (fun x _ => List.mem_toFinset.2 (mem_allWords x)) fun x _ hx => by
          rw [List.count_eq_zero_of_not_mem (mt List.mem_toFinset.2 hx), Nat.zero_mul]
    _ = ((allWords w).map fun x => text.count x * f x).sum := List.sum_toFinset _ (nodup_allWords w)

/-- Settles O50: the bits are the codes in order, whose lengths are summed by place or by symbol. -/
theorem lengthLaw : Obligations.LengthLaw := by
  unfold Obligations.LengthLaw
  intro s text ops hinv hrun hok
  obtain ⟨hbits, -, hsyms, hcount⟩ := encodedStreamIsCodesInOrder s text ops hinv hrun hok
  have hlen : (unpack (encOut (trace ops s))).length = (text.map fun sym => (ctRead s.mem sym).len.toNat).sum := by
    rw [hbits]
    exact textBits_length s.mem text
  refine ⟨hlen, ?_, hlen ▸ hcount, hsyms⟩
  rw [hlen, sum_map_eq_sum_allWords, allWords, List.map_map]
  rfl

/-! ### A text over the alphabet is encoded without a fault (R201, R204) -/

/-- An ENC_PUT that is not `NotReady`: the room in the FIFO plays no further part (R141). -/
theorem encPut_of_ready {sym : Symbol P} {s : State P} (h : ready (.encPut sym) s = true) :
    applyOp (.encPut sym) s =
      if s.enc.fault ≠ .none then respCode .errFaulted s
      else if (ctRead s.mem sym).len = 0#P.LEN_W then raise (.unknownSymbol sym) (zeroEncCountersIfClosed s)
      else appendCode (ctRead s.mem sym) s := by
  have hresp := applyOp_resp_of_ready h
  rcases encPut_cases sym s with ⟨hf, he⟩ | ⟨hf, hl, he⟩ | ⟨-, -, -, he⟩ | ⟨hf, hl, -, he⟩
  · rw [he, if_pos hf]
  · rw [he, if_neg (not_not.2 hf), if_pos hl]
  · exact absurd (by rw [he, notReady_resp]) hresp
  · rw [he, if_neg (not_not.2 hf), if_neg hl]

/-- An ENC_END that is not `NotReady` (R142). -/
theorem encEnd_of_ready {s : State P} (h : ready .encEnd s = true) :
    applyOp .encEnd s = if s.enc.fault ≠ .none then respCode .errFaulted s else endEncStream s := by
  have hresp := applyOp_resp_of_ready h
  rcases encEnd_cases s with ⟨hf, he⟩ | ⟨-, -, he⟩ | ⟨hf, -, he⟩
  · rw [he, if_pos hf]
  · exact absurd (by rw [he, notReady_resp]) hresp
  · rw [he, if_neg (not_not.2 hf)]

section NoFault

variable {m : Memory P} {A : Symbol P → Prop} {text : List (Symbol P)} {ops : List (Instr P)} {rs : List (OpRecord P)}
  {out : List (EncEntry P)} {s t : State P}

theorem EncQuiet.fault (h : EncQuiet s t) : t.enc.fault = s.enc.fault := by
  obtain ⟨q, he⟩ := h.enc
  rw [he]

/-- A stream whose symbols all have a code is answered `OK` throughout: by induction on the text, each of its symbols the next
accepted operation. -/
theorem EncPlays.answers_ok (h : EncPlays s rs out t) (hops : rs.map OpRecord.op = encodeOps text)
    (hcodes : ∀ sym, ctRead s.mem sym = ctRead m sym) (hfault : s.enc.fault = .none)
    (hlen : ∀ x ∈ text, (ctRead m x).len ≠ 0#P.LEN_W) : ∀ r ∈ rs, r.after.resp = .code .ok := by
  induction text generalizing s rs out with
  | nil =>
    cases h with
    | done => cases hops
    | next hquiet _ hready hrest =>
      obtain ⟨rfl, hnil⟩ := List.cons.inj hops
      obtain rfl := List.map_eq_nil_iff.1 hnil
      rw [encEnd_of_ready hready, if_neg (not_not.2 (hquiet.fault.trans hfault))]
      exact List.forall_mem_singleton.2 (endEncStream_resp _)
  | cons sym text ih =>
    cases h with
    | done => cases hops
    | next hquiet _ hready hrest =>
      obtain ⟨rfl, htops⟩ := List.cons.inj hops
      obtain ⟨hsym, htext⟩ := List.forall_mem_cons.1 hlen
      have hf := hquiet.fault.trans hfault
      have hread : ∀ x, ctRead _ x = ctRead m x := fun x => (hquiet.codes x).trans (hcodes x)
      have hput := encPut_of_ready hready
      rw [if_neg (not_not.2 hf), hread, if_neg hsym] at hput
      rw [hput] at hrest ⊢
      refine List.forall_mem_cons.2 ⟨appendCode_resp _ _, ih hrest htops ?_ ?_ htext⟩
      · simpa using hread
      · simpa using hf

/-- The run of a text over the alphabet is answered `OK` throughout. -/
theorem ConsistentOn.encRun_ok (h : ConsistentOn s.mem A) (htext : ∀ x ∈ text, A x) (hinv : s.enc.Inv)
    (hrun : EncRun s text ops) : ∀ r ∈ encAccepted (trace ops s), r.after.resp = .code .ok := by
  obtain ⟨hclosed, hops, hundisturbed⟩ := hrun
  obtain ⟨-, -, hempty, -⟩ := hinv
  exact (encPlays_of_undisturbed hundisturbed).answers_ok hops (fun _ => rfl) (hempty hclosed).2
    fun x hx => h.len_ne_zero (htext x hx)

/-- What the run of a text over the alphabet pushes carries the text's codes (R144). -/
theorem ConsistentOn.unpack_encOut {s : State} {A : Symbol → Prop} {text : List Symbol} {ops : List Instr}
    (h : ConsistentOn s.mem A) (htext : ∀ x ∈ text, A x) (hinv : s.enc.Inv) (hrun : EncRun s text ops) :
    unpack (encOut (trace ops s)) = textBits s.mem text :=
  (encodedStreamIsCodesInOrder s text ops hinv hrun (h.encRun_ok htext hinv hrun)).1

theorem textBits_concat (m : Memory P) (text : List (Symbol P)) (x : Symbol P) :
    textBits m (text ++ [x]) = textBits m text ++ codebits (ctRead m x) := by
  rw [textBits, List.flatMap_append, List.flatMap_singleton]
  rfl

end NoFault

/-! ### A text's codes as a walk (R201, R205) -/

section Decode

variable {m m' : Memory P} {A : Symbol P → Prop} {text : List (Symbol P)} {bits rest : Bits}
  {paths : List (Bits × Symbol P)} {s : State P} {ops : List (Instr P)}

/-- The paths that the codes of a text are. -/
def textPaths (m : Memory P) (text : List (Symbol P)) : List (Bits × Symbol P) :=
  text.map fun x => (codebits (ctRead m x), x)

theorem textPaths_flatMap (m : Memory P) (text : List (Symbol P)) :
    (textPaths m text).flatMap Prod.fst = textBits m text := by
  rw [textPaths, List.flatMap_map]
  rfl

/-- In a tree with the same contents they are root-to-leaf paths, each to its symbol. -/
theorem ConsistentOn.textPaths_leafPath (h : ConsistentOn m A) (htext : ∀ x ∈ text, A x) (hroot : m'.root = m.root)
    (hnodes : ∀ k, tnRead m' k = tnRead m k) : ∀ q ∈ textPaths m text, LeafPath m' q.1 q.2 := by
  intro q hq
  obtain ⟨x, hx, rfl⟩ := List.mem_map.1 hq
  exact (h.leafPath_codebits (htext x hx)).congr hroot hnodes

theorem AtInternal.congr {p : Bits} (hroot : m'.root = m.root) (hnodes : ∀ k, tnRead m' k = tnRead m k) (h : AtInternal m p) :
    AtInternal m' p := by
  obtain ⟨k, hk, hi⟩ := h
  exact ⟨k, by rw [node, hroot, nodeFrom_congr hnodes]; exact hk, by rwa [hnodes]⟩

/-- A list that ends alike under two maps. -/
theorem getLast?_of_map_eq_concat {α β γ : Type} {l : List α} {f : α → β} {g : α → γ} {bs : List β} {cs : List γ} {b : β}
    {c : γ} (hf : l.map f = bs ++ [b]) (hg : l.map g = cs ++ [c]) : ∃ a, l.getLast? = some a ∧ f a = b ∧ g a = c := by
  have hb : (l.map f).getLast? = some b := by rw [hf, List.getLast?_concat]
  have hc : (l.map g).getLast? = some c := by rw [hg, List.getLast?_concat]
  rw [List.getLast?_map] at hb hc
  obtain ⟨a, ha, hfa⟩ := Option.map_eq_some_iff.1 hb
  rw [ha, Option.map_some, Option.some.injEq] at hc
  exact ⟨a, ha, hfa, hc⟩

/-- How a decoder run over paths and a remainder ends: with DEC_END, which finds the unit mid-path when there is a remainder (R162). -/
theorem decEnd_of_decRun (hinv : s.dec.Inv) (hpaths : ∀ q ∈ paths, LeafPath s.mem q.1 q.2) (hrest : AtInternal s.mem rest)
    (hrun : DecRun s (paths.flatMap Prod.fst ++ rest) ops) :
    ∃ r, (decAccepted (trace ops s)).getLast? = some r ∧ r.op = .decEnd ∧
      r.after.resp = if rest = [] then .code .ok else .code .errTruncatedStream :=
  getLast?_of_map_eq_concat hrun.2.1 (decStream_of_decRun hinv hpaths hrest hrun).answers

/-- In the general form, bits of which no part from the front is a path end at an INTERNAL node: their walk completes no path. -/
theorem GeneralForm.atInternal_of_no_leafPath (hm : GeneralForm m) (hroot : AtInternal m [])
    (hnone : ∀ q sym, q <+: rest → ¬ LeafPath m q sym) : AtInternal m rest := by
  obtain ⟨paths, rest', hw⟩ := hm.exists_walk hroot rest
  obtain ⟨hpaths, hrest', heq⟩ := hw.splits
  cases paths with
  | nil =>
    rw [List.nil_append, List.flatMap_nil, List.nil_append] at heq
    exact heq ▸ hrest'
  | cons q paths =>
    refine absurd (hpaths q List.mem_cons_self) (hnone q.1 q.2 ?_)
    rw [List.nil_append, List.flatMap_cons, List.append_assoc] at heq
    exact heq ▸ List.prefix_append _ _

end Decode

/-- Settles O54: the encoder's run is free of faults, so that what it pushes are the codes in order; those are the paths of the
text's leaves, with no remainder, and the decoder's run walks them. -/
theorem roundTripLaw : Obligations.RoundTripLaw := by
  unfold Obligations.RoundTripLaw
  intro A s s' text ops ops' hcons htext hinv hrun hroot hnodes hinv' hrun'
  have hok := hcons.encRun_ok htext hinv hrun
  obtain ⟨-, ⟨full, e, hout, hfull, hlast, -⟩, -⟩ := encodedStreamIsCodesInOrder s text ops hinv hrun hok
  have hpaths := hcons.textPaths_leafPath htext hroot hnodes
  have hend : AtInternal s'.mem [] := hcons.1.atInternal_root.congr hroot hnodes
  rw [hcons.unpack_encOut htext hinv hrun, ← textPaths_flatMap, ← List.append_nil (List.flatMap _ _)] at hrun'
  have hstream := decStream_of_decRun hinv' hpaths hend hrun'
  refine ⟨hok, ⟨full, e, hout, hlast, fun w hw => (hfull w hw).1⟩, fun r hr => ?_, ?_⟩
  · have hmem : r.after.resp ∈ (decAccepted (trace ops' s')).map (fun r => r.after.resp) := List.mem_map_of_mem hr
    rw [hstream.answers, if_pos rfl, ← List.replicate_succ'] at hmem
    exact List.eq_of_mem_replicate hmem
  · rw [hstream.out, textPaths, List.map_map]
    rfl

/-- Settles O55: the remainder ends at an INTERNAL node, by the walk in the general form in the first part, and in the second because it
is a proper part of the last symbol's path. -/
theorem truncationLaw : Obligations.TruncationLaw := by
  unfold Obligations.TruncationLaw
  constructor
  · intro s paths rest ops hwf hm hinv hpaths hnone hrun
    exact decEnd_of_decRun hinv hpaths (hm.atInternal_of_no_leafPath hwf.atInternal_root hnone) hrun
  · intro A s s' text x cut ops ops' hcons _ htext hinv hrun hroot hnodes hinv' hpos hcut hrun'
    obtain ⟨htext', hx⟩ := List.forall_mem_append.1 htext
    have hlen := codebits_length (ctRead s.mem x)
    have hpath := (hcons.leafPath_codebits (hx x (List.mem_singleton.2 rfl))).congr hroot hnodes
    have hbits := hcons.unpack_encOut htext hinv hrun
    rw [textBits_concat] at hbits
    obtain ⟨kept, lost, hsplit, rfl⟩ : ∃ kept lost, codebits (ctRead s.mem x) = kept ++ lost ∧ lost.length = cut :=
      ⟨_, _, (List.take_append_drop ((ctRead s.mem x).len.toNat - cut) _).symm, by rw [List.length_drop]; omega⟩
    rw [hsplit, List.length_append] at hlen
    rw [hsplit] at hpath hbits
    have hkept : kept ≠ [] := List.ne_nil_of_length_pos (by omega)
    have hlost : lost ≠ [] := List.ne_nil_of_length_pos hpos
    rw [hbits, ← List.append_assoc, List.length_append, Nat.add_sub_cancel, List.take_left, ← textPaths_flatMap] at hrun'
    have hend := decEnd_of_decRun hinv' (hcons.textPaths_leafPath htext' hroot hnodes) (hpath.atInternal hlost) hrun'
    rwa [if_neg hkept] at hend

end Sys2Proof.Machine
end

section
/-! PROOFS. The interleaving law (R207): an accepted port-2 or port-4 operation sees neither its unit's queue nor what a closed unit
still holds in its counters, so two runs with the same accepted operations push, answer and leave the same. -/

namespace Sys2Proof.Machine

open Sys2Proof

variable {P : Params}

/-! ### An encoder as its next operation finds it (R33 to R36) -/

/-- The encoder but for its FIFO. -/
def EncUnit.registers (u : EncUnit P) : EncUnit P := { u with q := [] }

/-- The encoder as its next operation finds it: without its FIFO, and with the counters of the stream, which are 0 in a new one. -/
def EncUnit.onStart (u : EncUnit P) : EncUnit P := { u with q := [], bits := u.startBits, syms := u.startSyms }

theorem EncUnit.onStart_of_open {u : EncUnit P} (h : u.isOpen = true) : u.onStart = u.registers := by
  simp [EncUnit.onStart, EncUnit.registers, EncUnit.startBits, EncUnit.startSyms, h]

theorem EncUnit.onStart_congr {u v : EncUnit P} (h : u.registers = v.registers) : u.onStart = v.onStart :=
  (congrArg EncUnit.onStart h :)

/-- A closed encoder starts from its reset values (R37). -/
theorem EncUnit.Inv.onStart_of_closed {u : EncUnit P} (h : u.Inv) (hc : u.isOpen = false) : u.onStart = EncUnit.reset := by
  obtain ⟨-, -, hempty, -, herr, -⟩ := h
  obtain ⟨hacc, hfault⟩ := hempty hc
  simp [EncUnit.onStart, EncUnit.reset, EncUnit.startBits, EncUnit.startSyms, hacc, hfault, herr hfault, hc]

theorem unknownSymbol_registers (sym : Symbol P) (s : State P) :
    (raise (.unknownSymbol sym) (zeroEncCountersIfClosed s)).enc.registers =
      { s.enc.onStart with fault := .unknown, errsym := sym, isOpen := true } := by
  rw [raise_unknownSymbol_enc, zeroEncCountersIfClosed_enc]
  cases h : s.enc.isOpen <;> simp [EncUnit.registers, EncUnit.onStart, EncUnit.startBits, EncUnit.startSyms, h]

theorem appendCode_registers (e : CodeEntry P) (s : State P) :
    (appendCode e s).enc.registers = { s.enc.onStart with
      isOpen := true
      acc := (s.enc.onStart.acc ++ codebits e).drop ((s.enc.onStart.acc.length + e.len.toNat) / P.WORD_W * P.WORD_W)
      bits := s.enc.onStart.bits + BitVec.ofNat P.CNT_W e.len.toNat
      syms := s.enc.onStart.syms + 1 } := by
  rw [appendCode_enc]
  rfl

theorem endEncStream_registers (s : State P) :
    (endEncStream s).enc.registers = { s.enc.onStart with acc := [], isOpen := false } := by
  rw [endEncStream_enc]
  rfl

/-! ### Two encoders that go on alike -/

/-- The two states hold the same codes, and the next operation finds their encoders alike; a fault stands in an open unit only (R37). -/
structure EncAlike (s s' : State P) : Prop where
  codes : ∀ sym, ctRead s.mem sym = ctRead s'.mem sym
  enc : s.enc.onStart = s'.enc.onStart
  opened : s.enc.fault ≠ .none → s.enc.isOpen = true

/-- From `s` to `t` and from `s'` to `t'` the same is answered and pushed, and the same registers are left. -/
structure EncAnswersAlike (s t s' t' : State P) : Prop where
  resp : t.resp = t'.resp
  pushed : t.enc.q.drop s.enc.q.length = t'.enc.q.drop s'.enc.q.length
  registers : t.enc.registers = t'.enc.registers

section Encoder

variable {s s' t t' : State P} {i : Instr P} {rs rs' : List (OpRecord P)} {out out' : List (EncEntry P)}

theorem EncQuiet.registers (h : EncQuiet s t) : t.enc.registers = s.enc.registers := by
  obtain ⟨q, he⟩ := h.enc
  rw [he]
  rfl

theorem EncAlike.of_quiet (h : EncAlike s s') (hq : EncQuiet s t) (hq' : EncQuiet s' t') : EncAlike t t' := by
  refine ⟨fun sym => ?_, ?_, ?_⟩
  · rw [hq.codes, hq'.codes, h.codes]
  · rw [EncUnit.onStart_congr hq.registers, EncUnit.onStart_congr hq'.registers, h.enc]
  · obtain ⟨q, he⟩ := hq.enc
    rw [he]
    exact h.opened

theorem EncAlike.acc (h : EncAlike s s') : s.enc.acc = s'.enc.acc := (congrArg EncUnit.acc h.enc :)

theorem EncAlike.fault (h : EncAlike s s') : s.enc.fault = s'.enc.fault := (congrArg EncUnit.fault h.enc :)

theorem EncAlike.isOpen (h : EncAlike s s') : s.enc.isOpen = s'.enc.isOpen := (congrArg EncUnit.isOpen h.enc :)

/-- A faulted encoder refuses, and it is open, so that its counters are those of the stream. -/
theorem EncAlike.errFaulted (h : EncAlike s s') (hf : s.enc.fault ≠ .none) :
    EncAnswersAlike s (respCode .errFaulted s) s' (respCode .errFaulted s') := by
  have ho := h.opened hf
  have hreg := h.enc
  rw [EncUnit.onStart_of_open ho, EncUnit.onStart_of_open (h.isOpen ▸ ho)] at hreg
  exact ⟨rfl, by simp, hreg⟩

theorem EncAlike.unknownSymbol (h : EncAlike s s') (sym : Symbol P) :
    EncAnswersAlike s (raise (.unknownSymbol sym) (zeroEncCountersIfClosed s)) s'
      (raise (.unknownSymbol sym) (zeroEncCountersIfClosed s')) := by
  have hnone (u : State P) : (raise (.unknownSymbol sym) (zeroEncCountersIfClosed u)).enc.q.drop u.enc.q.length = [] := by
    rw [raise_unknownSymbol_enc, zeroEncCountersIfClosed_enc]
    split <;> simp
  exact ⟨rfl, by rw [hnone, hnone], by rw [unknownSymbol_registers, unknownSymbol_registers, h.enc]⟩

theorem EncAlike.appendCode (h : EncAlike s s') (e : CodeEntry P) :
    EncAnswersAlike s (appendCode e s) s' (appendCode e s') :=
  ⟨by simp, by simp [wordsCompleted, h.acc], by rw [appendCode_registers, appendCode_registers, h.enc]⟩

theorem EncAlike.endEncStream (h : EncAlike s s') : EncAnswersAlike s (endEncStream s) s' (endEncStream s') :=
  ⟨by simp, by simp [h.acc], by rw [endEncStream_registers, endEncStream_registers, h.enc]⟩

/-- An accepted port-2 operation takes the same branch in both. -/
theorem EncAlike.answersAlike (h : EncAlike s s') (hi : isEncStream i = true) (hr : ready i s = true) (hr' : ready i s' = true) :
    EncAnswersAlike s (applyOp i s) s' (applyOp i s') := by
  cases i with
  | encPut sym =>
    rw [encPut_of_ready hr, encPut_of_ready hr', ← h.fault, ← h.codes]
    split_ifs with hf hl
    · exact h.errFaulted hf
    · exact h.unknownSymbol sym
    · exact h.appendCode _
  | encEnd =>
    rw [encEnd_of_ready hr, encEnd_of_ready hr', ← h.fault]
    split_ifs with hf
    · exact h.errFaulted hf
    · exact h.endEncStream
  | ctrlNop | encClr | decClr | allClr | cfgClear | cfgCode | cfgNode | cfgRoot | encPop | decBit | decEnd | decPop | statRd =>
    cases hi

/-- An accepted port-2 operation that leaves a fault leaves the unit open. -/
theorem opened_of_encStream (hi : isEncStream i = true) (hr : ready i s = true)
    (ho : s.enc.fault ≠ .none → s.enc.isOpen = true) : (applyOp i s).enc.fault ≠ .none → (applyOp i s).enc.isOpen = true := by
  cases i with
  | encPut sym =>
    rw [encPut_of_ready hr]
    split_ifs with hf hl
    · exact ho
    · exact fun _ => rfl
    · simp
  | encEnd =>
    rw [encEnd_of_ready hr]
    split_ifs with hf
    · exact ho
    · simpa using hf
  | ctrlNop | encClr | decClr | allClr | cfgClear | cfgCode | cfgNode | cfgRoot | encPop | decBit | decEnd | decPop | statRd =>
    cases hi

/-- After an accepted port-2 operation they still go on alike. -/
theorem EncAlike.after_op (h : EncAlike s s') (hi : isEncStream i = true) (hr : ready i s = true) (hr' : ready i s' = true) :
    EncAlike (applyOp i s) (applyOp i s') := by
  have hchan : i.chan ≠ 1 := by
    rw [of_decide_eq_true hi]
    decide
  refine ⟨fun sym => ?_, EncUnit.onStart_congr (h.answersAlike hi hr hr').registers, opened_of_encStream hi hr h.opened⟩
  rw [applyOp_mem hchan, applyOp_mem hchan, h.codes]

/-- Plays of the same operations push and answer the same and leave the same registers, where there is an operation or the
registers were the same before. -/
theorem EncPlays.alike (h : EncPlays s rs out t) (h' : EncPlays s' rs' out' t') (hops : rs.map OpRecord.op = rs'.map OpRecord.op)
    (halike : EncAlike s s') :
    out = out' ∧ rs.map (fun r => r.after.resp) = rs'.map (fun r => r.after.resp) ∧
    (rs ≠ [] ∨ s.enc.registers = s'.enc.registers → t.enc.registers = t'.enc.registers) := by
  induction h generalizing s' rs' out' with
  | done hq =>
    cases h' with
    | done hq' =>
      refine ⟨rfl, rfl, fun hreg => ?_⟩
      rw [hq.registers, hq'.registers]
      exact hreg.resolve_left (not_not.2 rfl)
    | next => cases hops
  | next hq hi hr _ ih =>
    cases h' with
    | done => cases hops
    | next hq' _ hr' hrest' =>
      obtain ⟨rfl, htail⟩ := List.cons.inj hops
      have hu := halike.of_quiet hq hq'
      have hop := hu.answersAlike hi hr hr'
      obtain ⟨rfl, hresps, hend⟩ := ih hrest' htail (hu.after_op hi hr hr')
      exact ⟨by rw [hop.pushed], by rw [List.map_cons, List.map_cons, hop.resp, hresps], fun _ => hend (.inr hop.registers)⟩

theorem encRun_alike {text : List (Symbol P)} {ops ops' : List (Instr P)} (hcodes : ∀ sym, ctRead s.mem sym = ctRead s'.mem sym)
    (hinv : s.enc.Inv) (hinv' : s'.enc.Inv) (hrun : EncRun s text ops) (hrun' : EncRun s' text ops') :
    encOut (trace ops s) = encOut (trace ops' s') ∧
    (encAccepted (trace ops s)).map (fun r => r.after.resp) = (encAccepted (trace ops' s')).map (fun r => r.after.resp) ∧
    (runOps ops s).enc.registers = (runOps ops' s').enc.registers := by
  obtain ⟨hclosed, hops, hu⟩ := hrun
  obtain ⟨hclosed', hops', hu'⟩ := hrun'
  have hstart := (hinv.onStart_of_closed hclosed).trans (hinv'.onStart_of_closed hclosed').symm
  have hne : encAccepted (trace ops s) ≠ [] := by
    intro h
    rw [h, encodeOps] at hops
    exact List.append_ne_nil_of_right_ne_nil _ (List.cons_ne_nil _ _) hops.symm
  obtain ⟨hout, hresp, hend⟩ := (encPlays_of_undisturbed hu).alike (encPlays_of_undisturbed hu') (hops.trans hops'.symm)
    ⟨hcodes, hstart, hinv.open_of_fault⟩
  exact ⟨hout, hresp, hend (.inl hne)⟩

end Encoder

end Sys2Proof.Machine
end

section
/-! PROOFS. The interleaving law for the decoder (R207), in the manner of the encoder's: an accepted port-4 operation sees neither the
queue nor what a closed unit still holds in its counters. The stale handle in `dec_cur` it may leave as it is. -/

namespace Sys2Proof.Machine

open Sys2Proof

variable {P : Params}

/-! ### Accepted operations (R161, R162) -/

/-- A DEC_BIT that is not `NotReady`: the room in the queue plays no further part (R161). -/
theorem decBit_of_ready {bit : Bool} {s : State P} (h : ready (.decBit bit) s = true) :
    applyOp (.decBit bit) s =
      if s.dec.fault ≠ .none then respCode .errFaulted s
      else if (tnRead s.mem (decPosition s)).kind ≠ .internal then raise (.badTree (decPosition s)) (openDec s)
      else enterChild ((tnRead s.mem (decPosition s)).child bit) (openDec s) := by
  have hresp := applyOp_resp_of_ready h
  rcases decBit_cases bit s with ⟨hf, he⟩ | ⟨-, -, he⟩ | ⟨hf, -, hk, he⟩ | ⟨hf, -, hk, he⟩
  · rw [he, if_pos hf]
  · exact absurd (by rw [he, notReady_resp]) hresp
  · rw [he, if_neg (not_not.2 hf), if_pos hk]
  · rw [he, if_neg (not_not.2 hf), if_neg (not_not.2 hk)]

/-- A DEC_END that is not `NotReady` (R162). -/
theorem decEnd_of_ready {s : State P} (h : ready .decEnd s = true) :
    applyOp .decEnd s =
      if s.dec.fault ≠ .none then respCode .errFaulted s
      else if s.dec.mid then truncateDecStream s else endDecStream s := by
  have hresp := applyOp_resp_of_ready h
  rcases decEnd_cases s with ⟨hf, he⟩ | ⟨-, -, he⟩ | ⟨hf, -, hm, he⟩ | ⟨hf, -, hm, he⟩
  · rw [he, if_pos hf]
  · exact absurd (by rw [he, notReady_resp]) hresp
  · rw [he, if_neg (not_not.2 hf), if_pos hm]
  · rw [he, if_neg (not_not.2 hf), hm, if_neg Bool.false_ne_true]

/-! ### A decoder as its next operation finds it (R38 to R41) -/

/-- The decoder but for its queue. -/
def DecUnit.registers (u : DecUnit P) : DecUnit P := { u with q := [] }

/-- The decoder as its next operation finds it: without its queue, and with the counters of the stream, which are 0 in a new one. -/
def DecUnit.onStart (u : DecUnit P) : DecUnit P := { u with q := [], bits := u.startBits, syms := u.startSyms }

theorem DecUnit.onStart_of_open {u : DecUnit P} (h : u.isOpen = true) : u.onStart = u.registers := by
  simp [DecUnit.onStart, DecUnit.registers, DecUnit.startBits, DecUnit.startSyms, h]

theorem DecUnit.onStart_congr {u v : DecUnit P} (h : u.registers = v.registers) : u.onStart = v.onStart :=
  (congrArg DecUnit.onStart h :)

/-- A closed decoder starts from its reset values, but for the stale handle (R42). -/
theorem DecUnit.Inv.onStart_of_closed {u : DecUnit P} (h : u.Inv) (hc : u.isOpen = false) :
    u.onStart = { DecUnit.reset with cur := u.cur } := by
  obtain ⟨-, hclosed, -⟩ := h
  obtain ⟨hmid, hfault⟩ := hclosed hc
  simp [DecUnit.onStart, DecUnit.reset, DecUnit.startBits, DecUnit.startSyms, hmid, hfault, hc]

theorem openDec_registers (s : State P) : (openDec s).dec.registers = { s.dec.onStart with isOpen := true } := by
  rw [openDec_dec]
  rfl

theorem badTree_registers (h : Handle P) (s : State P) :
    (raise (.badTree h) s).dec.registers = { s.dec.registers with fault := .badTree, cur := h, isOpen := true } := rfl

theorem emitSymbol_registers (sym : Symbol P) (s : State P) :
    (emitSymbol sym s).dec.registers =
      { s.dec.registers with mid := false, bits := s.dec.registers.bits + 1, syms := s.dec.registers.syms + 1 } := rfl

theorem descend_registers (c : Handle P) (s : State P) :
    (descend c s).dec.registers = { s.dec.registers with cur := c, mid := true, bits := s.dec.registers.bits + 1 } := rfl

theorem truncateDecStream_registers (s : State P) :
    (truncateDecStream s).dec.registers = { s.dec.onStart with fault := .truncated, isOpen := true } := by
  rw [truncateDecStream_dec]
  rfl

theorem endDecStream_registers (s : State P) : (endDecStream s).dec.registers = { s.dec.onStart with isOpen := false } := by
  rw [endDecStream_dec]
  rfl

/-! ### Two decoders that go on alike -/

/-- The two states hold the same tree, and the next operation finds their decoders alike; a fault stands in an open unit only (R42). -/
structure DecAlike (s s' : State P) : Prop where
  nodes : ∀ k, tnRead s.mem k = tnRead s'.mem k
  root : s.mem.root = s'.mem.root
  dec : s.dec.onStart = s'.dec.onStart
  opened : s.dec.fault ≠ .none → s.dec.isOpen = true

/-- From `s` to `t` and from `s'` to `t'` the same is answered and pushed, and the same registers are left. -/
structure DecAnswersAlike (s t s' t' : State P) : Prop where
  resp : t.resp = t'.resp
  pushed : t.dec.q.drop s.dec.q.length = t'.dec.q.drop s'.dec.q.length
  registers : t.dec.registers = t'.dec.registers

section Decoder

variable {s s' t t' : State P} {i : Instr P} {ops ops' : List (Instr P)}

theorem DecQuiet.registers (h : DecQuiet s t) : t.dec.registers = s.dec.registers := by
  obtain ⟨q, hd⟩ := h.dec
  rw [hd]
  rfl

theorem DecAlike.of_quiet (h : DecAlike s s') (hq : DecQuiet s t) (hq' : DecQuiet s' t') : DecAlike t t' := by
  refine ⟨fun k => ?_, ?_, ?_, ?_⟩
  · rw [hq.nodes, hq'.nodes, h.nodes]
  · rw [hq.root, hq'.root, h.root]
  · rw [DecUnit.onStart_congr hq.registers, DecUnit.onStart_congr hq'.registers, h.dec]
  · obtain ⟨q, hd⟩ := hq.dec
    rw [hd]
    exact h.opened

theorem DecAlike.fault (h : DecAlike s s') : s.dec.fault = s'.dec.fault := (congrArg DecUnit.fault h.dec :)

theorem DecAlike.isOpen (h : DecAlike s s') : s.dec.isOpen = s'.dec.isOpen := (congrArg DecUnit.isOpen h.dec :)

theorem DecAlike.mid (h : DecAlike s s') : s.dec.mid = s'.dec.mid := (congrArg DecUnit.mid h.dec :)

theorem DecAlike.cur (h : DecAlike s s') : s.dec.cur = s'.dec.cur := (congrArg DecUnit.cur h.dec :)

theorem DecAlike.position (h : DecAlike s s') : decPosition s = decPosition s' := by
  rw [decPosition, decPosition, h.mid, h.cur, h.root]

/-- A faulted decoder refuses, and it is open, so that its counters are those of the stream. -/
theorem DecAlike.errFaulted (h : DecAlike s s') (hf : s.dec.fault ≠ .none) :
    DecAnswersAlike s (respCode .errFaulted s) s' (respCode .errFaulted s') := by
  have ho := h.opened hf
  have hreg := h.dec
  rw [DecUnit.onStart_of_open ho, DecUnit.onStart_of_open (h.isOpen ▸ ho)] at hreg
  exact ⟨rfl, by simp, hreg⟩

theorem DecAlike.openDec_registers (h : DecAlike s s') : (openDec s).dec.registers = (openDec s').dec.registers := by
  rw [Machine.openDec_registers, Machine.openDec_registers, h.dec]

theorem DecAlike.badTree (h : DecAlike s s') (k : Handle P) :
    DecAnswersAlike s (raise (.badTree k) (openDec s)) s' (raise (.badTree k) (openDec s')) :=
  ⟨rfl, by simp, by rw [badTree_registers, badTree_registers, h.openDec_registers]⟩

/-- The step down to a child takes the same branch in both. -/
theorem DecAlike.enterChild (h : DecAlike s s') (c : Handle P) :
    DecAnswersAlike s (enterChild c (openDec s)) s' (enterChild c (openDec s')) := by
  unfold Machine.enterChild
  rw [openDec_mem, openDec_mem, h.nodes]
  cases (tnRead s'.mem c).kind with
  | leaf => exact ⟨rfl, by simp, by rw [emitSymbol_registers, emitSymbol_registers, h.openDec_registers]⟩
  | internal => exact ⟨rfl, by simp, by rw [descend_registers, descend_registers, h.openDec_registers]⟩
  | empty | placeholder => exact h.badTree c

theorem DecAlike.truncateDecStream (h : DecAlike s s') :
    DecAnswersAlike s (truncateDecStream s) s' (truncateDecStream s') :=
  ⟨by simp, by simp, by rw [truncateDecStream_registers, truncateDecStream_registers, h.dec]⟩

theorem DecAlike.endDecStream (h : DecAlike s s') : DecAnswersAlike s (endDecStream s) s' (endDecStream s') :=
  ⟨by simp, by simp, by rw [endDecStream_registers, endDecStream_registers, h.dec]⟩

/-- An accepted port-4 operation takes the same branch in both. -/
theorem DecAlike.answersAlike (h : DecAlike s s') (hi : isDecStream i = true) (hr : ready i s = true) (hr' : ready i s' = true) :
    DecAnswersAlike s (applyOp i s) s' (applyOp i s') := by
  cases i with
  | decBit bit =>
    rw [decBit_of_ready hr, decBit_of_ready hr', ← h.fault, ← h.position, ← h.nodes]
    split_ifs with hf hk
    · exact h.errFaulted hf
    · exact h.badTree _
    · exact h.enterChild _
  | decEnd =>
    rw [decEnd_of_ready hr, decEnd_of_ready hr', ← h.fault, ← h.mid]
    split_ifs with hf hm
    · exact h.errFaulted hf
    · exact h.truncateDecStream
    · exact h.endDecStream
  | ctrlNop | encClr | decClr | allClr | cfgClear | cfgCode | cfgNode | cfgRoot | encPut | encEnd | encPop | decPop | statRd =>
    cases hi

theorem enterChild_isOpen (c : Handle P) (s : State P) : (enterChild c (openDec s)).dec.isOpen = true := by
  rcases enterChild_cases c (openDec s) with ⟨-, he⟩ | ⟨-, he⟩ | ⟨-, he⟩ <;> rw [he] <;> simp

/-- An accepted port-4 operation that leaves a fault leaves the unit open. -/
theorem opened_of_decStream (hi : isDecStream i = true) (hr : ready i s = true)
    (ho : s.dec.fault ≠ .none → s.dec.isOpen = true) : (applyOp i s).dec.fault ≠ .none → (applyOp i s).dec.isOpen = true := by
  cases i with
  | decBit bit =>
    rw [decBit_of_ready hr]
    split_ifs with hf hk
    · exact ho
    · exact fun _ => rfl
    · exact fun _ => enterChild_isOpen _ s
  | decEnd =>
    rw [decEnd_of_ready hr]
    split_ifs with hf hm
    · exact ho
    · simp
    · simpa using hf
  | ctrlNop | encClr | decClr | allClr | cfgClear | cfgCode | cfgNode | cfgRoot | encPut | encEnd | encPop | decPop | statRd =>
    cases hi

/-- After an accepted port-4 operation they still go on alike. -/
theorem DecAlike.after_op (h : DecAlike s s') (hi : isDecStream i = true) (hr : ready i s = true) (hr' : ready i s' = true) :
    DecAlike (applyOp i s) (applyOp i s') := by
  have hchan : i.chan ≠ 1 := by
    rw [of_decide_eq_true hi]
    decide
  have hmem (u : State P) : (applyOp i u).mem = u.mem := applyOp_mem hchan u
  refine ⟨fun k => ?_, ?_, DecUnit.onStart_congr (h.answersAlike hi hr hr').registers, opened_of_decStream hi hr h.opened⟩
  · rw [hmem, hmem, h.nodes]
  · rw [hmem, hmem, h.root]

/-- Undisturbed runs with the same accepted port-4 operations push and answer the same and leave the same registers, where there
is an operation or the registers were the same before: by induction on the operations. -/
theorem DecAlike.runs {is : List (Instr P)} (h : DecAlike s s') (hu : DecUndisturbed s ops) (hu' : DecUndisturbed s' ops')
    (his : ∀ i ∈ is, isDecStream i = true) (hops : (decAccepted (trace ops s)).map OpRecord.op = is)
    (hops' : (decAccepted (trace ops' s')).map OpRecord.op = is) :
    decOut (trace ops s) = decOut (trace ops' s') ∧
    (decAccepted (trace ops s)).map (fun r => r.after.resp) = (decAccepted (trace ops' s')).map (fun r => r.after.resp) ∧
    (is ≠ [] ∨ s.dec.registers = s'.dec.registers → (runOps ops s).dec.registers = (runOps ops' s').dec.registers) := by
  induction is generalizing s s' ops ops' with
  | nil =>
    have hnone := List.map_eq_nil_iff.1 hops
    have hnone' := List.map_eq_nil_iff.1 hops'
    obtain ⟨hq, hout⟩ := decRun_of_none_accepted hu hnone
    obtain ⟨hq', hout'⟩ := decRun_of_none_accepted hu' hnone'
    refine ⟨hout.trans hout'.symm, by rw [hnone, hnone'], fun hreg => ?_⟩
    rw [hq.registers, hq'.registers]
    exact hreg.resolve_left (not_not.2 rfl)
  | cons i is ih =>
    obtain ⟨hi, htail⟩ := List.forall_mem_cons.1 his
    obtain ⟨u, rest, hf⟩ := exists_decFirst hu hops
    obtain ⟨u', rest', hf'⟩ := exists_decFirst hu' hops'
    have hbefore := h.of_quiet hf.quiet hf'.quiet
    have hop := hbefore.answersAlike hi hf.ready hf'.ready
    obtain ⟨hout, hresps, hend⟩ := ih (hbefore.after_op hi hf.ready hf'.ready) hf.undisturbed hf'.undisturbed htail
      (hf.rest hops) (hf'.rest hops')
    refine ⟨by rw [hf.out, hf'.out, hop.pushed, hout], ?_, fun _ => by rw [hf.run, hf'.run, hend (.inr hop.registers)]⟩
    rw [hf.accepted, hf'.accepted, List.map_cons, List.map_cons, hop.resp, hresps]

theorem decodeOps_isDecStream (bits : Bits) : ∀ i ∈ (decodeOps bits : List (Instr P)), isDecStream i = true := by
  intro i hi
  rcases List.mem_append.1 hi with hi | hi
  · obtain ⟨b, -, rfl⟩ := List.mem_map.1 hi
    rfl
  · obtain rfl := List.mem_singleton.1 hi
    rfl

theorem decRun_alike {bits : Bits} (hroot : s.mem.root = s'.mem.root) (hnodes : ∀ k, tnRead s.mem k = tnRead s'.mem k)
    (hinv : s.dec.Inv) (hinv' : s'.dec.Inv) (hcur : s.dec.cur = s'.dec.cur) (hrun : DecRun s bits ops)
    (hrun' : DecRun s' bits ops') :
    decOut (trace ops s) = decOut (trace ops' s') ∧
    (decAccepted (trace ops s)).map (fun r => r.after.resp) = (decAccepted (trace ops' s')).map (fun r => r.after.resp) ∧
    (runOps ops s).dec.registers = (runOps ops' s').dec.registers := by
  obtain ⟨hclosed, hops, hu⟩ := hrun
  obtain ⟨hclosed', hops', hu'⟩ := hrun'
  have hstart : s.dec.onStart = s'.dec.onStart := by
    rw [hinv.onStart_of_closed hclosed, hinv'.onStart_of_closed hclosed', hcur]
  have halike : DecAlike s s' := ⟨hnodes, hroot, hstart, hinv.open_of_fault⟩
  obtain ⟨hout, hresp, hend⟩ := halike.runs hu hu' (decodeOps_isDecStream bits) hops hops'
  exact ⟨hout, hresp, hend (.inl (List.append_ne_nil_of_right_ne_nil _ (List.cons_ne_nil _ _)))⟩

end Decoder

/-- Settles O56, unit by unit: closed units start alike, whatever they still hold in their queue and counters. -/
theorem interleavingDoesNotMatter : Obligations.InterleavingDoesNotMatter := by
  unfold Obligations.InterleavingDoesNotMatter
  exact ⟨fun _ _ _ _ _ hcodes hinv hinv' hrun hrun' => encRun_alike hcodes hinv hinv' hrun hrun',
    fun _ _ _ _ _ hroot hnodes hinv hinv' hcur hrun hrun' => decRun_alike hroot hnodes hinv hinv' hcur hrun hrun'⟩

end Sys2Proof.Machine
end

section
/-! PROOFS. Faults and refusals (R220 to R231): the response of an operation as the first of its tests that fires (R228), what a
fault records (R225, R227), and that the record stands until its unit is cleared. -/

namespace Sys2Proof.Machine

open Sys2Proof

variable {P : Params}

/-! ### The order of the tests (R228) -/

theorem encPut_resp (sym : Symbol P) (s : State P) :
    (applyOp (.encPut sym) s).resp =
      if s.enc.fault ≠ .none then .code .errFaulted
      else if (ctRead s.mem sym).len = 0#P.LEN_W then .code .errUnknownSymbol
      else if P.EQ_DEPTH - s.enc.q.length < wordsCompleted s (ctRead s.mem sym).len.toNat then .notReady
      else .code .ok := by
  rcases encPut_cases sym s with ⟨hf, he⟩ | ⟨hf, hl, he⟩ | ⟨hf, hl, hfull, he⟩ | ⟨hf, hl, hroom, he⟩
  · simp [he, hf]
  · simp [he, hf, hl]
  · simp [he, hf, hl, hfull]
  · simp [he, hf, hl, Nat.not_lt.2 hroom]

theorem encEnd_resp (s : State P) :
    (applyOp .encEnd s).resp =
      if s.enc.fault ≠ .none then .code .errFaulted
      else if s.enc.q.length = P.EQ_DEPTH then .notReady
      else .code .ok := by
  rcases encEnd_cases s with ⟨hf, he⟩ | ⟨hf, hfull, he⟩ | ⟨hf, hroom, he⟩
  · simp [he, hf]
  · simp [he, hf, hfull]
  · simp [he, hf, hroom]

theorem decBit_resp (bit : Bool) (s : State P) :
    (applyOp (.decBit bit) s).resp =
      if s.dec.fault ≠ .none then .code .errFaulted
      else if s.dec.q.length = P.DQ_DEPTH then .notReady
      else if (tnRead s.mem (decPosition s)).kind ≠ .internal then .code .errBadTree
      else if (tnRead s.mem ((tnRead s.mem (decPosition s)).child bit)).kind = .empty ∨
          (tnRead s.mem ((tnRead s.mem (decPosition s)).child bit)).kind = .placeholder then .code .errBadTree
      else .code .ok := by
  rcases decBit_cases bit s with ⟨hf, he⟩ | ⟨hf, hfull, he⟩ | ⟨hf, hroom, hpos, he⟩ | ⟨hf, hroom, hpos, he⟩
  · simp [he, hf]
  · simp [he, hf, hfull]
  · simp [he, hf, hroom, hpos]
  · cases hchild : (tnRead s.mem ((tnRead s.mem (decPosition s)).child bit)).kind <;>
      simp [he, enterChild_resp, hf, hroom, hpos, hchild]

theorem decEnd_resp (s : State P) :
    (applyOp .decEnd s).resp =
      if s.dec.fault ≠ .none then .code .errFaulted
      else if s.dec.q.length = P.DQ_DEPTH then .notReady
      else if s.dec.mid = true then .code .errTruncatedStream
      else .code .ok := by
  rcases decEnd_cases s with ⟨hf, he⟩ | ⟨hf, hfull, he⟩ | ⟨hf, hroom, hm, he⟩ | ⟨hf, hroom, hm, he⟩
  · simp [he, hf]
  · simp [he, hf, hfull]
  · simp [he, hf, hroom, hm]
  · simp [he, hf, hroom, hm]

/-- Settles O13, operation by operation; a CFG operation has the one test of the busy rule. -/
theorem responsePriority : Obligations.ResponsePriority := by
  unfold Obligations.ResponsePriority
  intro s sym bit
  refine ⟨⟨_, exec_eq_applyOp _ s, encPut_resp sym s⟩, ⟨_, exec_eq_applyOp _ s, encEnd_resp s⟩,
    ⟨_, exec_eq_applyOp _ s, decBit_resp bit s⟩, ⟨_, exec_eq_applyOp _ s, decEnd_resp s⟩, fun i hi =>
    ⟨_, exec_eq_applyOp i s, ?_⟩⟩
  rcases cfg_outcome hi s with ⟨hbusy, he⟩ | ⟨hfree, hok⟩
  · rw [he, respCode_resp]
    exact (if_pos hbusy).symm
  · rw [hok]
    exact (if_neg hfree).symm

/-! ### A faulted unit (R230, R231) -/

theorem encStream_of_fault {i : Instr P} {s : State P} (hi : isEncStream i = true) (hf : s.enc.fault ≠ .none) :
    applyOp i s = respCode .errFaulted s := by
  cases i with
  | encPut sym =>
    rcases encPut_cases sym s with ⟨-, he⟩ | ⟨hf', -⟩ | ⟨hf', -⟩ | ⟨hf', -⟩
    · exact he
    all_goals exact absurd hf' hf
  | encEnd =>
    rcases encEnd_cases s with ⟨-, he⟩ | ⟨hf', -⟩ | ⟨hf', -⟩
    · exact he
    all_goals exact absurd hf' hf
  | ctrlNop | encClr | decClr | allClr | cfgClear | cfgCode | cfgNode | cfgRoot | encPop | decBit | decEnd | decPop | statRd =>
    cases hi

theorem decStream_of_fault {i : Instr P} {s : State P} (hi : isDecStream i = true) (hf : s.dec.fault ≠ .none) :
    applyOp i s = respCode .errFaulted s := by
  cases i with
  | decBit bit =>
    rcases decBit_cases bit s with ⟨-, he⟩ | ⟨hf', -⟩ | ⟨hf', -⟩ | ⟨hf', -⟩
    · exact he
    all_goals exact absurd hf' hf
  | decEnd =>
    rcases decEnd_cases s with ⟨-, he⟩ | ⟨hf', -⟩ | ⟨hf', -⟩ | ⟨hf', -⟩
    · exact he
    all_goals exact absurd hf' hf
  | ctrlNop | encClr | decClr | allClr | cfgClear | cfgCode | cfgNode | cfgRoot | encPut | encEnd | encPop | decPop | statRd =>
    cases hi

/-- Settles O26: the first test of each stream operation is its unit's fault. -/
theorem faultedUnitRefusesStreamOperations : Obligations.FaultedUnitRefusesStreamOperations := by
  unfold Obligations.FaultedUnitRefusesStreamOperations
  intro s sym bit
  exact ⟨fun hf => ⟨exec_eq_next_iff.2 (encStream_of_fault rfl hf), exec_eq_next_iff.2 (encStream_of_fault rfl hf)⟩,
    fun hf => ⟨exec_eq_next_iff.2 (decStream_of_fault rfl hf), exec_eq_next_iff.2 (decStream_of_fault rfl hf)⟩⟩

/-- Short of a clear, an operation finds a faulted encoder and leaves it, but for its FIFO, as it was. -/
theorem applyOp_enc_of_fault {i : Instr P} (hec : i ≠ .encClr) (hac : i ≠ .allClr) {s : State P} (hf : s.enc.fault ≠ .none) :
    ∃ q, (applyOp i s).enc = { s.enc with q := q } := by
  cases i with
  | encClr => exact absurd rfl hec
  | allClr => exact absurd rfl hac
  | ctrlNop | decClr | statRd => exact ⟨s.enc.q, rfl⟩
  | cfgClear | cfgCode | cfgNode | cfgRoot | decBit | decEnd | decPop =>
    exact ⟨s.enc.q, applyOp_enc (by simp [Instr.chan]) s⟩
  | encPut | encEnd => exact ⟨s.enc.q, by rw [encStream_of_fault rfl hf, respCode_enc]⟩
  | encPop => exact ⟨s.enc.q.tail, applyOp_encPop_enc s⟩

/-- Short of a clear, an operation finds a faulted decoder and leaves it, but for its queue, as it was. -/
theorem applyOp_dec_of_fault {i : Instr P} (hdc : i ≠ .decClr) (hac : i ≠ .allClr) {s : State P} (hf : s.dec.fault ≠ .none) :
    ∃ q, (applyOp i s).dec = { s.dec with q := q } := by
  cases i with
  | decClr => exact absurd rfl hdc
  | allClr => exact absurd rfl hac
  | ctrlNop | encClr | statRd => exact ⟨s.dec.q, rfl⟩
  | cfgClear | cfgCode | cfgNode | cfgRoot | encPut | encEnd | encPop =>
    exact ⟨s.dec.q, applyOp_dec (by simp [Instr.chan]) s⟩
  | decBit | decEnd => exact ⟨s.dec.q, by rw [decStream_of_fault rfl hf, respCode_dec]⟩
  | decPop => exact ⟨s.dec.q.tail, applyOp_decPop_dec s⟩

/-- Settles O45: an operation that is no clear of the unit writes no more of a faulted unit than its queue, and a step that is no
operation and no hard reset writes no unit. -/
theorem faultsLeaveOnlyByClearOrReset : Obligations.FaultsLeaveOnlyByClearOrReset := by
  unfold Obligations.FaultsLeaveOnlyByClearOrReset
  intro s t hstep hreset hall
  rw [step_eq_stepOf] at hstep
  rcases stepOf_cases hstep with ⟨-, rfl⟩ | ⟨w, rest, i, hev, hi, rfl⟩ | ⟨rest, hev, -⟩ | ⟨sig, hold, rest, -, rfl⟩
  · exact ⟨fun _ _ => ⟨rfl, rfl⟩, fun _ _ => ⟨rfl, rfl, rfl⟩⟩
  · have hac : i ≠ .allClr := fun h => hall w rest hev (h ▸ hi)
    refine ⟨fun hclr hf => ?_, fun hclr hf => ?_⟩
    · have hec : i ≠ .encClr := fun h => hclr w rest hev (h ▸ hi)
      obtain ⟨q, hq⟩ := applyOp_enc_of_fault hec hac (s := s.withEvents rest) hf
      rw [hq]
      exact ⟨rfl, rfl⟩
    · have hdc : i ≠ .decClr := fun h => hclr w rest hev (h ▸ hi)
      obtain ⟨q, hq⟩ := applyOp_dec_of_fault hdc hac (s := s.withEvents rest) hf
      rw [hq]
      exact ⟨rfl, rfl, rfl⟩
  · exact absurd hev (hreset rest)
  · exact ⟨fun _ _ => ⟨rfl, rfl⟩, fun _ _ => ⟨rfl, rfl, rfl⟩⟩

/-! ### What a fault records (R225, R227) -/

/-- UnknownSymbol (R225), as one update of the state. -/
theorem unknownSymbol_eq (sym : Symbol P) (s : State P) :
    raise (.unknownSymbol sym) (zeroEncCountersIfClosed s) =
      { s with
        enc := { s.enc with
          isOpen := true
          fault := .unknown
          errsym := sym
          bits := if s.enc.isOpen then s.enc.bits else 0
          syms := if s.enc.isOpen then s.enc.syms else 0 }
        resp := .code .errUnknownSymbol } := by
  refine State.ext_fields (zeroEncCountersIfClosed_mem s) ?_ (zeroEncCountersIfClosed_dec s) (zeroEncCountersIfClosed_resets s)
    (zeroEncCountersIfClosed_events s) rfl
  rw [raise_unknownSymbol_enc, zeroEncCountersIfClosed_enc]
  cases s.enc.isOpen <;> rfl

/-- BadTree (R227), as one update of the state. -/
theorem badTree_eq (h : Handle P) (s : State P) :
    raise (.badTree h) (openDec s) =
      { s with
        dec := { s.dec with
          cur := h
          isOpen := true
          fault := .badTree
          bits := if s.dec.isOpen then s.dec.bits else 0
          syms := if s.dec.isOpen then s.dec.syms else 0 }
        resp := .code .errBadTree } := by
  refine State.ext_fields (openDec_mem s) (openDec_enc s) ?_ (openDec_resets s) (openDec_events s) rfl
  rw [raise_badTree_dec, openDec_dec]

/-- Settles O23: no fault and no entry leave the one outcome that takes the fault. -/
theorem encPutUnknownSymbolIsPrecise : Obligations.EncPutUnknownSymbolIsPrecise := by
  unfold Obligations.EncPutUnknownSymbolIsPrecise
  intro sym s hf hl
  rcases encPut_cases sym s with ⟨hf', -⟩ | ⟨-, -, he⟩ | ⟨-, hl', -⟩ | ⟨-, hl', -⟩
  · exact absurd hf hf'
  · exact exec_eq_next_iff.2 (he.trans (unknownSymbol_eq sym s))
  · exact absurd hl hl'
  · exact absurd hl hl'

section BadTree

variable {bit : Bool} {s : State P} (hf : s.dec.fault = .none) (hroom : s.dec.q.length ≠ P.DQ_DEPTH)

include hf hroom

/-- DEC_BIT with a node at the position that is not INTERNAL (R161 lines 6 to 8). -/
theorem decBit_of_bad_position (hpos : (tnRead s.mem (decPosition s)).kind ≠ .internal) :
    applyOp (.decBit bit) s = raise (.badTree (decPosition s)) (openDec s) := by
  rcases decBit_cases bit s with ⟨hf', -⟩ | ⟨-, hq, -⟩ | ⟨-, -, -, he⟩ | ⟨-, -, hpos', -⟩
  · exact absurd hf hf'
  · exact absurd hq hroom
  · exact he
  · exact absurd hpos' hpos

/-- DEC_BIT that chooses an EMPTY or a PLACEHOLDER child (R161 lines 21 to 23). -/
theorem decBit_of_bad_child (hpos : (tnRead s.mem (decPosition s)).kind = .internal)
    (hchild : (tnRead s.mem ((tnRead s.mem (decPosition s)).child bit)).kind = .empty ∨
      (tnRead s.mem ((tnRead s.mem (decPosition s)).child bit)).kind = .placeholder) :
    applyOp (.decBit bit) s = raise (.badTree ((tnRead s.mem (decPosition s)).child bit)) (openDec s) := by
  rcases decBit_cases bit s with ⟨hf', -⟩ | ⟨-, hq, -⟩ | ⟨-, -, hpos', -⟩ | ⟨-, -, -, he⟩
  · exact absurd hf hf'
  · exact absurd hq hroom
  · exact absurd hpos hpos'
  · rw [he, enterChild, openDec_mem]
    rcases hchild with hk | hk <;> rw [hk]

end BadTree

/-- Settles O31: at the position or at the child, the same fault is taken with the handle of the node that could not be used. -/
theorem decBitBadTreeIsPrecise : Obligations.DecBitBadTreeIsPrecise := by
  unfold Obligations.DecBitBadTreeIsPrecise
  rintro bit s h hf hroom (⟨rfl, hpos⟩ | ⟨hpos, rfl, hchild⟩)
  · exact exec_eq_next_iff.2 ((decBit_of_bad_position hf hroom hpos).trans (badTree_eq _ s))
  · exact exec_eq_next_iff.2 ((decBit_of_bad_child hf hroom hpos hchild).trans (badTree_eq _ s))

end Sys2Proof.Machine
end

section
/-! PROOFS. The host's procedure fails on the empty text only (R268, R270): a text that is not empty has a frequency table with an
entry, and merging its leaves ends with one tree. -/

namespace Sys2Proof.Machine

open Sys2Proof

variable {P : Params}

/-- A symbol of the text has its place in the frequency table (R268). -/
theorem exists_frequencies {text : List (Symbol P)} (h : text ≠ []) :
    ∃ freq, buildFrequencies text = .ok freq ∧ freq ≠ [] := by
  refine ⟨_, if_neg h, ?_⟩
  obtain ⟨x, hx⟩ := List.exists_mem_of_ne_nil text h
  refine List.ne_nil_of_mem (a := (x, text.count x)) (List.mem_filterMap.2 ⟨x.toNat, ?_, ?_⟩)
  · exact List.mem_range.2 (P.nsym_eq ▸ x.isLt)
  · simp [List.count_eq_zero, hx]

theorem leavesFrom_length (freq : List (Symbol P × Nat)) (seq : Nat) : (leavesFrom seq freq).length = freq.length := by
  induction freq generalizing seq with
  | nil => rfl
  | cons entry rest ih => exact congrArg (· + 1) (ih (seq + 1))

/-- A collection with a node in it has a smallest one, and extracting that leaves one node less (R270). -/
theorem exists_extractMin {heap : List (HeapNode P)} (h : heap ≠ []) :
    ∃ m rest, extractMin heap = some (m, rest) ∧ heap.length = rest.length + 1 := by
  induction heap with
  | nil => exact absurd rfl h
  | cons x xs ih =>
    cases xs with
    | nil => exact ⟨x, [], rfl, rfl⟩
    | cons y ys =>
      obtain ⟨m, rest, hmin, hlen⟩ := ih (List.cons_ne_nil y ys)
      rw [extractMin, hmin]
      by_cases hx : x.before m = true
      · exact ⟨x, y :: ys, if_pos hx, rfl⟩
      · exact ⟨m, x :: rest, if_neg hx, congrArg (· + 1) hlen⟩

/-- Every merge leaves one node less, so as much fuel as there are nodes ends with one tree (R270, R272). -/
theorem exists_mergeLoop {fuel : Nat} {heap : List (HeapNode P)} (h : heap ≠ []) (hfuel : heap.length ≤ fuel) (next : Nat) :
    ∃ tree, mergeLoop fuel next heap = some tree := by
  induction fuel generalizing heap next with
  | zero => exact absurd (List.eq_nil_of_length_eq_zero (Nat.le_zero.1 hfuel)) h
  | succ fuel ih =>
    obtain ⟨a, rest, ha, hlen⟩ := exists_extractMin h
    by_cases hrest : rest = []
    · exact ⟨a.tree, by rw [mergeLoop, ha, hrest]; rfl⟩
    · obtain ⟨b, rest', hb, hlen'⟩ := exists_extractMin hrest
      rw [mergeLoop, ha]
      dsimp only
      rw [hb]
      exact ih (List.cons_ne_nil _ _) (by rw [List.length_cons]; omega) (next + 1)

/-- A frequency table with an entry has a tree (R270, R273). -/
theorem exists_buildTree {freq : List (Symbol P × Nat)} (h : freq ≠ []) : ∃ tree, buildTree freq = .ok tree := by
  match freq with
  | [] => exact absurd rfl h
  | [(sym, count)] => exact ⟨_, rfl⟩
  | x :: y :: rest =>
    have hlen := leavesFrom_length (x :: y :: rest) 0
    have hleaves : leavesFrom 0 (x :: y :: rest) ≠ [] := List.cons_ne_nil _ _
    obtain ⟨tree, htree⟩ := exists_mergeLoop hleaves hlen.le (x :: y :: rest).length
    exact ⟨tree, by simp only [buildTree, htree]⟩

/-- Settles O58: a text that is not empty has a frequency table with an entry, and such a table has a tree. -/
theorem hostBuildFailsOnlyOnEmptyText : Obligations.HostBuildFailsOnlyOnEmptyText := by
  unfold Obligations.HostBuildFailsOnlyOnEmptyText
  refine ⟨rfl, fun text htext => ?_⟩
  obtain ⟨freq, hfreq, hne⟩ := exists_frequencies htext
  obtain ⟨tree, htree⟩ := exists_buildTree hne
  exact ⟨_, by rw [bootOps, hfreq]; dsimp only; rw [htree]⟩

end Sys2Proof.Machine
end

section
/-! PROOFS. The codes a host reads off a tree are prefix-free (R274): the codes of a node's two subtrees go on from its path with
different bits. -/

namespace Sys2Proof.Machine

open Sys2Proof

variable {P : Params}

/-- Words that go on from the same path with different bits are not prefixes of one another. -/
theorem not_prefix_of_branch_ne {path a b : Bits} {x y : Bool} (hne : x ≠ y) (ha : path ++ [x] <+: a)
    (hb : path ++ [y] <+: b) : ¬ a <+: b := by
  intro hab
  have hxy : path ++ [x] <+: path ++ [y] := List.prefix_of_prefix_length_le (ha.trans hab) hb (by simp)
  exact hne (by simpa using hxy)

/-- A code begins with the path its subtree is read from. -/
theorem prefix_of_mem_codesOf {tree : CodeTree P} {path : Bits} {c : Symbol P × Bits} (hc : c ∈ codesOf tree path) :
    path <+: c.2 := by
  induction tree generalizing path with
  | leaf sym seq =>
    rw [codesOf, List.mem_singleton] at hc
    exact hc ▸ List.prefix_refl path
  | placeholder seq => exact absurd hc List.not_mem_nil
  | node seq l r ihl ihr =>
    rcases List.mem_append.1 hc with hl | hr
    · exact (List.prefix_append path [false]).trans (ihl hl)
    · exact (List.prefix_append path [true]).trans (ihr hr)

/-- The codes of one subtree are prefix-free by induction, and those of the two subtrees part at the node's path. -/
theorem pairwise_codesOf (tree : CodeTree P) (path : Bits) :
    (codesOf tree path).Pairwise fun a b => ¬ a.2 <+: b.2 ∧ ¬ b.2 <+: a.2 := by
  induction tree generalizing path with
  | leaf sym seq => exact List.pairwise_singleton _ _
  | placeholder seq => exact List.Pairwise.nil
  | node seq l r ihl ihr =>
    refine List.pairwise_append.2 ⟨ihl _, ihr _, fun a ha b hb => ?_⟩
    have hleft : path ++ [false] <+: a.2 := prefix_of_mem_codesOf ha
    have hright : path ++ [true] <+: b.2 := prefix_of_mem_codesOf hb
    exact ⟨not_prefix_of_branch_ne Bool.false_ne_true hleft hright,
      not_prefix_of_branch_ne Bool.false_ne_true.symm hright hleft⟩

/-- Settles O57: both halves hold of every tree and path, by induction on the tree. -/
theorem hostCodesArePrefixFree : Obligations.HostCodesArePrefixFree := by
  unfold Obligations.HostCodesArePrefixFree
  exact fun tree path => ⟨pairwise_codesOf tree path, fun _ => prefix_of_mem_codesOf⟩

end Sys2Proof.Machine
end
